-- ==== Sys2Proof/Word.lean ====
section
/-! DEFINITION. Characters, texts and the bytes of an instruction (00_scope.md rules R9 and R10). -/

namespace Sys2Proof

/-- One character: a natural number, compared by its value (00_scope.md rule R10). That it is below
`2^CHAR_W` is said by `Build.isChar` for the width of a build. -/
abbrev Character := Nat

/-- A text: a finite sequence of characters, index 0 first (00_scope.md rule R10). -/
abbrev Text := List Character

/-- One byte of an instruction: a command word (30_encoding.md rule R70). -/
abbrev Byte := BitVec 8

end Sys2Proof
end

