-- ==== Sys2Proof/Syntax.lean ====
section
/-! DEFINITION. The eight operations, one constructor per row of spec/opcode_table.json
(30_encoding.md rule R70, Table E1). -/

namespace Sys2Proof

/-- An operation with its `RADIX` field. The six operations that do not read `RADIX` carry it
all the same: any value there is legal and is read back unchanged (30_encoding.md rule R71). -/
inductive Instr where
  | rleEnc (radix : BitVec 4)
  | rleDec (radix : BitVec 4)
  | lz78Enc (radix : BitVec 4)
  | lz78Dec (radix : BitVec 4)
  | huffEnc (radix : BitVec 4)
  | huffDec (radix : BitVec 4)
  | bwtEnc (radix : BitVec 4)
  | bwtDec (radix : BitVec 4)
deriving DecidableEq, Repr

/-- `OP[0]`: the direction of an operation (30_encoding.md rule R70). -/
inductive Direction where
  | encode
  | decode
deriving DecidableEq, Repr

/-- The direction Table E1 gives each operation. -/
def Instr.direction : Instr → Direction
  | .rleEnc _ => .encode
  | .rleDec _ => .decode
  | .lz78Enc _ => .encode
  | .lz78Dec _ => .decode
  | .huffEnc _ => .encode
  | .huffDec _ => .decode
  | .bwtEnc _ => .encode
  | .bwtDec _ => .decode

/-- The `RADIX` field an operation was written with. -/
def Instr.radix : Instr → BitVec 4
  | .rleEnc r => r
  | .rleDec r => r
  | .lz78Enc r => r
  | .lz78Dec r => r
  | .huffEnc r => r
  | .huffDec r => r
  | .bwtEnc r => r
  | .bwtDec r => r

end Sys2Proof
end

