-- ==== Sys2Proof/Config.lean ====
section
/-! DEFINITION. What the block is built with (00_scope.md rule R7, Table P1) and the free values: what
the spec leaves open, as constants with no body. -/

namespace Sys2Proof

/-- The build parameters, one for each row of 00_scope.md Table P1.
They are fixed when the block is built and are not state (10_state.md rule R20).
`none` stands for "unbounded". -/
structure Build where
  /-- `CHAR_W`, the width in bits of one character. -/
  charW : Nat
  /-- `MAX_IN`, the capacity of the IN buffer. -/
  maxIn : Option Nat
  /-- `MAX_OUT`, the capacity of the OUT buffer. -/
  maxOut : Option Nat
  /-- `NUM_MAX`, the largest value of a literal, a count or a weight. -/
  numMax : Option Nat
  /-- `BWT_BLOCK`, the BWT block size. -/
  bwtBlock : Nat
  /-- `LZ_SENTINEL`, the LZ78 terminator. -/
  lzSentinel : Character
  /-- `RADIX_MIN`, the least legal Huffman radix. -/
  radixMin : Nat
  /-- `RADIX_MAX`, the greatest legal Huffman radix. -/
  radixMax : Nat
  /-- `BWT_WORKERS`, the number of internal workers of one BWT encode: not observable, no rule reads it
  (44_bwt.md rule R197). -/
  bwtWorkers : Nat
deriving DecidableEq, Repr

/-- Is a number a character of the block (00_scope.md rule R10)? -/
def Build.isChar (b : Build) (c : Character) : Bool := decide (c < 2 ^ b.charW)

/-- The constraints of 00_scope.md Table P1, as a check. -/
def Build.ok (b : Build) : Bool :=
  decide (7 ≤ b.charW) && b.maxIn != some 0 && b.maxOut != some 0 &&
    (match b.numMax, b.maxIn with
    | none, _ => true
    | some _, none => false
    | some n, some m => decide (m ≤ n)) &&
    decide (1 ≤ b.bwtBlock) && b.isChar b.lzSentinel && b.radixMin == 2 && b.radixMax == 10 &&
    decide (1 ≤ b.bwtWorkers)

namespace Config

/-- FREE VALUE. `BWT_BLOCK` is OPEN (00_scope.md rule R7); this is that number less one, so that the
constraint `>= 1` holds whatever it is. DESIGN CHOICE (log 1), safe. -/
opaque bwtBlockLessOne : Nat

/-- FREE VALUE. `BWT_WORKERS` is OPEN (00_scope.md rule R7); this is that number less one.
DESIGN CHOICE (log 5), safe. -/
opaque bwtWorkersLessOne : Nat

/-- FREE VALUE. What the `n`-th draw of an unspecified cell returns, before it is cut to the cell's width
(20_memory.md rule R54, 10_state.md rules R26, R34). DESIGN CHOICE (log 9), safe. -/
opaque freeChar : Nat → Nat

/-- FREE VALUE. What the `n`-th draw of an unspecified number returns (10_state.md rule R34).
DESIGN CHOICE (log 9), safe. -/
opaque freeNat : Nat → Nat

/-- FREE VALUE. What cell `i` of IN holds after the `e`-th reset and before it is written
(70_reset_and_hazards.md rule R250, 20_memory.md rule R54), before it is cut to the cell's width.
DEDUCED (log 8), safe. -/
opaque unwrittenIn : Nat → Nat → Nat

end Config

/-- The reference instance of 00_scope.md Table P1: the column "value", with the capacities unbounded and
`BWT_BLOCK` and `BWT_WORKERS` left open. DESIGN CHOICE (log 2): which build `State.reset` shows. -/
def Build.reference : Build where
  charW := 8
  maxIn := none
  maxOut := none
  numMax := none
  bwtBlock := Config.bwtBlockLessOne + 1
  lzSentinel := 0x00
  radixMin := 2
  radixMax := 10
  bwtWorkers := Config.bwtWorkersLessOne + 1

end Sys2Proof
end

