-- ==== Sys2Proof/WellFormed.lean ====
section
/-! DEFINITION. Which operations have legal operands (30_encoding.md rules R71, R87).
An ill-formed one still has a command word and completes with InvalidArgument. -/

namespace Sys2Proof

/-- The legal Huffman radices of a build, `RADIX_MIN .. RADIX_MAX` (00_scope.md Table P1, 30_encoding.md
rule R71). -/
def radixInRange (b : Build) (radix : BitVec 4) : Bool :=
  decide (b.radixMin ≤ radix.toNat) && decide (radix.toNat ≤ b.radixMax)

/-- An operation whose operands are legal for a block built with `b`: the two Huffman operations need a
radix in range, the six others ignore `RADIX` (30_encoding.md rules R71, R87). -/
def Instr.wellFormed (b : Build) : Instr → Bool
  | .rleEnc _ => true
  | .rleDec _ => true
  | .lz78Enc _ => true
  | .lz78Dec _ => true
  | .huffEnc r => radixInRange b r
  | .huffDec r => radixInRange b r
  | .bwtEnc _ => true
  | .bwtDec _ => true

end Sys2Proof
end

