-- ==== Sys2Proof/Decode.lean ====
section
/-! DEFINITION. The command word: decoder, then encoder (30_encoding.md rules R70 to R72, R87, R90). -/

namespace Sys2Proof

/-- Why a command word, or a sequence of bytes, is no operation. -/
inductive DecodeError where
  /-- There is no byte to read a command word from. -/
  | noCommandWord
  /-- `RSV` = bit 7 is 1: a reserved word (30_encoding.md rules R72, R87). -/
  | reservedBitSet
deriving DecidableEq, Repr

/-- `RSV` = bit 7 of a command word (30_encoding.md rule R70). -/
def rsvField (w : BitVec 8) : BitVec 1 := w.extractLsb' 7 1

/-- `RADIX` = bits 6:3 of a command word (30_encoding.md rule R70). -/
def radixField (w : BitVec 8) : BitVec 4 := w.extractLsb' 3 4

/-- `OP` = bits 2:0 of a command word (30_encoding.md rule R70). -/
def opField (w : BitVec 8) : BitVec 3 := w.extractLsb' 0 3

/-- The operation an `OP` value selects, Table E1: every one of the eight is defined
(30_encoding.md rule R87). -/
def instrOfOp (op : BitVec 3) (radix : BitVec 4) : Instr :=
  if op = 0#3 then .rleEnc radix
  else if op = 1#3 then .rleDec radix
  else if op = 2#3 then .lz78Enc radix
  else if op = 3#3 then .lz78Dec radix
  else if op = 4#3 then .huffEnc radix
  else if op = 5#3 then .huffDec radix
  else if op = 6#3 then .bwtEnc radix
  else .bwtDec radix

/-- Read a command word (30_encoding.md rules R70, R72). -/
def decodeWord (w : BitVec 8) : Except DecodeError Instr :=
  if rsvField w = 1#1 then .error .reservedBitSet
  else .ok (instrOfOp (opField w) (radixField w))

/-- Read the operation at the front of a sequence of bytes, with the bytes that are left: the command
word has one length, one byte (30_encoding.md rule R88). -/
def decode : List Byte → Except DecodeError (Instr × List Byte)
  | [] => .error .noCommandWord
  | w :: rest =>
    match decodeWord w with
    | .ok i => .ok (i, rest)
    | .error e => .error e

/-- The bytes of an instruction numbered as spec/opcode_table.json numbers it, the first byte from
bits 7..0; an operand byte the table gives no bits to is zero. -/
def tableBytes (nbits w : Nat) : List Byte :=
  (List.range (max 1 ((nbits + 7) / 8))).map fun k => BitVec.ofNat 8 (w % 2 ^ nbits / 2 ^ (8 * k))

/-- The operation the decoder reads from a row of spec/opcode_table.json. -/
def decodeTableWord (nbits w : Nat) : Option Instr :=
  match decode (tableBytes nbits w) with
  | .ok (i, _) => some i
  | .error _ => none

/-- The `OP` value of each operation (30_encoding.md Table E1). -/
def Instr.op : Instr → BitVec 3
  | .rleEnc _ => 0#3
  | .rleDec _ => 1#3
  | .lz78Enc _ => 2#3
  | .lz78Dec _ => 3#3
  | .huffEnc _ => 4#3
  | .huffDec _ => 5#3
  | .bwtEnc _ => 6#3
  | .bwtDec _ => 7#3

/-- The assembled word, `RADIX * 8 + OP` with `RSV = 0` (30_encoding.md rule R89). -/
def encodeWord (i : Instr) : BitVec 8 := 0#1 ++ i.radix ++ i.op

/-- The bytes of an operation: its one command word. -/
def encode (i : Instr) : List Byte := [encodeWord i]

end Sys2Proof
end

