-- ==== Sys2Proof/Machine/State.lean ====
section
/-! DEFINITION. The state of the block as plain data (10_state.md rule R20, Table S1), the host's actions,
the reasons a step can stop, and the state after reset (70_reset_and_hazards.md rule R250). -/

namespace Sys2Proof.Machine

/-- `STATUS.STATE` (10_state.md rule R27). Its value 3 is never taken, so the type has three
constructors (93_implementation_defined.md V12). -/
inductive Phase where
  | idle
  | busy
  | done
deriving DecidableEq, Repr

/-- `STATUS.ERR`, the error kind of the last completed operation (10_state.md rule R22,
60_exceptions.md rule R220). -/
inductive ErrKind where
  | ok
  | invalidArgument
  | formatError
  | capacityError
deriving DecidableEq, Repr

/-- What a family function may `raise` (00_scope.md rule R12): the three kinds that abandon an operation. -/
inductive Raise where
  /-- 60_exceptions.md rule R221. -/
  | invalidArgument
  /-- 60_exceptions.md rule R222. -/
  | formatError
  /-- 60_exceptions.md rule R223. -/
  | capacityError
deriving DecidableEq, Repr

/-- One cell of a buffer: its index and its character (10_state.md rules R24, R26). -/
abbrev Cell := Nat × Character

/-- The contents of one buffer: the cells that hold a stated value, indices strictly rising.
An unlisted cell holds an unspecified value, so it reads as no value here (`Memory.read`), and what
a host or an operation sees of it is a free value (logs 8 and 9). -/
abbrev Memory := List Cell

/-- The host actions (10_state.md rules R30, R31): the whole interface but reset. -/
inductive HostAction where
  | start (w : BitVec 8)
  | wrIn (i : Nat) (c : Character)
  | setInLen (n : Nat)
  | rdStatus
  | rdCmd
  | rdInLen
  | rdIn (i : Nat)
  | rdOutLen
  | rdOut (i : Nat)
  | rdRatioSrc
  | rdRatioEnc
deriving DecidableEq, Repr

/-- One place in the single order of host actions, completions and resets (20_memory.md rule R57). -/
inductive Turn where
  /-- The block's turn: if an operation is in progress it completes. -/
  | block
  | host (a : HostAction)
  | reset
deriving DecidableEq, Repr

/-- The value a host read returned, in the register's own type. -/
inductive Reply where
  | status (v : BitVec 4)
  | cmd (v : BitVec 8)
  | number (n : Nat)
  | cell (c : Character)
deriving DecidableEq, Repr

/-- The state: the architectural registers and buffers of 10_state.md Table S1, the build parameters,
and the model's own fields (`agenda`, `reply`, `draws`, `epoch`). -/
structure State where
  /-- The parameters the block is built with; no step changes them (70_reset_and_hazards.md rule R252). -/
  build : Build
  /-- `CMD`. -/
  cmd : BitVec 8
  /-- `STATUS.STATE`. -/
  phase : Phase
  /-- `STATUS.ERR`. -/
  err : ErrKind
  /-- `IN_LEN`. -/
  inLen : Nat
  /-- The `IN` buffer. -/
  inBuf : Memory
  /-- `OUT_LEN`. -/
  outLen : Nat
  /-- The `OUT` buffer. -/
  outBuf : Memory
  /-- `RATIO_SRC`. -/
  ratioSrc : Nat
  /-- `RATIO_ENC`. -/
  ratioEnc : Nat
  /-- The MODEL's own: the turns still to come (log 6). -/
  agenda : List Turn
  /-- The MODEL's own: what the last host read returned (log 7). -/
  reply : Option Reply
  /-- The MODEL's own: how many free values host reads have drawn (log 10). -/
  draws : Nat
  /-- The MODEL's own: how many resets have been applied (log 10). -/
  epoch : Nat
deriving DecidableEq, Repr

/-- Why the machine stops with a fault. The block itself never does: its errors are completions. -/
inductive Fault where
  /-- Raised by `BWT_ENC` in a build with `BWT_BLOCK = 0`, which 00_scope.md Table P1 excludes and where
  the loop of 44_bwt.md rule R195 never advances. Safe: no block is built so (log 13). -/
  | illegalBuild
deriving DecidableEq, Repr

/-- Why the machine refuses to say what an instruction does. -/
inductive Refusal where
  /-- Raised by an arm of `exec` whose instruction has no meaning yet. No arm does. Safe. -/
  | notModelled (mnemonic : String)
deriving DecidableEq, Repr

/-- The state right after reset of a block built with `b` (70_reset_and_hazards.md rules R250, R252).
No cell of IN or OUT is listed: each holds an unspecified value. -/
def State.resetOf (b : Build) : State where
  build := b
  cmd := 0#8
  phase := .idle
  err := .ok
  inLen := 0
  inBuf := []
  outLen := 0
  outBuf := []
  ratioSrc := 0
  ratioEnc := 0
  agenda := []
  reply := none
  draws := 0
  epoch := 0

/-- The state right after reset, in the reference instance (70_reset_and_hazards.md rule R250). -/
def State.reset : State := State.resetOf Build.reference

end Sys2Proof.Machine
end

