-- ==== Sys2Proof/Machine/Flags.lean ====
section
/-! DEFINITION. `STATUS`, `done` and the error codes (10_state.md rules R22, R27, R29), and the
compression ratio (40_common.md rules R101, R102). -/

namespace Sys2Proof.Machine

/-- The code of `STATUS.STATE` (10_state.md rule R27). -/
def Phase.code : Phase → BitVec 2
  | .idle => 0#2
  | .busy => 1#2
  | .done => 2#2

/-- The code of `STATUS.ERR` (10_state.md rule R22). -/
def ErrKind.code : ErrKind → BitVec 2
  | .ok => 0#2
  | .invalidArgument => 1#2
  | .formatError => 2#2
  | .capacityError => 3#2

/-- The error kind that a `raise` is recorded as (40_common.md rule R108). -/
def Raise.kind : Raise → ErrKind
  | .invalidArgument => .invalidArgument
  | .formatError => .formatError
  | .capacityError => .capacityError

/-- The 4-bit register `STATUS`: `ERR` in bits 3:2, `STATE` in bits 1:0 (10_state.md rule R22). -/
def State.statusWord (s : State) : BitVec 4 := s.err.code ++ s.phase.code

/-- The output signal `done` (10_state.md rule R29). -/
def State.doneSignal (s : State) : Bool := decide (s.phase = .done)

/-- The least `w' >= w` with `2^w' >= k`, if one comes within `fuel` tries. -/
def widthFrom : Nat → Nat → Nat → Nat
  | 0, w, _ => w
  | fuel + 1, w, k => if k ≤ 2 ^ w then w else widthFrom fuel (w + 1) k

/-- `W(k)`, the least `w >= 1` with `2^w >= k` (40_common.md rule R101). -/
def width (k : Nat) : Nat := widthFrom k 1 k

/-- `distinct(s)`, the number of different characters of a text (00_scope.md rule R10). -/
def distinct (t : Text) : Nat := t.dedup.length

/-- The size of a text in a fixed-width encoding of its own characters (40_common.md rule R102). -/
def bits (t : Text) : Nat := t.length * width (distinct t)

end Sys2Proof.Machine
end

