-- ==== Sys2Proof/Machine/Wire.lean ====
section
/-! DEFINITION. What the four wire grammars share: the characters (30_encoding.md rule R73), decimal
literals (rules R75, R76) and reading a text by position (rules R74, R77). -/

namespace Sys2Proof.Machine

/-- `'('` -/
def lparen : Character := 0x28
/-- `')'` -/
def rparen : Character := 0x29
/-- `','` -/
def comma : Character := 0x2C
/-- `'-'` -/
def hyphen : Character := 0x2D
/-- `'['` -/
def lbracket : Character := 0x5B
/-- `']'` -/
def rbracket : Character := 0x5D
/-- The opening brace, 0x7B. -/
def lbrace : Character := 0x7B
/-- The closing brace, 0x7D. -/
def rbrace : Character := 0x7D

/-- `isdigit(c)` (30_encoding.md rule R73). -/
def isDigit (c : Character) : Bool := decide (0x30 ≤ c) && decide (c ≤ 0x39)

/-- `digit(j)`, used for `j <= 9` (30_encoding.md rule R73). -/
def digit (j : Nat) : Character := 0x30 + j

/-- The number a digit character stands for. -/
def digitValue (c : Character) : Nat := c - 0x30

/-- The decimal digits of `n` in front of `acc`, most significant first; `fuel` bounds their number. -/
def decAux : Nat → Nat → Text → Text
  | 0, _, acc => acc
  | fuel + 1, n, acc =>
    if n < 10 then digit n :: acc else decAux fuel (n / 10) (digit (n % 10) :: acc)

/-- `dec(n)`, the shortest decimal literal (30_encoding.md rule R75). -/
def dec (n : Nat) : Text := decAux (n + 1) n []

/-- `val(ds)` (30_encoding.md rule R76), by Horner's scheme. -/
def val (ds : Text) : Nat := ds.foldl (fun acc d => acc * 10 + digitValue d) 0

/-- A reader of one grammar item: what it read and the text left, or the error raised. -/
abbrev Reader (α : Type) := Text → Except Raise (α × Text)

/-- The literal character `c` must come next. -/
def expect (c : Character) : Reader Unit
  | [] => .error .formatError
  | d :: rest => if d = c then .ok ((), rest) else .error .formatError

/-- Where the grammar has `c`: the next character, whatever it is (30_encoding.md rule R74). -/
def anyChar : Reader Character
  | [] => .error .formatError
  | d :: rest => .ok (d, rest)

/-- Where the grammar has `n`: a maximal run of digits, at least one (30_encoding.md rule R76). -/
def literal : Reader Nat := fun t =>
  let ds := t.takeWhile isDigit
  if ds = [] then .error .formatError else .ok (val ds, t.dropWhile isDigit)

/-- One item after another to the end of the text (30_encoding.md rule R77). Every item takes at least
one character, so the length of the text is fuel enough. -/
def readAll {α : Type} (item : Reader α) : Nat → Text → Except Raise (List α)
  | _, [] => .ok []
  | 0, _ :: _ => .error .formatError
  | fuel + 1, c :: t =>
    match item (c :: t) with
    | .error e => .error e
    | .ok (a, rest) =>
      match readAll item fuel rest with
      | .error e => .error e
      | .ok as => .ok (a :: as)

/-- `( item )+` over the whole text: the empty text does not match (30_encoding.md rules R77 to R79, R83). -/
def readSome {α : Type} (item : Reader α) (t : Text) : Except Raise (List α) :=
  if t = [] then .error .formatError else readAll item t.length t

/-- Is `n` within a capacity? `none` is unbounded (00_scope.md Table P1). -/
def withinCap (cap : Option Nat) (n : Nat) : Bool :=
  match cap with
  | none => true
  | some m => decide (n ≤ m)

end Sys2Proof.Machine
end

