-- ==== Sys2Proof/Machine/Ops.lean ====
section
/-! DEFINITION. The shared operations: one buffer's memory (20_memory.md), and the two ways an operation
completes (40_common.md rules R107, R108). -/

namespace Sys2Proof.Machine

/-- The canonical form of a buffer's memory: indices strictly rising. An unlisted index reads as no
value, so no entry can equal what an unlisted index reads as. -/
abbrev Memory.wf (m : Memory) : Prop := m.Pairwise fun a b => a.1 < b.1

/-- Read one cell; an unlisted cell has no stated value. -/
def Memory.read : Memory → Nat → Option Character
  | [], _ => none
  | (j, c) :: m, i => if j = i then some c else Memory.read m i

/-- Write one cell, keeping the canonical form. -/
def Memory.write : Memory → Nat → Character → Memory
  | [], i, c => [(i, c)]
  | (j, d) :: m, i, c =>
    if i < j then (i, c) :: (j, d) :: m
    else if i = j then (i, c) :: m
    else (j, d) :: Memory.write m i c

/-- The cells of a text stored from index `base` on, one character a cell (20_memory.md rule R51). -/
def Memory.ofTextFrom : Nat → Text → Memory
  | _, [] => []
  | base, c :: t => (base, c) :: Memory.ofTextFrom (base + 1) t

/-- A whole text stored from index 0 (20_memory.md rules R50, R51). -/
def Memory.ofText (t : Text) : Memory := Memory.ofTextFrom 0 t

/-- The characters of indices `0 .. n-1`; a cell that is not listed gives its free value. -/
def Memory.text (free : Nat → Character) (m : Memory) (n : Nat) : Text :=
  (List.range n).map fun i => (m.read i).getD (free i)

/-- Successful completion with output `t` (40_common.md rule R107), `src` being the input text. -/
def completeOk (d : Direction) (src t : Text) (s : State) : State :=
  { s with
    outBuf := Memory.ofText t
    outLen := t.length
    ratioSrc := match d with
      | .encode => bits src
      | .decode => 0
    ratioEnc := match d with
      | .encode => bits t
      | .decode => 0
    err := .ok
    phase := .done }

/-- Failed completion, this block's "trap entry" (40_common.md rule R108, 60_exceptions.md rule R227):
nothing is saved anywhere, no cell of OUT is left with a stated value, control goes nowhere.
There is no return from it: the next START clears `ERR` (60_exceptions.md rule R228, `hostStart`). -/
def failWith (k : Raise) (s : State) : State :=
  { s with
    outBuf := []
    outLen := 0
    ratioSrc := 0
    ratioEnc := 0
    err := k.kind
    phase := .done }

/-- Completion of an operation whose family function gave `r` (40_common.md rules R105, R107 to R109):
an output longer than `MAX_OUT` fails with CapacityError. -/
def complete (d : Direction) (src : Text) (r : Except Raise Text) (s : State) : State :=
  match r with
  | .error k => failWith k s
  | .ok t => if withinCap s.build.maxOut t.length then completeOk d src t s else failWith .capacityError s

end Sys2Proof.Machine
end

