-- ==== Sys2Proof/Machine/Operands.lean ====
section
/-! DEFINITION. The operands of an operation (30_encoding.md rules R85, R86). -/

namespace Sys2Proof.Machine

/-- What a cell of `CHAR_W` bits holds of a number: the number itself when it is a character
(10_state.md rules R24, R26; log 22 for a number that is none). -/
def cellOf (b : Build) (n : Nat) : Character := n % 2 ^ b.charW

/-- The unspecified value that cell `i` of IN has held since reset (20_memory.md rule R54; log 8). -/
def unwrittenCell (s : State) (i : Nat) : Character := cellOf s.build (Config.unwrittenIn s.epoch i)

/-- The unspecified character that a read draws (10_state.md rules R26, R34; log 9). -/
def drawnChar (b : Build) (draw : Nat) : Character := cellOf b (Config.freeChar draw)

/-- What cell `i` of IN holds: the value last written to it, else the unspecified value it has held
since reset (20_memory.md rules R53, R54; log 8). -/
def inCell (s : State) (i : Nat) : Character := (s.inBuf.read i).getD (unwrittenCell s i)

/-- The input text `IN[0..IN_LEN)` (10_state.md rule R23, 20_memory.md rule R62). -/
def inputText (s : State) : Text := s.inBuf.text (unwrittenCell s) s.inLen

/-- The result text `OUT[0..OUT_LEN)` (10_state.md rule R25). After a completion every one of its cells
has a stated value; a cell without one would be drawn (log 11). -/
def outputText (s : State) : Text := s.outBuf.text (fun i => drawnChar s.build (s.draws + i)) s.outLen

/-- The radix operand, `zext(CMD[6:3])` (30_encoding.md rules R71, R86). -/
def radixOperand (radix : BitVec 4) : Nat := radix.toNat

/-- Is the radix of a Huffman operation within `RADIX_MIN .. RADIX_MAX` (30_encoding.md rule R71)? -/
def radixLegal (b : Build) (radix : BitVec 4) : Bool :=
  decide (b.radixMin ≤ radixOperand radix) && decide (radixOperand radix ≤ b.radixMax)

end Sys2Proof.Machine
end

