-- ==== Sys2Proof/Machine/Bwt.lean ====
section
/-! DEFINITION. The Burrows-Wheeler units (44_bwt.md). -/

namespace Sys2Proof.Machine

/-- The blocks of a source text (44_bwt.md rule R191). For `B >= 1` every block takes at least one
character, so the length of the text is fuel enough. -/
def blocks (B : Nat) : Nat → Text → List Text
  | 0, _ => []
  | fuel + 1, t => if t = [] then [] else t.take B :: blocks B fuel (t.drop B)

/-- `rot(i)`, rotation `i` of a block (44_bwt.md rule R192). -/
def rot (t : Text) (i : Nat) : Text := t.drop i ++ t.take i

/-- The order of the sorted matrix: rows by content, equal rows by offset (44_bwt.md rule R192). -/
def rowLe (t : Text) (i j : Nat) : Bool :=
  decide (rot t i < rot t j) || (decide (rot t i = rot t j) && decide (i ≤ j))

/-- Put an offset into its place of the sorted rows. -/
def insertRow (t : Text) (i : Nat) : List Nat → List Nat
  | [] => [i]
  | j :: js => if rowLe t i j then i :: j :: js else j :: insertRow t i js

/-- Offsets in the order of the sorted matrix. -/
def sortRows (t : Text) : List Nat → List Nat
  | [] => []
  | i :: is => insertRow t i (sortRows t is)

/-- `order`, the offsets of the rows of the sorted matrix (44_bwt.md rule R193). -/
def rowOrder (t : Text) : List Nat := sortRows t (List.range t.length)

/-- `bwt_block(t)`: the last column and the row of the original, counted from 0 (44_bwt.md rule R193).
The index of `getD` is below the length, so its default is never taken. -/
def bwtBlock (t : Text) : Text × Nat :=
  ((rowOrder t).map fun o => t.getD ((o + t.length - 1) % t.length) 0, (rowOrder t).idxOf 0)

/-- A block on the wire, `(` column `,` index `)` (30_encoding.md rule R83). -/
def blockText (b : Text × Nat) : Text := [lparen] ++ b.1 ++ [comma] ++ dec b.2 ++ [rparen]

/-- `bwt_encode` (44_bwt.md rule R195), for `BWT_BLOCK = B >= 1`. -/
def bwtEncode (B : Nat) (src : Text) : Except Raise Text :=
  if src = [] then .error .invalidArgument
  else .ok ((blocks B src.length src).flatMap fun t => blockText (bwtBlock t))

/-- `less(c)`, the number of smaller characters of a column (44_bwt.md rule R198). -/
def lessCount (col : Text) (c : Character) : Nat := col.countP fun d => decide (d < c)

/-- `next(i) = less(col[i]) + occ_before(i)` (44_bwt.md rule R198); the default is never taken for a row
below the length. -/
def nextRow (col : Text) (i : Nat) : Nat :=
  lessCount col (col.getD i 0) + (col.take i).count (col.getD i 0)

/-- The walk of `ibwt`, `n` rows from row `i` on: the characters in the order they are read
(44_bwt.md rule R199). -/
def walk (col : Text) : Nat → Nat → Text
  | 0, _ => []
  | n + 1, i => col.getD i 0 :: walk col n (nextRow col i)

/-- `ibwt(col, idx)`, defined for every column and every row of it (44_bwt.md rules R199, R200). -/
def ibwt (col : Text) (idx : Nat) : Text := (walk col col.length idx).reverse

/-- A block index must name a row of its column (44_bwt.md rule R203). -/
def rowOfColumn (b : Text × Nat) (rest : Text) : Except Raise ((Text × Nat) × Text) :=
  if b.2 < b.1.length then .ok (b, rest) else .error .formatError

/-- A full-size block after its `(`, where the comma stands at place `B` (44_bwt.md rule R201 (a)). -/
def readFullBlock (B : Nat) : Reader (Text × Nat) := fun u => do
  let (_, v) ← expect comma (u.drop B)
  let (idx, v) ← literal v
  let (_, rest) ← expect rparen v
  rowOfColumn (u.take B, idx) rest

/-- The last, shorter block after its `(`, read from the end of the input (44_bwt.md rule R201 (b)). -/
def readLastBlock (B : Nat) : Reader (Text × Nat) := fun u =>
  let body := u.dropLast.reverse
  let digits := (body.takeWhile isDigit).reverse
  let col := (body.dropWhile isDigit).tail.reverse
  if u.length < 4 ∨ u.getLast? ≠ some rparen then .error .formatError
  else if digits = [] then .error .formatError
  else if (body.dropWhile isDigit).head? ≠ some comma then .error .formatError
  else if col.length < 1 ∨ B < col.length then .error .formatError
  else rowOfColumn (col, val digits) []

/-- One block of the BWT wire grammar for `BWT_BLOCK = B` (44_bwt.md rules R201, R203). -/
def readBlock (B : Nat) : Reader (Text × Nat) := fun t => do
  let (_, u) ← expect lparen t
  if B < u.length ∧ u[B]? = some comma then readFullBlock B u else readLastBlock B u

/-- `bwt_decode` (44_bwt.md rule R203); an index literal above `NUM_MAX` fails only when no FormatError
applies (40_common.md rule R109). -/
def bwtDecode (numMax : Option Nat) (B : Nat) (enc : Text) : Except Raise Text := do
  let bs ← readSome (readBlock B) enc
  if bs.all fun b => withinCap numMax b.2 then .ok (bs.flatMap fun b => ibwt b.1 b.2)
  else .error .capacityError

/-- BWT_ENC (44_bwt.md rule R195); `RADIX` is not read. With `BWT_BLOCK = 0`, which no build has, the
loop of rule R195 never ends on a non-empty text (log 13). -/
def execBwtEnc (_radix : BitVec 4) (s : State) : Host.Outcome State Fault Refusal :=
  if inputText s ≠ [] ∧ s.build.bwtBlock = 0 then .fault .illegalBuild
  else .next (complete .encode (inputText s) (bwtEncode s.build.bwtBlock (inputText s)) s)

/-- BWT_DEC (44_bwt.md rule R203); `RADIX` is not read. -/
def execBwtDec (_radix : BitVec 4) (s : State) : Host.Outcome State Fault Refusal :=
  .next (complete .decode (inputText s)
    (bwtDecode s.build.numMax s.build.bwtBlock (inputText s)) s)

end Sys2Proof.Machine
end

