-- ==== Sys2Proof/Machine/FreqTable.lean ====
section
/-! DEFINITION. The FrequencyTable and its dictionary text (40_common.md rules R110 to R112,
30_encoding.md rule R81). -/

namespace Sys2Proof.Machine

/-- A mapping from symbols to positive counts, as the list of its entries in ascending symbol order with
no symbol twice, so that equal mappings are equal lists (40_common.md rule R110; log 16). -/
abbrev FreqTable := List (Character × Nat)

/-- The canonical form of a FrequencyTable: symbols ascending, every count positive. -/
abbrev FreqTable.wf (f : FreqTable) : Prop :=
  (f.Pairwise fun a b => a.1 < b.1) ∧ ∀ e ∈ f, 1 ≤ e.2

/-- The count of a symbol, 0 when the table has no entry for it. -/
def FreqTable.count : FreqTable → Character → Nat
  | [], _ => 0
  | (d, n) :: f, c => if d = c then n else FreqTable.count f c

/-- Does the table have an entry for the symbol? -/
def FreqTable.has (f : FreqTable) (c : Character) : Bool := f.any fun e => e.1 == c

/-- The table with the symbol's count set to `n`. -/
def FreqTable.set : FreqTable → Character → Nat → FreqTable
  | [], c, n => [(c, n)]
  | (d, m) :: f, c, n =>
    if c < d then (c, n) :: (d, m) :: f
    else if c = d then (c, n) :: f
    else (d, m) :: FreqTable.set f c n

/-- The sum of the counts. -/
def FreqTable.total (f : FreqTable) : Nat := (f.map Prod.snd).sum

/-- `freq(s)` (40_common.md rule R110). -/
def freq : Text → FreqTable
  | [] => []
  | c :: t => (freq t).set c ((freq t).count c + 1)

/-- The entry `[c-n]` on the wire (30_encoding.md rule R81). -/
def entryText (e : Character × Nat) : Text := [lbracket, e.1, hyphen] ++ dec e.2 ++ [rbracket]

/-- `ser(f)` (40_common.md rule R111). -/
def ser (f : FreqTable) : Text := [lbrace] ++ f.flatMap entryText ++ [rbrace]

/-- One entry of the dictionary grammar (30_encoding.md rule R81). -/
def readEntry : Reader (Character × Nat) := fun t => do
  let (_, t) ← expect lbracket t
  let (c, t) ← anyChar t
  let (_, t) ← expect hyphen t
  let (n, t) ← literal t
  let (_, t) ← expect rbracket t
  .ok ((c, n), t)

/-- The loop of `parse_dict` (40_common.md rule R112), `f` being the entries read so far. Every entry takes
at least one character, so the length of the text is fuel enough. -/
def parseEntries : Nat → FreqTable → Text → Except Raise FreqTable
  | 0, _, _ => .error .formatError
  | fuel + 1, f, t =>
    match readEntry t with
    | .error e => .error e
    | .ok ((c, n), rest) =>
      if n = 0 then .error .formatError
      else if f.has c then .error .formatError
      else
        match rest with
        | [] => .error .formatError
        | q :: after =>
          if q = rbrace then
            if after = [] then .ok (f.set c n) else .error .formatError
          else parseEntries fuel (f.set c n) (q :: after)

/-- `parse_dict(d)` (40_common.md rule R112). -/
def parseDict (d : Text) : Except Raise FreqTable := do
  let (_, t) ← expect lbrace d
  parseEntries t.length [] t

end Sys2Proof.Machine
end

