-- ==== Sys2Proof/Machine/Huffman.lean ====
section
/-! DEFINITION. The n-ary Huffman units (43_huffman.md). -/

namespace Sys2Proof.Machine

/-- A node of the prefix tree (43_huffman.md rule R162). -/
inductive Node where
  | leaf (c : Character) (w : Nat)
  | internal (children : List Node) (w : Nat) (seq : Nat)
deriving Repr

/-- The weight of a node. -/
def Node.weight : Node → Nat
  | .leaf _ w => w
  | .internal _ w _ => w

/-- `key`, the triple the node order compares (43_huffman.md rule R164). -/
def Node.key : Node → Nat × Nat × Nat
  | .leaf c w => (w, 0, c)
  | .internal _ w seq => (w, 1, seq)

/-- Triples compared lexicographically (43_huffman.md rule R164). -/
def keyLe (a b : Nat × Nat × Nat) : Bool :=
  decide (a.1 < b.1) || (a.1 == b.1 &&
    (decide (a.2.1 < b.2.1) || (a.2.1 == b.2.1 && decide (a.2.2 ≤ b.2.2))))

/-- Put a node into its place of a list in ascending node order. -/
def insertNode (n : Node) : List Node → List Node
  | [] => [n]
  | m :: ms => if keyLe n.key m.key then n :: m :: ms else m :: insertNode n ms

/-- Nodes in ascending node order. -/
def sortNodes : List Node → List Node
  | [] => []
  | n :: ns => insertNode n (sortNodes ns)

/-- `k0`, the number of nodes the first merge takes (43_huffman.md rule R163). -/
def firstMerge (m r : Nat) : Nat := 2 + (m - 2) % (r - 1)

/-- The sum of the weights of some nodes (43_huffman.md rule R162). -/
def totalWeight (ns : List Node) : Nat := (ns.map Node.weight).sum

/-- The loop of `build_code` (43_huffman.md rule R165) over nodes in ascending order: the `k` smallest
become one internal node; `k` is `r` from the second merge on. Each merge of two or more nodes leaves
fewer, so the number of nodes is fuel enough. -/
def mergeAll (r : Nat) : Nat → Nat → Nat → List Node → List Node
  | 0, _, _, ns => ns
  | fuel + 1, k, seq, ns =>
    if ns.length ≤ 1 then ns
    else mergeAll r fuel r (seq + 1)
      (insertNode (.internal (ns.take k) (totalWeight (ns.take k)) seq) (ns.drop k))

/-- A mapping from symbols to code words. -/
abbrev Code := List (Character × Text)

mutual
/-- `assign` (43_huffman.md rules R165, R167): the digits on the path from the root, the root's first. -/
def assign : Node → Text → Code
  | .leaf c _, pre => [(c, pre)]
  | .internal children _ _, pre => assignFrom children 0 pre
/-- `assign` of the children from position `j` on. -/
def assignFrom : List Node → Nat → Text → Code
  | [], _, _ => []
  | n :: ns, j, pre => assign n (pre ++ [digit j]) ++ assignFrom ns (j + 1) pre
end

/-- `build_code(f, r)` (43_huffman.md rules R165, R166). -/
def buildCode (f : FreqTable) (r : Nat) : Code :=
  match f with
  | [] => []
  | [(c, _)] => [(c, [digit 0])]
  | e₁ :: e₂ :: rest =>
    let f := e₁ :: e₂ :: rest
    (mergeAll r f.length (firstMerge f.length r) 0
      (sortNodes (f.map fun e => .leaf e.1 e.2))).flatMap fun root => assign root []

/-- `code(c)`, the code word of a symbol; every symbol of the source has one (43_huffman.md rule R168). -/
def codeWord : Code → Character → Text
  | [], _ => []
  | (d, w) :: code, c => if d = c then w else codeWord code c

/-- The symbol whose code word a text is, if there is one (43_huffman.md rule R174). -/
def symbolOf : Code → Text → Option Character
  | [], _ => none
  | (d, w) :: code, buf => if w = buf then some d else symbolOf code buf

/-- `huff_encode` (43_huffman.md rule R170). -/
def huffEncode (r : Nat) (src : Text) : Except Raise Text :=
  if src = [] then .error .invalidArgument
  else .ok (src.flatMap (codeWord (buildCode (freq src) r)) ++ ser (freq src))

/-- The code stream of `huff_decode`, left to right from `buf` (43_huffman.md rules R174, R175). -/
def matchStream (code : Code) : Text → Text → Except Raise Text
  | buf, [] => if buf = [] then .ok [] else .error .formatError
  | buf, d :: ds =>
    match symbolOf code (buf ++ [d]) with
    | none => matchStream code (buf ++ [d]) ds
    | some c =>
      match matchStream code [] ds with
      | .error e => .error e
      | .ok out => .ok (c :: out)

/-- Do the counts of a table and their sum stay within `NUM_MAX` (40_common.md rule R109 (b), (c))? -/
def countsWithin (numMax : Option Nat) (f : FreqTable) : Bool :=
  (f.all fun e => withinCap numMax e.2) && withinCap numMax f.total

/-- `huff_decode` (43_huffman.md rule R174): the dictionary starts at the first opening brace
(30_encoding.md rule R82). -/
def huffDecode (numMax : Option Nat) (r : Nat) (enc : Text) : Except Raise Text := do
  let f ← parseDict (enc.dropWhile (· != lbrace))
  let out ← matchStream (buildCode f r) [] (enc.takeWhile (· != lbrace))
  if countsWithin numMax f then .ok out else .error .capacityError

/-- HUFF_ENC (43_huffman.md rule R170); a radix outside the legal range fails before the input is looked at
(rule R161). -/
def execHuffEnc (radix : BitVec 4) (s : State) : Host.Outcome State Fault Refusal :=
  .next (if radixLegal s.build radix then
      complete .encode (inputText s) (huffEncode (radixOperand radix) (inputText s)) s
    else failWith .invalidArgument s)

/-- HUFF_DEC (43_huffman.md rule R174); a radix outside the legal range fails before the input is looked at
(rule R161). -/
def execHuffDec (radix : BitVec 4) (s : State) : Host.Outcome State Fault Refusal :=
  .next (if radixLegal s.build radix then
      complete .decode (inputText s)
        (huffDecode s.build.numMax (radixOperand radix) (inputText s)) s
    else failWith .invalidArgument s)

end Sys2Proof.Machine
end

