-- ==== Sys2Proof/Machine/Lz78.lean ====
section
/-! DEFINITION. The LZ78 units (42_lz78.md). -/

namespace Sys2Proof.Machine

/-- The encoder's working structures (42_lz78.md rule R141): the phrase list, the buffer, and the pairs
emitted so far. -/
structure LzEncoder where
  dict : List Text
  buf : Text
  pairs : List (Nat × Character)
deriving DecidableEq, Repr

/-- The working structures at the start: the dictionary holds the empty phrase alone. -/
def lzEncoderStart : LzEncoder := { dict := [[]], buf := [], pairs := [] }

/-- One source character (42_lz78.md rule R142, the loop body). -/
def lzEncoderStep (e : LzEncoder) (ch : Character) : LzEncoder :=
  if e.buf ++ [ch] ∈ e.dict then { e with buf := e.buf ++ [ch] }
  else
    { dict := e.dict ++ [e.buf ++ [ch]]
      buf := []
      pairs := e.pairs ++ [(e.dict.idxOf e.buf, ch)] }

/-- The end of input (42_lz78.md rule R143): a final pair with the terminator for a residual buffer, or
when nothing was written at all. -/
def lzEncoderFinish (sentinel : Character) (e : LzEncoder) : List (Nat × Character) :=
  if e.buf ≠ [] ∨ e.pairs = [] then e.pairs ++ [(e.dict.idxOf e.buf, sentinel)] else e.pairs

/-- The pairs an LZ78 encode writes (42_lz78.md rule R142). -/
def lzPairs (sentinel : Character) (src : Text) : List (Nat × Character) :=
  lzEncoderFinish sentinel (src.foldl lzEncoderStep lzEncoderStart)

/-- The pair `(n,c)` on the wire (30_encoding.md rule R79). -/
def lzPairText (p : Nat × Character) : Text := [lparen] ++ dec p.1 ++ [comma, p.2, rparen]

/-- `lz78_encode` (42_lz78.md rule R142). -/
def lz78Encode (sentinel : Character) (src : Text) : Except Raise Text :=
  if sentinel ∈ src then .error .invalidArgument
  else .ok ((lzPairs sentinel src).flatMap lzPairText)

/-- One pair of the LZ78 wire grammar (30_encoding.md rule R79). -/
def readLzPair : Reader (Nat × Character) := fun t => do
  let (_, t) ← expect lparen t
  let (n, t) ← literal t
  let (_, t) ← expect comma t
  let (c, t) ← anyChar t
  let (_, t) ← expect rparen t
  .ok ((n, c), t)

/-- Pass 2 of `lz78_decode` (42_lz78.md rule R146). Before pair `k` the dictionary has `k` entries, so
`n > k-1` is `dict.length <= n`. -/
def lzRebuild (sentinel : Character) : List Text → List (Nat × Character) → Except Raise Text
  | _, [] => .ok []
  | dict, (n, c) :: rest =>
    match dict[n]? with
    | none => .error .formatError
    | some phrase =>
      if c = sentinel then
        if rest = [] then .ok phrase else .error .formatError
      else
        match lzRebuild sentinel (dict ++ [phrase ++ [c]]) rest with
        | .error e => .error e
        | .ok out => .ok (phrase ++ [c] ++ out)

/-- `lz78_decode` (42_lz78.md rule R146); an index literal above `NUM_MAX` fails only when no
FormatError applies (40_common.md rule R109). -/
def lz78Decode (numMax : Option Nat) (sentinel : Character) (enc : Text) : Except Raise Text := do
  let pairs ← readSome readLzPair enc
  let out ← lzRebuild sentinel [[]] pairs
  if pairs.all fun p => withinCap numMax p.1 then .ok out else .error .capacityError

/-- LZ78_ENC (42_lz78.md rule R142); `RADIX` is not read. -/
def execLz78Enc (_radix : BitVec 4) (s : State) : Host.Outcome State Fault Refusal :=
  .next (complete .encode (inputText s) (lz78Encode s.build.lzSentinel (inputText s)) s)

/-- LZ78_DEC (42_lz78.md rule R146); `RADIX` is not read. -/
def execLz78Dec (_radix : BitVec 4) (s : State) : Host.Outcome State Fault Refusal :=
  .next (complete .decode (inputText s)
    (lz78Decode s.build.numMax s.build.lzSentinel (inputText s)) s)

end Sys2Proof.Machine
end

