-- ==== Sys2Proof/Machine/Rle.lean ====
section
/-! DEFINITION. The run-length units (41_rle.md). -/

namespace Sys2Proof.Machine

/-- The maximal runs of identical consecutive symbols, in order (41_rle.md rule R121). -/
def runs : Text → List (Character × Nat)
  | [] => []
  | c :: t =>
    match runs t with
    | [] => [(c, 1)]
    | (d, n) :: rest => if d = c then (c, n + 1) :: rest else (c, 1) :: (d, n) :: rest

/-- The pair `(c,n)` on the wire (30_encoding.md rule R78). -/
def rlePairText (p : Character × Nat) : Text := [lparen, p.1, comma] ++ dec p.2 ++ [rparen]

/-- `rle_encode` (41_rle.md rule R121). -/
def rleEncode (src : Text) : Except Raise Text :=
  if src = [] then .error .invalidArgument else .ok ((runs src).flatMap rlePairText)

/-- One pair of the RLE wire grammar (30_encoding.md rule R78). -/
def readRlePair : Reader (Character × Nat) := fun t => do
  let (_, t) ← expect lparen t
  let (c, t) ← anyChar t
  let (_, t) ← expect comma t
  let (n, t) ← literal t
  let (_, t) ← expect rparen t
  .ok ((c, n), t)

/-- `rle_decode` (41_rle.md rule R124): the whole input is parsed before any count is held against
`NUM_MAX` (40_common.md rule R109). -/
def rleDecode (numMax : Option Nat) (enc : Text) : Except Raise Text := do
  let pairs ← readSome readRlePair enc
  if pairs.all fun p => withinCap numMax p.2 then
    .ok (pairs.flatMap fun p => List.replicate p.2 p.1)
  else .error .capacityError

/-- RLE_ENC (41_rle.md rule R121); `RADIX` is not read. -/
def execRleEnc (_radix : BitVec 4) (s : State) : Host.Outcome State Fault Refusal :=
  .next (complete .encode (inputText s) (rleEncode (inputText s)) s)

/-- RLE_DEC (41_rle.md rule R124); `RADIX` is not read. -/
def execRleDec (_radix : BitVec 4) (s : State) : Host.Outcome State Fault Refusal :=
  .next (complete .decode (inputText s) (rleDecode s.build.numMax (inputText s)) s)

end Sys2Proof.Machine
end

