-- ==== Sys2Proof/Machine/Dispatch.lean ====
section
/-! DEFINITION. From an operation to its meaning (40_common.md rule R105). -/

namespace Sys2Proof.Machine

/-- The dispatch on `OP` (40_common.md rules R105, R106). -/
def exec (i : Instr) (s : State) : Host.Outcome State Fault Refusal :=
  match i with
  | .rleEnc radix => Sys2Proof.Machine.execRleEnc radix s
  | .rleDec radix => Sys2Proof.Machine.execRleDec radix s
  | .lz78Enc radix => Sys2Proof.Machine.execLz78Enc radix s
  | .lz78Dec radix => Sys2Proof.Machine.execLz78Dec radix s
  | .huffEnc radix => Sys2Proof.Machine.execHuffEnc radix s
  | .huffDec radix => Sys2Proof.Machine.execHuffDec radix s
  | .bwtEnc radix => Sys2Proof.Machine.execBwtEnc radix s
  | .bwtDec radix => Sys2Proof.Machine.execBwtDec radix s

end Sys2Proof.Machine
end

