-- ==== Sys2Proof/Machine/HostPort.lean ====
section
/-! DEFINITION. What the host can do to the block: the host actions (10_state.md rules R30, R31, R33, R34,
20_memory.md rule R54) and reset (70_reset_and_hazards.md rules R250, R251). -/

namespace Sys2Proof.Machine

/-- Is index `i` a cell of a buffer of this capacity (20_memory.md rule R52)? -/
def inRange (cap : Option Nat) (i : Nat) : Bool :=
  match cap with
  | none => true
  | some m => decide (i < m)

/-- What a START that takes effect writes, in one indivisible step (10_state.md rule R30). -/
def beginCommand (w : BitVec 8) (s : State) : State := { s with cmd := w, phase := .busy, err := .ok }

/-- One cell of IN written. -/
def storeIn (i : Nat) (c : Character) (s : State) : State := { s with inBuf := s.inBuf.write i c }

/-- IN_LEN written. -/
def storeInLen (n : Nat) (s : State) : State := { s with inLen := n }

/-- START(w) (10_state.md rule R30): no effect at all while BUSY. -/
def hostStart (w : BitVec 8) (s : State) : State :=
  if s.phase = .busy then s else beginCommand w s

/-- WR_IN(i, c) (10_state.md rules R31, R33; 20_memory.md rule R54): ignored while BUSY and beyond the buffer.
The cell takes the character; of a number that is no character it takes the low `CHAR_W` bits (log 22). -/
def hostWrIn (i : Nat) (c : Character) (s : State) : State :=
  if s.phase = .busy then s
  else if inRange s.build.maxIn i then storeIn i (cellOf s.build c) s else s

/-- SET_IN_LEN(n) (10_state.md rules R23, R33): ignored while BUSY and above MAX_IN. -/
def hostSetInLen (n : Nat) (s : State) : State :=
  if s.phase = .busy then s
  else if withinCap s.build.maxIn n then storeInLen n s else s

/-- A read that returns a stated value: only the host's side changes (10_state.md rule R31). -/
def answer (r : Reply) (s : State) : State := { s with reply := some r }

/-- A read that returns an unspecified value, possibly different at each read (10_state.md rule R34):
the value is drawn and the draw is counted. -/
def answerDrawn (r : Nat → Reply) (s : State) : State :=
  { s with reply := some (r s.draws), draws := s.draws + 1 }

/-- An unspecified value of the type of OUT_LEN, `0 .. MAX_OUT` (10_state.md Table S1, rule R34). -/
def drawnOutLen (cap : Option Nat) (draw : Nat) : Nat :=
  match cap with
  | none => Config.freeNat draw
  | some m => Config.freeNat draw % (m + 1)

/-- RD_IN(i) (20_memory.md rule R54): the cell, or an unspecified value beyond the buffer. -/
def hostRdIn (i : Nat) (s : State) : State :=
  if inRange s.build.maxIn i then answer (.cell (inCell s i)) s
  else answerDrawn (fun d => .cell (drawnChar s.build d)) s

/-- RD_OUT_LEN (10_state.md rule R34). -/
def hostRdOutLen (s : State) : State :=
  if s.phase = .busy then answerDrawn (fun d => .number (drawnOutLen s.build.maxOut d)) s
  else answer (.number s.outLen) s

/-- RD_OUT(i) (10_state.md rules R26, R34; 20_memory.md rule R54): unspecified while BUSY and for a cell
of no stated value. -/
def hostRdOut (i : Nat) (s : State) : State :=
  if s.phase = .busy then answerDrawn (fun d => .cell (drawnChar s.build d)) s
  else
    match s.outBuf.read i with
    | some c => answer (.cell c) s
    | none => answerDrawn (fun d => .cell (drawnChar s.build d)) s

/-- RD_RATIO_SRC (10_state.md rule R34). -/
def hostRdRatioSrc (s : State) : State :=
  if s.phase = .busy then answerDrawn (fun d => .number (Config.freeNat d)) s
  else answer (.number s.ratioSrc) s

/-- RD_RATIO_ENC (10_state.md rule R34). -/
def hostRdRatioEnc (s : State) : State :=
  if s.phase = .busy then answerDrawn (fun d => .number (Config.freeNat d)) s
  else answer (.number s.ratioEnc) s

/-- Every host action (10_state.md rules R30, R31). -/
def hostAct (a : HostAction) (s : State) : State :=
  match a with
  | .start w => hostStart w s
  | .wrIn i c => hostWrIn i c s
  | .setInLen n => hostSetInLen n s
  | .rdStatus => answer (.status s.statusWord) s
  | .rdCmd => answer (.cmd s.cmd) s
  | .rdInLen => answer (.number s.inLen) s
  | .rdIn i => hostRdIn i s
  | .rdOutLen => hostRdOutLen s
  | .rdOut i => hostRdOut i s
  | .rdRatioSrc => hostRdRatioSrc s
  | .rdRatioEnc => hostRdRatioEnc s

/-- Reset, in any state (70_reset_and_hazards.md rules R250, R251): the state after reset of the same
build. The model's own fields are not the block's: what is still to come and what the host has read
stay, and the cells of IN take new unspecified values. -/
def applyReset (s : State) : State :=
  { State.resetOf s.build with
    agenda := s.agenda, reply := s.reply, draws := s.draws, epoch := s.epoch + 1 }

/-- The writes of `LOAD`, characters from index `base` on (30_encoding.md rule R89). -/
def writeTurns : Nat → Text → List Turn
  | _, [] => []
  | base, c :: t => .host (.wrIn base c) :: writeTurns (base + 1) t

/-- `LOAD "<text>"` of a host program (30_encoding.md rule R89). -/
def loadTurns (t : Text) : List Turn := writeTurns 0 t ++ [.host (.setInLen t.length)]

end Sys2Proof.Machine
end

