-- ==== Sys2Proof/Machine/Turns.lean ====
section
/-! DEFINITION. One turn of the block, the host or reset (10_state.md rule R32, 20_memory.md rule R57). -/

namespace Sys2Proof.Machine

/-- The operation in progress runs to completion (40_common.md rule R105): a reserved command word fails
with InvalidArgument before anything else (30_encoding.md rule R72). -/
def runCommand (s : State) : Host.Outcome State Fault Refusal :=
  match decodeWord s.cmd with
  | .ok i => exec i s
  | .error _ => .next (failWith .invalidArgument s)

/-- The block's turn: BUSY goes to DONE by completion; in IDLE and DONE it does nothing
(10_state.md rule R32, 60_exceptions.md rule R245). -/
def blockTurn (s : State) : Host.Outcome State Fault Refusal :=
  match s.phase with
  | .busy => runCommand s
  | .idle => .next s
  | .done => .next s

/-- Take one turn. -/
def takeTurn (t : Turn) (s : State) : Host.Outcome State Fault Refusal :=
  match t with
  | .block => blockTurn s
  | .host a => .next (hostAct a s)
  | .reset => .next (applyReset s)

/-- The next turn: the first of the agenda, and the block's when the agenda names none (log 6). -/
def nextTurn (s : State) : Turn := s.agenda.headD .block

/-- The state with its next turn taken off the agenda. -/
def popTurn (s : State) : State := { s with agenda := s.agenda.tail }

/-- Place a command word for the block's very next turn: what START(w) writes (10_state.md rule R30),
with that turn the block's own (log 14). -/
def placeCommand (w : BitVec 8) (s : State) : State :=
  { s with cmd := w, phase := .busy, err := .ok, agenda := .block :: s.agenda }

end Sys2Proof.Machine
end

