-- ==== Sys2Proof/Machine/Step.lean ====
section
/-! DEFINITION. One step, and placing an instruction for it. -/

namespace Sys2Proof.Machine

/-- One step: the next turn is taken (20_memory.md rule R57; 70_reset_and_hazards.md rule R266). -/
def step (s : State) : Host.Outcome State Fault Refusal := takeTurn (nextTurn s) (popTurn s)

/-- The state with an instruction, numbered as spec/opcode_table.json numbers it, placed so that the very
next step runs it (log 14). -/
def State.withFetchWord (s : State) (nbits w : Nat) : State :=
  placeCommand ((tableBytes nbits w).headD 0#8) s

end Sys2Proof.Machine
end

