-- ==== Sys2Proof/Safety.lean ====
section
/-! DEFINITION. What a sound state is, what a host action leaves alone, and the wire grammars and code
properties of the spec said without the model's parsers: the terms the statements use. -/

namespace Sys2Proof

open Sys2Proof.Machine

/-- What the spec's rules make true of every state a built block can be in. -/
structure Machine.State.Inv (s : State) : Prop where
  /-- The constraints of 00_scope.md Table P1. -/
  build_ok : s.build.ok = true
  /-- IN is in canonical form, and lists only cells the buffer has (10_state.md rule R24). -/
  in_wf : s.inBuf.wf
  in_range : ∀ c ∈ s.inBuf, inRange s.build.maxIn c.1 = true
  /-- Every cell of IN and of OUT holds a character of the block's width (10_state.md rules R24, R26). -/
  in_chars : ∀ c ∈ s.inBuf, s.build.isChar c.2 = true
  out_chars : ∀ c ∈ s.outBuf, s.build.isChar c.2 = true
  /-- Legal values of IN_LEN and OUT_LEN (10_state.md rules R23, R25). -/
  inLen_legal : withinCap s.build.maxIn s.inLen = true
  outLen_legal : withinCap s.build.maxOut s.outLen = true
  /-- The stated cells of OUT are exactly `OUT[0..OUT_LEN)` (10_state.md rule R26). -/
  out_exact : s.outBuf.map Prod.fst = List.range s.outLen
  /-- `ERR` is OK while BUSY (10_state.md rules R30, R34). -/
  busy_ok : s.phase = .busy → s.err = .ok
  /-- IDLE only between reset and the first START (10_state.md rules R27, R40). -/
  idle_reset : s.phase = .idle →
    s.cmd = 0#8 ∧ s.err = .ok ∧ s.outLen = 0 ∧ s.ratioSrc = 0 ∧ s.ratioEnc = 0
  /-- A failed operation leaves an empty result (40_common.md rule R108). -/
  failed_empty : s.err ≠ .ok → s.outLen = 0 ∧ s.ratioSrc = 0 ∧ s.ratioEnc = 0
  /-- The ratio registers never exceed their widths (10_state.md rule R28). -/
  ratioSrc_le : ∀ m, s.build.maxIn = some m → s.ratioSrc ≤ m * s.build.charW
  ratioEnc_le : ∀ m, s.build.maxOut = some m → s.ratioEnc ≤ m * s.build.charW
  /-- After a decode both ratio registers hold 0 (10_state.md rule R28). -/
  decode_ratio : s.phase = .done → s.cmd.getLsbD 0 = true → s.ratioSrc = 0 ∧ s.ratioEnc = 0
  /-- After a successful encode the result is not empty (40_common.md rule R103). -/
  encode_size : s.phase = .done → s.err = .ok → s.cmd.getLsbD 0 = false →
    5 ≤ s.outLen ∧ 5 ≤ s.ratioEnc

/-- What reset leaves (10_state.md rule R40, 70_reset_and_hazards.md rule R252): every register at its reset
value, no cell of IN or OUT with a stated value. -/
structure IsResetState (t : State) : Prop where
  phase : t.phase = .idle
  err : t.err = .ok
  status : t.statusWord = 0#4
  cmd : t.cmd = 0#8
  inLen : t.inLen = 0
  outLen : t.outLen = 0
  ratioSrc : t.ratioSrc = 0
  ratioEnc : t.ratioEnc = 0
  done : t.doneSignal = false
  inBuf : ∀ i, t.inBuf.read i = none
  outBuf : ∀ i, t.outBuf.read i = none

/-- Two states hold the same registers, buffers, build and unwritten cells; only the host's side of the
interface (`agenda`, `reply`, `draws`) may differ. -/
structure SameBlock (s t : State) : Prop where
  build : t.build = s.build
  cmd : t.cmd = s.cmd
  phase : t.phase = s.phase
  err : t.err = s.err
  inLen : t.inLen = s.inLen
  inBuf : t.inBuf = s.inBuf
  outLen : t.outLen = s.outLen
  outBuf : t.outBuf = s.outBuf
  ratioSrc : t.ratioSrc = s.ratioSrc
  ratioEnc : t.ratioEnc = s.ratioEnc
  epoch : t.epoch = s.epoch

/-- `n` on the wire: one or more digit characters, leading zeros allowed (30_encoding.md rule R76). -/
def IsLiteral (ds : Text) : Prop := ds ≠ [] ∧ ∀ c ∈ ds, isDigit c = true

/-- The maximal runs of a text: counts at least 1, neighbouring symbols different, and together the text
(41_rle.md rule R122). -/
def IsRunList (ps : List (Character × Nat)) (src : Text) : Prop :=
  (∀ p ∈ ps, 1 ≤ p.2) ∧ ps.IsChain (fun a b => a.1 ≠ b.1) ∧
    (ps.flatMap fun p => List.replicate p.2 p.1) = src

/-- `enc` is the pairs `(c,n)` of `ps`, each count as written (30_encoding.md rule R78). -/
def RleGrammar (ps : List (Character × Text)) (enc : Text) : Prop :=
  ps ≠ [] ∧ (∀ p ∈ ps, IsLiteral p.2) ∧
    enc = ps.flatMap fun p => [lparen, p.1, comma] ++ p.2 ++ [rparen]

/-- `enc` is the pairs `(n,c)` of `ps`, each index as written (30_encoding.md rule R79). -/
def LzGrammar (ps : List (Text × Character)) (enc : Text) : Prop :=
  ps ≠ [] ∧ (∀ p ∈ ps, IsLiteral p.1) ∧
    enc = ps.flatMap fun p => [lparen] ++ p.1 ++ [comma, p.2, rparen]

/-- Every index names an earlier phrase and the terminator stands in the last pair only
(42_lz78.md rules R144, R146). -/
def LzLegal (sentinel : Character) (ns : List (Nat × Character)) : Prop :=
  ∀ k n c, ns[k]? = some (n, c) → n ≤ k ∧ (c = sentinel → k + 1 = ns.length)

/-- The dictionary after some ordinary pairs (42_lz78.md rule R140: entry `i` is
`dictionary[position] + symbol` of the `i`-th pair). -/
def lzDict (ns : List (Nat × Character)) : List Text :=
  ns.foldl (fun dict p => dict ++ [dict.getD p.1 [] ++ [p.2]]) [[]]

/-- What the pairs stand for: each pair's phrase and its symbol, a terminator adding no symbol
(42_lz78.md rules R144, R147). -/
def lzMeaning (sentinel : Character) (ns : List (Nat × Character)) : Text :=
  (List.range ns.length).flatMap fun k =>
    match ns[k]? with
    | none => []
    | some (n, c) => (lzDict (ns.take k)).getD n [] ++ if c = sentinel then [] else [c]

/-- The dictionary text with the entries of `es` in the order given, each count as written
(30_encoding.md rule R81). -/
def dictText (es : List (Character × Text)) : Text :=
  [lbrace] ++ (es.flatMap fun e => [lbracket, e.1, hyphen] ++ e.2 ++ [rbracket]) ++ [rbrace]

/-- `es` writes the table `f`: at least one entry, every count a literal, the values those of `f` in
some order (40_common.md rules R110, R112). -/
def DictOf (f : FreqTable) (es : List (Character × Text)) : Prop :=
  es ≠ [] ∧ f.wf ∧ (∀ e ∈ es, IsLiteral e.2) ∧ (es.map fun e => (e.1, val e.2)).Perm f

/-- `enc` is the code words of the symbols `xs` in the code of `f` with radix `r`, then a dictionary that
writes `f` (30_encoding.md rules R80, R82). -/
def HuffGrammar (r : Nat) (f : FreqTable) (es : List (Character × Text)) (xs enc : Text) : Prop :=
  DictOf f es ∧ (∀ x ∈ xs, f.has x = true) ∧
    enc = xs.flatMap (codeWord (buildCode f r)) ++ dictText es

/-- A code for the symbols of a table (43_huffman.md rule R168): each symbol has exactly one code word,
non-empty and of digits below `r`, and no code word is a prefix of another symbol's. -/
structure IsPrefixCode (code : Code) (f : FreqTable) (r : Nat) : Prop where
  symbols : (code.map Prod.fst).Perm (f.map Prod.fst)
  nonempty : ∀ e ∈ code, e.2 ≠ []
  digits : ∀ e ∈ code, ∀ d ∈ e.2, ∃ j, j < r ∧ d = digit j
  prefix_free : ∀ a ∈ code, ∀ b ∈ code, a.2 <+: b.2 → a = b

mutual
/-- Every internal node of the tree has the number of children 43_huffman.md rule R163 gives it, the first one
made `k0`, every other `r`, and weighs what they weigh together (rule R162). -/
def NodeShape (k0 r : Nat) : Node → Prop
  | .leaf _ _ => True
  | .internal children w seq =>
    children.length = (if seq = 0 then k0 else r) ∧ w = (children.map Node.weight).sum ∧
      NodeShapes k0 r children
/-- `NodeShape` of every node of a list. -/
def NodeShapes (k0 r : Nat) : List Node → Prop
  | [] => True
  | n :: ns => NodeShape k0 r n ∧ NodeShapes k0 r ns
end

mutual
/-- The symbols of a tree with their weights, its leaves from left to right (43_huffman.md rule R162). -/
def nodeLeaves : Node → List (Character × Nat)
  | .leaf c w => [(c, w)]
  | .internal children _ _ => nodesLeaves children
/-- The leaves of the nodes of a list. -/
def nodesLeaves : List Node → List (Character × Nat)
  | [] => []
  | n :: ns => nodeLeaves n ++ nodesLeaves ns
end

/-- The node order (43_huffman.md rule R164): smaller weight first, at equal weight a leaf before an internal
node, between leaves the smaller character, between internal nodes the one made earlier. -/
def NodeBefore (a b : Node) : Prop :=
  a.weight < b.weight ∨ a.weight = b.weight ∧
    match a, b with
    | .leaf c _, .leaf d _ => c < d
    | .leaf _ _, .internal _ _ _ => True
    | .internal _ _ _, .leaf _ _ => False
    | .internal _ _ i, .internal _ _ j => i < j

/-- The merges of `build_code` (43_huffman.md rule R165) from a collection of nodes in any order to one root:
each takes `k` nodes that come before all the others, in ascending node order, as the children of the
next internal node, `k` being `r` from the second merge on. -/
inductive MergesTo (r : Nat) : Nat → Nat → List Node → Node → Prop
  | root (k seq : Nat) (n : Node) : MergesTo r k seq [n] n
  | merge (k seq : Nat) (nodes sel rest : List Node) (n : Node) :
      1 < nodes.length → nodes.Perm (sel ++ rest) → sel.length = k → sel.Pairwise NodeBefore →
      (∀ a ∈ sel, ∀ b ∈ rest, NodeBefore a b) →
      MergesTo r r (seq + 1) (.internal sel (sel.map Node.weight).sum seq :: rest) n →
      MergesTo r k seq nodes n

/-- `NodeAt root path n`: the child positions of `path`, the root's first, lead to `n`
(43_huffman.md rule R167). -/
inductive NodeAt : Node → List Nat → Node → Prop
  | here (n : Node) : NodeAt n [] n
  | child (children : List Node) (w seq j : Nat) (m n : Node) (path : List Nat) :
      children[j]? = some m → NodeAt m path n → NodeAt (.internal children w seq) (j :: path) n

/-- `enc` is the blocks `(column,n)` of `bs` for `BWT_BLOCK = B`: full-size but for the last one
(30_encoding.md rule R83). -/
def BwtGrammar (B : Nat) (bs : List (Text × Text)) (enc : Text) : Prop :=
  bs ≠ [] ∧ (∀ b ∈ bs, 1 ≤ b.1.length ∧ b.1.length ≤ B ∧ IsLiteral b.2) ∧
    (∀ b ∈ bs.dropLast, b.1.length = B) ∧
    enc = bs.flatMap fun b => [lparen] ++ b.1 ++ [comma] ++ b.2 ++ [rparen]

/-- Every index names a row of its column (44_bwt.md rule R203). -/
def BwtRows (bs : List (Text × Text)) : Prop := ∀ b ∈ bs, val b.2 < b.1.length

/-- The host has moved a result into IN: `u` is a state whose input text is the result text of `t`, in the
same build (70_reset_and_hazards.md rule R265). -/
def Moved (t u : State) : Prop := u.build = t.build ∧ inputText u = outputText t

end Sys2Proof
end

