-- ==== Sys2Proof/Certificates/Slice0/Obligations.lean ====
section
/-! DEFINITION. The statements for the provers, in the order of OBLIGATIONS.json. -/

open Sys2Proof Sys2Proof.Machine

/-! ### The command word -/

/-- 30_encoding.md R70, R87, R89: the encoder and the decoder of command words are each other's inverse, with
`RADIX` at all its values, and exactly the words with `RSV = 0` are operations. -/
def Obligations.CommandWordRoundTrip : Prop :=
  (∀ (i : Instr) (rest : List Byte), decode (encode i ++ rest) = .ok (i, rest)) ∧
  (∀ (w : BitVec 8) (i : Instr), decodeWord w = .ok i → encodeWord i = w) ∧
  (∀ w : BitVec 8, (∃ i, decodeWord w = .ok i) ↔ w.getLsbD 7 = false)

/-- 30_encoding.md R90 and opcode_table.json: with `mask = 0x87`, every row's `match` selects its operation
and bits 6:3 are its `RADIX`. -/
def Obligations.OpcodeTableRowsDecode : Prop :=
  ∀ w : BitVec 8,
    (w &&& 0x87#8 = 0x00#8 → decodeWord w = .ok (.rleEnc (w.extractLsb' 3 4))) ∧
    (w &&& 0x87#8 = 0x01#8 → decodeWord w = .ok (.rleDec (w.extractLsb' 3 4))) ∧
    (w &&& 0x87#8 = 0x02#8 → decodeWord w = .ok (.lz78Enc (w.extractLsb' 3 4))) ∧
    (w &&& 0x87#8 = 0x03#8 → decodeWord w = .ok (.lz78Dec (w.extractLsb' 3 4))) ∧
    (w &&& 0x87#8 = 0x04#8 → decodeWord w = .ok (.huffEnc (w.extractLsb' 3 4))) ∧
    (w &&& 0x87#8 = 0x05#8 → decodeWord w = .ok (.huffDec (w.extractLsb' 3 4))) ∧
    (w &&& 0x87#8 = 0x06#8 → decodeWord w = .ok (.bwtEnc (w.extractLsb' 3 4))) ∧
    (w &&& 0x87#8 = 0x07#8 → decodeWord w = .ok (.bwtDec (w.extractLsb' 3 4))) ∧
    (w &&& 0x80#8 = 0x80#8 → decodeWord w = .error .reservedBitSet)

/-- 30_encoding.md R89 and 95_test_vectors.md part 6: command words the spec writes out. -/
def Obligations.SpecCommandWords : Prop :=
  decodeWord 0x00#8 = .ok (.rleEnc 0) ∧ decodeWord 0x01#8 = .ok (.rleDec 0) ∧
  decodeWord 0x02#8 = .ok (.lz78Enc 0) ∧ decodeWord 0x03#8 = .ok (.lz78Dec 0) ∧
  decodeWord 0x1C#8 = .ok (.huffEnc 3) ∧ decodeWord 0x55#8 = .ok (.huffDec 10) ∧
  decodeWord 0x3E#8 = .ok (.bwtEnc 7) ∧ decodeWord 0x07#8 = .ok (.bwtDec 0)

/-! ### Steps -/

/-- 40_common.md R105, 10_state.md R32: while BUSY, the block's turn runs the operation that `CMD` decodes
to, on the state with that turn taken off the agenda (the agenda is the model's own, log 6). -/
def Obligations.StepRunsTheCommand : Prop :=
  ∀ (s : State) (i : Instr), s.phase = .busy → nextTurn s = .block → decodeWord s.cmd = .ok i →
    step s = exec i (popTurn s)

/-- 30_encoding.md R72: a command word with `RSV = 1` fails with InvalidArgument whatever its other fields
and the input are, and does nothing else. -/
def Obligations.ReservedCommandFails : Prop :=
  ∀ s : State, s.phase = .busy → nextTurn s = .block → s.cmd.getLsbD 7 = true →
    ∃ t, step s = .next t ∧ t.err = .invalidArgument ∧ t.phase = .done ∧
      t.outLen = 0 ∧ t.ratioSrc = 0 ∧ t.ratioEnc = 0 ∧ (∀ k, t.outBuf.read k = none) ∧
      t.cmd = s.cmd ∧ t.inLen = s.inLen ∧ t.inBuf = s.inBuf ∧ t.build = s.build

/-- 10_state.md R40, 70_reset_and_hazards.md R251, R252: what reset leaves, in the state after power-on and
when reset is applied in any state, BUSY included; the build is unaffected. -/
def Obligations.ResetLeavesTheResetState : Prop :=
  IsResetState State.reset ∧
  ∀ s : State, nextTurn s = .reset →
    ∃ t, step s = .next t ∧ IsResetState t ∧ t.build = s.build ∧ t.agenda = s.agenda.tail

/-- The state after reset meets the invariant, in every legal build. -/
def Obligations.ResetMeetsInvariant : Prop :=
  State.reset.Inv ∧ ∀ b : Build, b.ok = true → (State.resetOf b).Inv

/-- Every step of every state that meets the invariant keeps it. -/
def Obligations.StepKeepsInvariant : Prop :=
  ∀ s t : State, s.Inv → step s = .next t → t.Inv

/-- 40_common.md R106, 60_exceptions.md R220: in a legal build the machine never stops: every run of any
length goes on, in the same build. -/
def Obligations.LegalBuildNeverStops : Prop :=
  ∀ (s : State) (k : Nat), s.build.ok = true →
    ∃ t : State, Sys2Proof.core.run k s = .next t ∧ t.build = s.build

/-- 70_reset_and_hazards.md R266, 10_state.md R33, R34: every BUSY period ends by a completion, once the block
gets its turn, and until then the command and the input text stand as they were, whatever the host does. That
an empty agenda is the block's turn is the model's choice (log 6). -/
def Obligations.BusyPeriodEnds : Prop :=
  ∀ s : State, s.build.ok = true → s.phase = .busy → Turn.reset ∉ s.agenda →
    ∃ k, k ≤ s.agenda.length + 1 ∧
      (∃ t : State, Sys2Proof.core.run k s = .next t ∧ t.phase = .done) ∧
      ∀ j, j < k → ∃ u : State, Sys2Proof.core.run j s = .next u ∧ u.phase = .busy ∧
        u.err = s.err ∧ u.cmd = s.cmd ∧ inputText u = inputText s

/-- 10_state.md R27, R32: the transitions of STATE are exactly reset to IDLE, START to BUSY when not BUSY, and
completion from BUSY to DONE. -/
def Obligations.PhaseTransitions : Prop :=
  ∀ s t : State, step s = .next t →
    (nextTurn s = .reset → t.phase = .idle) ∧
    (∀ w, nextTurn s = .host (.start w) → t.phase = .busy) ∧
    (nextTurn s = .block → s.phase = .busy → t.phase = .done) ∧
    (t.phase ≠ s.phase → nextTurn s = .reset ∨
      (∃ w, nextTurn s = .host (.start w) ∧ s.phase ≠ .busy) ∨
      (nextTurn s = .block ∧ s.phase = .busy))

/-- 20_memory.md R53, 10_state.md R21, R24, R26, R31, R32: no register and no cell, written or not, changes except
by a host write, a START, a completion or reset, each only by the action that may write it; nothing changes
the build. That a cell of IN not written since reset keeps one unspecified value until then is DEDUCED
(log 8), the epoch that stands for it being the model's own field. That the
result keeps its values at a START is the model's choice (log 17). -/
def Obligations.WhoChangesWhat : Prop :=
  ∀ s t : State, step s = .next t →
    t.build = s.build ∧
    (t.phase ≠ s.phase → nextTurn s = .reset ∨ (nextTurn s = .block ∧ s.phase = .busy) ∨
      ∃ w, nextTurn s = .host (.start w) ∧ s.phase ≠ .busy) ∧
    (t.epoch ≠ s.epoch → nextTurn s = .reset) ∧
    (t.cmd ≠ s.cmd → nextTurn s = .reset ∨ ∃ w, nextTurn s = .host (.start w) ∧ s.phase ≠ .busy) ∧
    (t.err ≠ s.err → nextTurn s = .reset ∨ (nextTurn s = .block ∧ s.phase = .busy) ∨
      ∃ w, nextTurn s = .host (.start w) ∧ s.phase ≠ .busy) ∧
    (t.inLen ≠ s.inLen → nextTurn s = .reset ∨
      ∃ n, nextTurn s = .host (.setInLen n) ∧ s.phase ≠ .busy) ∧
    (∀ a, (t.inBuf.read a ≠ s.inBuf.read a ∨ inCell t a ≠ inCell s a) → nextTurn s = .reset ∨
      ∃ c, nextTurn s = .host (.wrIn a c) ∧ s.phase ≠ .busy) ∧
    ((t.outLen ≠ s.outLen ∨ t.ratioSrc ≠ s.ratioSrc ∨ t.ratioEnc ≠ s.ratioEnc ∨
        ∃ a, t.outBuf.read a ≠ s.outBuf.read a) →
      nextTurn s = .reset ∨ (nextTurn s = .block ∧ s.phase = .busy))

/-! ### Host actions -/

/-- 10_state.md R30, 20_memory.md R53: START(w) when not BUSY writes CMD, STATE and ERR and nothing else, in one
step. That the result keeps its values, which no host can see while BUSY, is the model's choice (log 17). -/
def Obligations.StartBeginsTheOperation : Prop :=
  ∀ (s : State) (w : BitVec 8), nextTurn s = .host (.start w) → s.phase ≠ .busy →
    ∃ t, step s = .next t ∧ t.cmd = w ∧ t.phase = .busy ∧ t.err = .ok ∧ t.inLen = s.inLen ∧
      t.inBuf = s.inBuf ∧ t.outLen = s.outLen ∧ t.outBuf = s.outBuf ∧ t.ratioSrc = s.ratioSrc ∧
      t.ratioEnc = s.ratioEnc ∧ t.build = s.build ∧ t.epoch = s.epoch ∧ t.draws = s.draws ∧
      t.reply = s.reply ∧ t.agenda = s.agenda.tail

/-- 10_state.md R33: while BUSY, START, WR_IN and SET_IN_LEN leave the state unchanged; only the turn is
spent. -/
def Obligations.BusyWritesAreLost : Prop :=
  ∀ s : State, s.phase = .busy →
    ((∃ w, nextTurn s = .host (.start w)) ∨ (∃ i c, nextTurn s = .host (.wrIn i c)) ∨
      ∃ n, nextTurn s = .host (.setInLen n)) →
    step s = .next (popTurn s)

/-- 10_state.md R23, R31, 20_memory.md R54: when not BUSY, WR_IN of a character writes its one cell of IN and
SET_IN_LEN writes IN_LEN; beyond the capacity either is ignored. A number that is no character of the
block is cut to the cell's `CHAR_W` bits, the model's choice (log 22). -/
def Obligations.HostWritesInput : Prop :=
  ∀ s : State, s.phase ≠ .busy →
    (∀ i c, nextTurn s = .host (.wrIn i c) → inRange s.build.maxIn i = true →
      ∃ t, step s = .next t ∧ t.inBuf.read i = some (inCell t i) ∧ inCell t i = c % 2 ^ s.build.charW ∧
        (s.build.isChar c = true → inCell t i = c) ∧
        (∀ k, k ≠ i → inCell t k = inCell s k ∧ t.inBuf.read k = s.inBuf.read k) ∧
        t.inLen = s.inLen ∧ t.cmd = s.cmd ∧ t.phase = s.phase ∧ t.err = s.err ∧
        t.outLen = s.outLen ∧ t.outBuf = s.outBuf ∧ t.ratioSrc = s.ratioSrc ∧
        t.ratioEnc = s.ratioEnc ∧ t.build = s.build ∧ t.epoch = s.epoch) ∧
    (∀ i c, nextTurn s = .host (.wrIn i c) → inRange s.build.maxIn i = false →
      step s = .next (popTurn s)) ∧
    (∀ n, nextTurn s = .host (.setInLen n) → withinCap s.build.maxIn n = true →
      step s = .next { popTurn s with inLen := n }) ∧
    (∀ n, nextTurn s = .host (.setInLen n) → withinCap s.build.maxIn n = false →
      step s = .next (popTurn s))

/-- 10_state.md R31, R34: CMD, STATUS, IN_LEN and the cells of IN read exactly in every state, the result
registers and the stated cells of OUT read exactly when not BUSY, and a read never changes the block.
A cell of IN not written since reset has no stated value (20_memory.md R54): that RD_IN of it returns the
same free value `inCell` at every read is DEDUCED (log 8, unsafe for that claim), no rule of the spec. -/
def Obligations.HostReadsReturn : Prop :=
  ∀ (s : State) (a : HostAction) (r : Reply), nextTurn s = .host a →
    ((a = .rdStatus ∧ r = .status s.statusWord) ∨ (a = .rdCmd ∧ r = .cmd s.cmd) ∨
      (a = .rdInLen ∧ r = .number s.inLen) ∨
      (∃ i, a = .rdIn i ∧ inRange s.build.maxIn i = true ∧ r = .cell (inCell s i)) ∨
      (s.phase ≠ .busy ∧
        ((a = .rdOutLen ∧ r = .number s.outLen) ∨
          (a = .rdRatioSrc ∧ r = .number s.ratioSrc) ∨
          (a = .rdRatioEnc ∧ r = .number s.ratioEnc) ∨
          ∃ i c, a = .rdOut i ∧ s.outBuf.read i = some c ∧ r = .cell c))) →
    ∃ t, step s = .next t ∧ t.reply = some r ∧ SameBlock s t ∧ t.agenda = s.agenda.tail

/-- 10_state.md R34, R26, 20_memory.md R54: a read of an unspecified value returns a value of the register's
type (OUT_LEN at most MAX_OUT, a cell's a character), whichever it is, and changes nothing in the block. -/
def Obligations.UnspecifiedReadsReturnSomeValue : Prop :=
  ∀ s : State,
    (s.phase = .busy → nextTurn s = .host .rdOutLen →
      ∃ t n, step s = .next t ∧ t.reply = some (.number n) ∧
        withinCap s.build.maxOut n = true ∧ SameBlock s t) ∧
    (s.phase = .busy → (nextTurn s = .host .rdRatioSrc ∨ nextTurn s = .host .rdRatioEnc) →
      ∃ t n, step s = .next t ∧ t.reply = some (.number n) ∧ SameBlock s t) ∧
    (∀ i, (s.phase = .busy ∨ s.outBuf.read i = none) → nextTurn s = .host (.rdOut i) →
      ∃ t c, step s = .next t ∧ t.reply = some (.cell c) ∧ s.build.isChar c = true ∧ SameBlock s t) ∧
    (∀ i, inRange s.build.maxIn i = false → nextTurn s = .host (.rdIn i) →
      ∃ t c, step s = .next t ∧ t.reply = some (.cell c) ∧ s.build.isChar c = true ∧ SameBlock s t)

/-- 10_state.md R22, R34: the layout of STATUS, and that it is 0x1 while BUSY. -/
def Obligations.StatusRegisterLayout : Prop :=
  (∀ s : State,
    s.statusWord.extractLsb' 0 2 =
      (match s.phase with
        | .idle => 0#2
        | .busy => 1#2
        | .done => 2#2) ∧
    s.statusWord.extractLsb' 2 2 =
      match s.err with
      | .ok => 0#2
      | .invalidArgument => 1#2
      | .formatError => 2#2
      | .capacityError => 3#2) ∧
  ∀ s : State, s.Inv → s.phase = .busy → s.statusWord = 0x1#4

/-- 10_state.md R29: `done` is 1 exactly when STATE is DONE; it falls at the next START or at reset, and says
nothing RD_STATUS does not. -/
def Obligations.DoneSignal : Prop :=
  (∀ s : State, (s.doneSignal = true ↔ s.phase = .done) ∧
    (s.doneSignal = true ↔ s.statusWord.extractLsb' 0 2 = 2#2)) ∧
  ∀ s t : State, step s = .next t →
    (nextTurn s = .reset ∨ ∃ w, nextTurn s = .host (.start w)) → t.doneSignal = false

/-- 20_memory.md R57 (a), (d), 30_encoding.md R89: a LOAD done while the block is not BUSY puts the text into IN
whatever IN held, and changes nothing else in the block: the cells of IN beyond the text are as they were. -/
def Obligations.LoadPutsTheText : Prop :=
  ∀ (s : State) (text : Text) (rest : List Turn), s.phase ≠ .busy →
    withinCap s.build.maxIn text.length = true → (∀ c ∈ text, s.build.isChar c = true) →
    s.agenda = loadTurns text ++ rest →
    ∃ t : State, Sys2Proof.core.run (text.length + 1) s = .next t ∧ inputText t = text ∧
      (∀ k, text.length ≤ k → inCell t k = inCell s k ∧ t.inBuf.read k = s.inBuf.read k) ∧
      t.inLen = text.length ∧ t.agenda = rest ∧ t.epoch = s.epoch ∧ t.draws = s.draws ∧ t.reply = s.reply ∧
      t.phase = s.phase ∧ t.cmd = s.cmd ∧ t.err = s.err ∧
      t.outLen = s.outLen ∧ t.outBuf = s.outBuf ∧ t.ratioSrc = s.ratioSrc ∧
      t.ratioEnc = s.ratioEnc ∧ t.build = s.build

/-! ### The shared contract -/

/-- 40_common.md R101: `W(k)` is the least `w >= 1` with `2^w >= k`. -/
def Obligations.WidthIsLeast : Prop :=
  ∀ k : Nat, 1 ≤ width k ∧ k ≤ 2 ^ width k ∧ ∀ w, 1 ≤ w → k ≤ 2 ^ w → width k ≤ w

/-- 40_common.md R102: the two ratio registers after every operation, `distinct` being the number of character
values that occur. -/
def Obligations.RatioRegisters : Prop :=
  ∀ (i : Instr) (s t : State), exec i s = .next t →
    (i.direction = .encode → t.err = .ok →
      t.ratioSrc = (inputText s).length * width (inputText s).toFinset.card ∧
      t.ratioEnc = (outputText t).length * width (outputText t).toFinset.card) ∧
    (i.direction = .decode ∨ t.err ≠ .ok → t.ratioSrc = 0 ∧ t.ratioEnc = 0)

/-- 40_common.md R103: a successful encode has at least five characters of output and a denominator of at
least 5, and its numerator is 0 only for the empty LZ78 source. -/
def Obligations.EncodedTextNeverEmpty : Prop :=
  ∀ (i : Instr) (s t : State), exec i s = .next t → i.direction = .encode → t.err = .ok →
    5 ≤ t.outLen ∧ 5 ≤ t.ratioEnc ∧
      (t.ratioSrc = 0 → (∃ radix, i = .lz78Enc radix) ∧ inputText s = [])

/-- 40_common.md R104: what each operation does when `IN_LEN = 0`; for the Huffman operations the radix check
comes first, the legal radices being those of a legal build. -/
def Obligations.EmptyInputResults : Prop :=
  ∀ (s : State) (radix : BitVec 4), s.build.ok = true → s.inLen = 0 →
    (∃ t, exec (.rleEnc radix) s = .next t ∧ t.err = .invalidArgument) ∧
    (∃ t, exec (.huffEnc radix) s = .next t ∧ t.err = .invalidArgument) ∧
    (∃ t, exec (.bwtEnc radix) s = .next t ∧ t.err = .invalidArgument) ∧
    (withinCap s.build.maxOut 5 = true →
      ∃ t, exec (.lz78Enc radix) s = .next t ∧ t.err = .ok ∧
        outputText t = [lparen, 0x30, comma, s.build.lzSentinel, rparen]) ∧
    (∃ t, exec (.rleDec radix) s = .next t ∧ t.err = .formatError) ∧
    (∃ t, exec (.lz78Dec radix) s = .next t ∧ t.err = .formatError) ∧
    (∃ t, exec (.bwtDec radix) s = .next t ∧ t.err = .formatError) ∧
    (2 ≤ radix.toNat → radix.toNat ≤ 10 →
      ∃ t, exec (.huffDec radix) s = .next t ∧ t.err = .formatError) ∧
    (radix.toNat < 2 ∨ 10 < radix.toNat →
      ∃ t, exec (.huffDec radix) s = .next t ∧ t.err = .invalidArgument)

/-- 60_exceptions.md R227: failed completion, what taking an error does to the state: the result registers are
emptied, no cell of OUT is left with a value, and IN, IN_LEN and CMD are exactly as they were. -/
def Obligations.FailedCompletion : Prop :=
  ∀ s t : State, s.phase = .busy → nextTurn s = .block → step s = .next t → t.err ≠ .ok →
    t.outLen = 0 ∧ t.ratioSrc = 0 ∧ t.ratioEnc = 0 ∧ t.phase = .done ∧
      (∀ k, t.outBuf.read k = none) ∧ t.inBuf = s.inBuf ∧ t.inLen = s.inLen ∧ t.cmd = s.cmd

/-- 10_state.md R24, R26, 20_memory.md R62, 40_common.md R107: the frame of all eight operations. IN, IN_LEN,
CMD, the build and the host's side are unchanged; the cells of OUT with a value afterwards are exactly
those below OUT_LEN, which is within MAX_OUT; STATE is DONE. -/
def Obligations.OperationFrame : Prop :=
  ∀ (i : Instr) (s t : State), exec i s = .next t →
    (∀ a, t.inBuf.read a = s.inBuf.read a) ∧ t.inBuf = s.inBuf ∧ t.inLen = s.inLen ∧ t.cmd = s.cmd ∧
      t.build = s.build ∧ t.agenda = s.agenda ∧ t.reply = s.reply ∧ t.draws = s.draws ∧
      t.epoch = s.epoch ∧ t.phase = .done ∧
      (∀ a, (t.outBuf.read a).isSome = true ↔ a < t.outLen) ∧
      withinCap s.build.maxOut t.outLen = true

/-- 40_common.md R117, 10_state.md R37, 44_bwt.md R197: the completion values are a function of the command word,
the input text and the build: two states that agree on these complete alike, whatever earlier operations
left. Of the build, `BWT_WORKERS` has no part in it. -/
def Obligations.ResultDependsOnInputOnly : Prop :=
  ∀ s s' t t' : State, s.phase = .busy → s'.phase = .busy → nextTurn s = .block → nextTurn s' = .block →
    { s.build with bwtWorkers := s'.build.bwtWorkers } = s'.build → s.cmd = s'.cmd → inputText s = inputText s' →
    step s = .next t → step s' = .next t' →
    t.err = t'.err ∧ t.outLen = t'.outLen ∧ t.outBuf = t'.outBuf ∧ t.ratioSrc = t'.ratioSrc ∧
      t.ratioEnc = t'.ratioEnc

/-- 60_exceptions.md R221: InvalidArgument is raised in its four cases and only there. -/
def Obligations.InvalidArgumentCauses : Prop :=
  ∀ s t : State, s.build.ok = true → s.phase = .busy → nextTurn s = .block → step s = .next t →
    (t.err = .invalidArgument ↔
      s.cmd.getLsbD 7 = true ∨
      ((s.cmd.extractLsb' 0 3 = 4#3 ∨ s.cmd.extractLsb' 0 3 = 5#3) ∧
        ((s.cmd.extractLsb' 3 4).toNat < 2 ∨ 10 < (s.cmd.extractLsb' 3 4).toNat)) ∨
      ((s.cmd.extractLsb' 0 3 = 0#3 ∨ s.cmd.extractLsb' 0 3 = 4#3 ∨ s.cmd.extractLsb' 0 3 = 6#3) ∧
        s.inLen = 0) ∨
      (s.cmd.extractLsb' 0 3 = 2#3 ∧ s.build.lzSentinel ∈ inputText s))

/-- 60_exceptions.md R222: an encode operation never ends with FormatError. -/
def Obligations.EncodersNeverFormatError : Prop :=
  ∀ (i : Instr) (s t : State), i.direction = .encode → exec i s = .next t → t.err ≠ .formatError

/-- 60_exceptions.md R223, R226, 40_common.md R109: capacity is judged last. Beside the same operation in an
unbounded build, which never ends with CapacityError, a bounded one gives the same InvalidArgument or
FormatError, and otherwise the same text or CapacityError. -/
def Obligations.CapacityIsJudgedLast : Prop :=
  ∀ (i : Instr) (s t v : State), exec i s = .next t →
    exec i { s with build := { s.build with maxOut := none, numMax := none } } = .next v →
    v.err ≠ .capacityError ∧ (v.err ≠ .ok → t.err = v.err) ∧
      (v.err = .ok → t.err = .capacityError ∨ (t.err = .ok ∧ outputText t = outputText v))

/-- 30_encoding.md R71: RADIX is bits 6:3 as an unsigned number; outside 2..10 the two Huffman operations fail
with InvalidArgument, and the six others do not read it. -/
def Obligations.RadixOperand : Prop :=
  (∀ (w : BitVec 8) (i : Instr), decodeWord w = .ok i → i.radix = w.extractLsb' 3 4) ∧
  (∀ (s : State) (radix : BitVec 4), s.build.ok = true → radix.toNat < 2 ∨ 10 < radix.toNat →
    (∃ t, exec (.huffEnc radix) s = .next t ∧ t.err = .invalidArgument) ∧
      ∃ t, exec (.huffDec radix) s = .next t ∧ t.err = .invalidArgument) ∧
  ∀ (s : State) (p q : BitVec 4),
    exec (.rleEnc p) s = exec (.rleEnc q) s ∧ exec (.rleDec p) s = exec (.rleDec q) s ∧
    exec (.lz78Enc p) s = exec (.lz78Enc q) s ∧ exec (.lz78Dec p) s = exec (.lz78Dec q) s ∧
    exec (.bwtEnc p) s = exec (.bwtEnc q) s ∧ exec (.bwtDec p) s = exec (.bwtDec q) s

/-- 30_encoding.md R75: `dec(n)` is the shortest decimal literal of `n`, without a leading zero, and
`val(dec(n)) = n` with the first digit the most significant (R76). -/
def Obligations.DecimalLiterals : Prop :=
  (∀ n : Nat, IsLiteral (dec n) ∧ val (dec n) = n ∧
    (n ≠ 0 → (dec n).head? ≠ some 0x30) ∧
    ∀ ds, IsLiteral ds → val ds = n → (dec n).length ≤ ds.length) ∧
  dec 0 = [0x30] ∧
  ∀ (d : Character) (ds : Text), val (d :: ds) = (d - 0x30) * 10 ^ ds.length + val ds

/-! ### RLE -/

/-- 41_rle.md R121, R122: RLE_ENC of a non-empty text completes with the pairs of its maximal runs, or with
CapacityError when they do not fit. -/
def Obligations.RleEncWritesMaximalRuns : Prop :=
  ∀ (s : State) (radix : BitVec 4), inputText s ≠ [] →
    ∃ ps, IsRunList ps (inputText s) ∧
      let e := ps.flatMap fun p => [lparen, p.1, comma] ++ dec p.2 ++ [rparen]
      (withinCap s.build.maxOut e.length = true →
        ∃ t, exec (.rleEnc radix) s = .next t ∧ t.err = .ok ∧ outputText t = e) ∧
      (withinCap s.build.maxOut e.length = false →
        ∃ t, exec (.rleEnc radix) s = .next t ∧ t.err = .capacityError)

/-- 41_rle.md R124, R125, 30_encoding.md R78: RLE_DEC completes with the repeated symbols on exactly the texts
of the grammar, with FormatError on every other, and with CapacityError when only a capacity is
exceeded. -/
def Obligations.RleDecAcceptsTheGrammar : Prop :=
  ∀ (s : State) (radix : BitVec 4),
    (∀ ps, RleGrammar ps (inputText s) →
      let e := ps.flatMap fun p => List.replicate (val p.2) p.1
      (((∀ p ∈ ps, withinCap s.build.numMax (val p.2) = true) ∧
          withinCap s.build.maxOut e.length = true) →
        ∃ t, exec (.rleDec radix) s = .next t ∧ t.err = .ok ∧ outputText t = e) ∧
      (((∃ p ∈ ps, withinCap s.build.numMax (val p.2) = false) ∨
          withinCap s.build.maxOut e.length = false) →
        ∃ t, exec (.rleDec radix) s = .next t ∧ t.err = .capacityError)) ∧
    ((¬ ∃ ps, RleGrammar ps (inputText s)) →
      ∃ t, exec (.rleDec radix) s = .next t ∧ t.err = .formatError)

/-- 41_rle.md R126, 40_common.md R100: the RLE round trip, of the functions and on the machine. -/
def Obligations.RleRoundTrip : Prop :=
  (∀ x : Text, x ≠ [] → ∃ e, rleEncode x = .ok e ∧ rleDecode none e = .ok x) ∧
  ∀ (s t u : State) (p q : BitVec 4), s.build.ok = true → withinCap s.build.maxIn s.inLen = true →
    exec (.rleEnc p) s = .next t → t.err = .ok → Moved t u →
    withinCap s.build.maxOut s.inLen = true →
    ∃ v, exec (.rleDec q) u = .next v ∧ v.err = .ok ∧ outputText v = inputText s

/-! ### LZ78 -/

/-- 42_lz78.md R142 to R144: LZ78_ENC of a text without the terminator completes with pairs whose indices name
earlier phrases, whose phrases are all different, which stand for the text, and which end in the
terminator only for a residual buffer or the empty text. -/
def Obligations.LzEncWritesNewPhrases : Prop :=
  ∀ (s : State) (radix : BitVec 4), s.build.lzSentinel ∉ inputText s →
    ∃ ns : List (Nat × Character), ns ≠ [] ∧ LzLegal s.build.lzSentinel ns ∧
      (lzDict (ns.filter fun p => p.2 != s.build.lzSentinel)).Nodup ∧
      lzMeaning s.build.lzSentinel ns = inputText s ∧
      (ns.getLast? = some (0, s.build.lzSentinel) → inputText s = []) ∧
      let e := ns.flatMap fun p => [lparen] ++ dec p.1 ++ [comma, p.2, rparen]
      (withinCap s.build.maxOut e.length = true →
        ∃ t, exec (.lz78Enc radix) s = .next t ∧ t.err = .ok ∧ outputText t = e) ∧
      (withinCap s.build.maxOut e.length = false →
        ∃ t, exec (.lz78Enc radix) s = .next t ∧ t.err = .capacityError)

/-- 42_lz78.md R146, R147, 30_encoding.md R79: LZ78_DEC completes with the text the pairs stand for on exactly
the texts of the grammar with legal indices and terminator, with FormatError on every other, and with
CapacityError when only a capacity is exceeded. -/
def Obligations.LzDecAcceptsTheGrammar : Prop :=
  ∀ (s : State) (radix : BitVec 4),
    (∀ ps : List (Text × Character), LzGrammar ps (inputText s) →
      LzLegal s.build.lzSentinel (ps.map fun p => (val p.1, p.2)) →
      let e := lzMeaning s.build.lzSentinel (ps.map fun p => (val p.1, p.2))
      (((∀ p ∈ ps, withinCap s.build.numMax (val p.1) = true) ∧
          withinCap s.build.maxOut e.length = true) →
        ∃ t, exec (.lz78Dec radix) s = .next t ∧ t.err = .ok ∧ outputText t = e) ∧
      (((∃ p ∈ ps, withinCap s.build.numMax (val p.1) = false) ∨
          withinCap s.build.maxOut e.length = false) →
        ∃ t, exec (.lz78Dec radix) s = .next t ∧ t.err = .capacityError)) ∧
    ((¬ ∃ ps : List (Text × Character), LzGrammar ps (inputText s) ∧
        LzLegal s.build.lzSentinel (ps.map fun p => (val p.1, p.2))) →
      ∃ t, exec (.lz78Dec radix) s = .next t ∧ t.err = .formatError)

/-- 42_lz78.md R148, 40_common.md R100: the LZ78 round trip, of the functions and on the machine. -/
def Obligations.LzRoundTrip : Prop :=
  (∀ (sentinel : Character) (x : Text), sentinel ∉ x →
    ∃ e, lz78Encode sentinel x = .ok e ∧ lz78Decode none sentinel e = .ok x) ∧
  ∀ (s t u : State) (p q : BitVec 4), s.build.ok = true → withinCap s.build.maxIn s.inLen = true →
    exec (.lz78Enc p) s = .next t → t.err = .ok → Moved t u →
    withinCap s.build.maxOut s.inLen = true →
    ∃ v, exec (.lz78Dec q) u = .next v ∧ v.err = .ok ∧ outputText v = inputText s

/-! ### Huffman -/

/-- 40_common.md R110: `freq(s)` counts the occurrences of every character, has one entry for each that
occurs, and its counts sum to the length. -/
def Obligations.FrequencyTableCounts : Prop :=
  ∀ t : Text, (freq t).wf ∧ (∀ c : Character, (freq t).count c = t.count c) ∧
    (∀ c : Character, (freq t).has c = true ↔ c ∈ t) ∧ (freq t).length = t.toFinset.card ∧
    (freq t).total = t.length

/-- 40_common.md R111, R112, 30_encoding.md R81: `parse_dict` reads back exactly the dictionary texts, entries in
any order and leading zeros allowed, to the table they write; `ser` writes one of them. -/
def Obligations.DictionaryTexts : Prop :=
  (∀ (d : Text) (f : FreqTable), parseDict d = .ok f ↔ ∃ es, d = dictText es ∧ DictOf f es) ∧
  ∀ f : FreqTable, f.wf → f ≠ [] → parseDict (ser f) = .ok f

/-- 43_huffman.md R163: the size of the first merge, and that every later one finds `r` nodes. -/
def Obligations.FirstMergeSize : Prop :=
  ∀ m r : Nat, 2 ≤ m → 2 ≤ r →
    2 ≤ firstMerge m r ∧ firstMerge m r ≤ r ∧ firstMerge m r ≤ m ∧
    (m ≤ r → firstMerge m r = m) ∧
    (r < m → (m - r) % (r - 1) = 0 → firstMerge m r = r) ∧
    (m - firstMerge m r) % (r - 1) = 0 ∧ firstMerge m 2 = 2

/-- 43_huffman.md R162, R163, R165: the construction ends in one tree whose leaves are the symbols of the table with
their counts, in which every internal node weighs what its children weigh together and has `r` of them, but
the one made first, which has `k0`. -/
def Obligations.PrefixTreeShape : Prop :=
  ∀ (f : FreqTable) (r : Nat), f.wf → 2 ≤ f.length → 2 ≤ r →
    ∃ root, mergeAll r f.length (firstMerge f.length r) 0
        (sortNodes (f.map fun e => .leaf e.1 e.2)) = [root] ∧
      NodeShape (firstMerge f.length r) r root ∧ (nodeLeaves root).Perm f ∧ root.weight = f.total

/-- 43_huffman.md R164, R165: each merge takes the `k` smallest nodes in the node order as children in ascending
order, `k` being `k0` for the first merge and `r` for every later one. From the leaves of the table in any
order this leads to exactly one tree, the one the construction ends in. -/
def Obligations.MergesTakeTheSmallest : Prop :=
  ∀ (f : FreqTable) (r : Nat) (leaves : List Node), f.wf → 2 ≤ f.length → 2 ≤ r →
    leaves.Perm (f.map fun e => .leaf e.1 e.2) →
    ∃ root, MergesTo r (firstMerge f.length r) 0 leaves root ∧
      (∀ other, MergesTo r (firstMerge f.length r) 0 leaves other → other = root) ∧
      mergeAll r f.length (firstMerge f.length r) 0
        (sortNodes (f.map fun e => .leaf e.1 e.2)) = [root]

/-- 43_huffman.md R165 to R167: the code word of a symbol is the digits of the child positions on the path from
the root to its leaf, the root's first, in the tree the merges of the table lead to; the only symbol of a
one-symbol table has the code word `"0"` for every radix. -/
def Obligations.CodeWordsAreTheDigitPaths : Prop :=
  (∀ (f : FreqTable) (r : Nat) (root : Node), f.wf → 2 ≤ f.length → 2 ≤ r →
    MergesTo r (firstMerge f.length r) 0 (f.map fun e => .leaf e.1 e.2) root →
    (∀ (c : Character) (w : Text), (c, w) ∈ buildCode f r ↔
      ∃ path n, NodeAt root path (.leaf c n) ∧ w = path.map digit) ∧
    ∀ (c : Character) (path : List Nat) (n : Nat), NodeAt root path (.leaf c n) →
      f.count c = n ∧ codeWord (buildCode f r) c = path.map digit) ∧
  ∀ (c : Character) (n r : Nat), buildCode [(c, n)] r = [(c, [0x30])]

/-- 43_huffman.md R168: `build_code` gives each symbol of the table exactly one code word, non-empty, of digits
below the radix, none a prefix of another, so that a text splits into code words in at most one way. -/
def Obligations.CodeIsPrefixFree : Prop :=
  ∀ (f : FreqTable) (r : Nat), f.wf → f ≠ [] → 2 ≤ r → r ≤ 10 →
    IsPrefixCode (buildCode f r) f r ∧
    ∀ xs ys : Text, (∀ x ∈ xs, f.has x = true) → (∀ y ∈ ys, f.has y = true) →
      xs.flatMap (codeWord (buildCode f r)) = ys.flatMap (codeWord (buildCode f r)) → xs = ys

/-- 43_huffman.md R170, R171: HUFF_ENC of a non-empty text with a legal radix completes with its code stream and
dictionary, or with CapacityError when they do not fit; the stream has the length of R171, digits below
`r` only, is not empty, and the first opening brace begins the dictionary. -/
def Obligations.HuffEncWritesStreamAndDictionary : Prop :=
  ∀ (s : State) (radix : BitVec 4), s.build.ok = true → 2 ≤ radix.toNat → radix.toNat ≤ 10 →
    inputText s ≠ [] →
    let f := freq (inputText s)
    let stream := (inputText s).flatMap (codeWord (buildCode f radix.toNat))
    let e := stream ++ ser f
    stream ≠ [] ∧ (∀ d ∈ stream, ∃ j, j < radix.toNat ∧ d = digit j) ∧
    stream.length = (f.map fun c => c.2 * (codeWord (buildCode f radix.toNat) c.1).length).sum ∧
    e.dropWhile (· != lbrace) = ser f ∧
    (withinCap s.build.maxOut e.length = true →
      ∃ t, exec (.huffEnc radix) s = .next t ∧ t.err = .ok ∧ outputText t = e) ∧
    (withinCap s.build.maxOut e.length = false →
      ∃ t, exec (.huffEnc radix) s = .next t ∧ t.err = .capacityError)

/-- 43_huffman.md R174 to R176, 30_encoding.md R80, R82: HUFF_DEC with a legal radix completes with the symbols on
exactly the texts of the grammar, the counts being used for the code alone, with FormatError on every
other, and with CapacityError when only a capacity is exceeded. -/
def Obligations.HuffDecAcceptsTheGrammar : Prop :=
  ∀ (s : State) (radix : BitVec 4), s.build.ok = true → 2 ≤ radix.toNat → radix.toNat ≤ 10 →
    (∀ (f : FreqTable) (es : List (Character × Text)) (xs : Text),
      HuffGrammar radix.toNat f es xs (inputText s) →
      (((∀ e ∈ f, withinCap s.build.numMax e.2 = true) ∧ withinCap s.build.numMax f.total = true ∧
          withinCap s.build.maxOut xs.length = true) →
        ∃ t, exec (.huffDec radix) s = .next t ∧ t.err = .ok ∧ outputText t = xs) ∧
      (((∃ e ∈ f, withinCap s.build.numMax e.2 = false) ∨ withinCap s.build.numMax f.total = false ∨
          withinCap s.build.maxOut xs.length = false) →
        ∃ t, exec (.huffDec radix) s = .next t ∧ t.err = .capacityError)) ∧
    ((¬ ∃ f es xs, HuffGrammar radix.toNat f es xs (inputText s)) →
      ∃ t, exec (.huffDec radix) s = .next t ∧ t.err = .formatError)

/-- 43_huffman.md R177, 40_common.md R100: the Huffman round trip for every radix, of the functions and on the
machine. -/
def Obligations.HuffRoundTrip : Prop :=
  (∀ (x : Text) (r : Nat), x ≠ [] → 2 ≤ r → r ≤ 10 →
    ∃ e, huffEncode r x = .ok e ∧ huffDecode none r e = .ok x) ∧
  ∀ (s t u : State) (radix : BitVec 4), s.build.ok = true → withinCap s.build.maxIn s.inLen = true →
    exec (.huffEnc radix) s = .next t → t.err = .ok → Moved t u →
    withinCap s.build.maxOut s.inLen = true →
    ∃ v, exec (.huffDec radix) u = .next v ∧ v.err = .ok ∧ outputText v = inputText s

/-! ### BWT -/

/-- 44_bwt.md R192, R193: the sorted matrix lists every rotation once, in ascending order of content and then of
offset, and the column is the last character of each row. -/
def Obligations.SortedMatrix : Prop :=
  ∀ t : Text, (rowOrder t).Perm (List.range t.length) ∧
    (rowOrder t).Pairwise (fun i j => rot t i < rot t j ∨ (rot t i = rot t j ∧ i < j)) ∧
    ∀ k o : Nat, (rowOrder t)[k]? = some o → (bwtBlock t).1[k]? = (rot t o).getLast?

/-- 44_bwt.md R194: the column is a rearrangement of the block and the index a row of it, the number of
rotations strictly smaller than the block (R193); a block of equal characters is its own column. -/
def Obligations.BlockTransform : Prop :=
  ∀ t : Text, t ≠ [] →
    (bwtBlock t).1.Perm t ∧ (bwtBlock t).2 < t.length ∧
    (bwtBlock t).2 = ((List.range t.length).countP fun i => decide (rot t i < t)) ∧
    (∀ c : Character, (∀ d ∈ t, d = c) → bwtBlock t = (t, 0))

/-- 44_bwt.md R198: on the rows of any column `next` is a permutation, and it sends the `k`-th occurrence of a
character to the `k`-th of the rows that begin with it. -/
def Obligations.NextRowPermutes : Prop :=
  ∀ col : Text,
    (∀ i, i < col.length → nextRow col i < col.length) ∧
    (∀ i j, i < col.length → j < col.length → nextRow col i = nextRow col j → i = j) ∧
    (∀ i j, i < j → j < col.length → col[i]? = col[j]? → nextRow col i < nextRow col j) ∧
    ∀ (i j : Nat) (a b : Character), col[i]? = some a → col[j]? = some b → a < b →
      nextRow col i < nextRow col j

/-- 44_bwt.md R199, R200: the walk undoes the transform of every block, and for any column and row gives a text
of the column's length and characters. -/
def Obligations.InverseTransform : Prop :=
  (∀ t : Text, t ≠ [] → ibwt (bwtBlock t).1 (bwtBlock t).2 = t) ∧
  ∀ (col : Text) (idx : Nat), idx < col.length →
    (ibwt col idx).length = col.length ∧ ∀ c ∈ ibwt col idx, c ∈ col

/-- 44_bwt.md R191, R195: BWT_ENC of a non-empty text completes with the transforms of its blocks, all of
`BWT_BLOCK` characters but the last, or with CapacityError when they do not fit. -/
def Obligations.BwtEncWritesBlocks : Prop :=
  ∀ (s : State) (radix : BitVec 4), s.build.ok = true → inputText s ≠ [] →
    ∃ ts : List Text, ts.flatten = inputText s ∧
      (∀ b ∈ ts, 1 ≤ b.length ∧ b.length ≤ s.build.bwtBlock) ∧
      (∀ b ∈ ts.dropLast, b.length = s.build.bwtBlock) ∧
      let e := ts.flatMap fun b => [lparen] ++ (bwtBlock b).1 ++ [comma] ++ dec (bwtBlock b).2 ++ [rparen]
      (withinCap s.build.maxOut e.length = true →
        ∃ t, exec (.bwtEnc radix) s = .next t ∧ t.err = .ok ∧ outputText t = e) ∧
      (withinCap s.build.maxOut e.length = false →
        ∃ t, exec (.bwtEnc radix) s = .next t ∧ t.err = .capacityError)

/-- 44_bwt.md R195, 00_scope.md R7: the model's one stop (log 13, the model's choice): BWT_ENC of a non-empty
text in a build with `BWT_BLOCK = 0`, which Table P1 excludes; no operation stops otherwise. -/
def Obligations.OnlyAnIllegalBuildStops : Prop :=
  ∀ (i : Instr) (s : State),
    ((∃ r, exec i s = .fault r) ↔
      (∃ radix, i = .bwtEnc radix) ∧ inputText s ≠ [] ∧ s.build.bwtBlock = 0) ∧
    ∀ r, exec i s ≠ .refused r

/-- 44_bwt.md R200, R201, R203, 30_encoding.md R83: BWT_DEC completes with the walks of the blocks on exactly the
texts of the grammar for its `BWT_BLOCK` whose indices name rows, with FormatError on every other, and
with CapacityError when only a capacity is exceeded. -/
def Obligations.BwtDecAcceptsTheGrammar : Prop :=
  ∀ (s : State) (radix : BitVec 4),
    (∀ bs, BwtGrammar s.build.bwtBlock bs (inputText s) → BwtRows bs →
      let e := bs.flatMap fun b => ibwt b.1 (val b.2)
      (((∀ b ∈ bs, withinCap s.build.numMax (val b.2) = true) ∧
          withinCap s.build.maxOut e.length = true) →
        ∃ t, exec (.bwtDec radix) s = .next t ∧ t.err = .ok ∧ outputText t = e) ∧
      (((∃ b ∈ bs, withinCap s.build.numMax (val b.2) = false) ∨
          withinCap s.build.maxOut e.length = false) →
        ∃ t, exec (.bwtDec radix) s = .next t ∧ t.err = .capacityError)) ∧
    ((¬ ∃ bs, BwtGrammar s.build.bwtBlock bs (inputText s) ∧ BwtRows bs) →
      ∃ t, exec (.bwtDec radix) s = .next t ∧ t.err = .formatError)

/-- 44_bwt.md R205, 40_common.md R100: the BWT round trip for every block size, of the functions and on the
machine. -/
def Obligations.BwtRoundTrip : Prop :=
  (∀ (x : Text) (B : Nat), x ≠ [] → 1 ≤ B →
    ∃ e, bwtEncode B x = .ok e ∧ bwtDecode none B e = .ok x) ∧
  ∀ (s t u : State) (p q : BitVec 4), s.build.ok = true → withinCap s.build.maxIn s.inLen = true →
    exec (.bwtEnc p) s = .next t → t.err = .ok → Moved t u →
    withinCap s.build.maxOut s.inLen = true →
    ∃ v, exec (.bwtDec q) u = .next v ∧ v.err = .ok ∧ outputText v = inputText s
end

