-- ==== Sys2Proof/Laws/Memory.lean ====
section
/-! SUPPORT. The laws of a buffer's memory: read after write, and that every operation keeps the canonical
form. -/

namespace Sys2Proof.Machine

@[simp] theorem Memory.read_nil (i : Nat) : Memory.read [] i = none := rfl

theorem Memory.read_write_same (m : Memory) (i : Nat) (c : Character) : (m.write i c).read i = some c := by
  induction m with
  | nil => simp [Memory.write, Memory.read]
  | cons e m ih =>
    obtain ⟨j, d⟩ := e
    simp only [Memory.write]
    split
    · simp [Memory.read]
    · split
      · simp [Memory.read]
      · rename_i h
        simp [Memory.read, Ne.symm h, ih]

theorem Memory.read_write_other (m : Memory) (i k : Nat) (c : Character) (h : k ≠ i) :
    (m.write i c).read k = m.read k := by
  induction m with
  | nil => simp [Memory.write, Memory.read, h.symm]
  | cons e m ih =>
    obtain ⟨j, d⟩ := e
    simp only [Memory.write]
    split
    · simp [Memory.read, h.symm]
    · split
      · rename_i hij
        subst hij
        simp [Memory.read, h.symm]
      · simp [Memory.read, ih]

/-- Every cell listed after a write is the written one or was listed before. -/
theorem Memory.mem_write {m : Memory} {i : Nat} {c : Character} {e : Cell} (h : e ∈ m.write i c) :
    e = (i, c) ∨ e ∈ m := by
  induction m with
  | nil => simpa [Memory.write] using h
  | cons a m ih =>
    obtain ⟨j, d⟩ := a
    simp only [Memory.write] at h
    split at h
    · simpa using h
    · split at h
      · rcases List.mem_cons.1 h with h | h
        · exact .inl h
        · exact .inr (List.mem_cons_of_mem _ h)
      · rcases List.mem_cons.1 h with h | h
        · exact .inr (h ▸ List.mem_cons_self)
        · exact (ih h).imp id (List.mem_cons_of_mem _)

/-- Every character listed by a stored text is one of the text's. -/
theorem Memory.mem_ofTextFrom {t : Text} {base : Nat} {e : Cell} (h : e ∈ Memory.ofTextFrom base t) :
    e.2 ∈ t := by
  induction t generalizing base with
  | nil => cases h
  | cons c t ih =>
    rcases List.mem_cons.1 h with rfl | h
    · exact List.mem_cons_self
    · exact List.mem_cons_of_mem _ (ih h)

/-- A read that gives a character gives one that is listed. -/
theorem Memory.mem_of_read {m : Memory} {i : Nat} {c : Character} (h : m.read i = some c) : (i, c) ∈ m := by
  induction m with
  | nil => cases h
  | cons a m ih =>
    obtain ⟨j, d⟩ := a
    simp only [Memory.read] at h
    split at h
    · rename_i hj
      subst hj
      cases h
      exact List.mem_cons_self
    · exact List.mem_cons_of_mem _ (ih h)

/-- What a cell holds is a character of the build, whatever number it was given. -/
@[simp] theorem isChar_cellOf (b : Build) (n : Nat) : b.isChar (cellOf b n) = true := by
  simp [Build.isChar, cellOf, Nat.mod_lt]

/-- A cell takes a character of the build as it is. -/
theorem cellOf_of_isChar {b : Build} {c : Character} (h : b.isChar c = true) : cellOf b c = c :=
  Nat.mod_eq_of_lt (of_decide_eq_true h)

/-- When every listed cell of IN holds a character, so does every cell: an unwritten one does by its width. -/
theorem isChar_inCell {s : State} (h : ∀ e ∈ s.inBuf, s.build.isChar e.2 = true) (i : Nat) :
    s.build.isChar (inCell s i) = true := by
  unfold inCell
  cases hr : s.inBuf.read i with
  | none => exact isChar_cellOf _ _
  | some c => exact h _ (Memory.mem_of_read hr)

/-- A write keeps the canonical form. -/
theorem Memory.write_wf {m : Memory} (h : m.wf) (i : Nat) (c : Character) : (m.write i c).wf := by
  induction m with
  | nil => simp [Memory.write]
  | cons a m ih =>
    obtain ⟨j, d⟩ := a
    obtain ⟨hj, hm⟩ := List.pairwise_cons.1 h
    simp only [Memory.write]
    split
    · rename_i hij
      refine List.pairwise_cons.2 ⟨fun e he => ?_, h⟩
      rcases List.mem_cons.1 he with rfl | he
      · exact hij
      · exact lt_trans hij (hj e he)
    · split
      · rename_i hij
        subst hij
        exact List.pairwise_cons.2 ⟨hj, hm⟩
      · refine List.pairwise_cons.2 ⟨fun e he => ?_, ih hm⟩
        rcases Memory.mem_write he with rfl | he
        · show j < i
          omega
        · exact hj e he

theorem Memory.ofTextFrom_indices (t : Text) (base : Nat) :
    (Memory.ofTextFrom base t).map Prod.fst = List.range' base t.length := by
  induction t generalizing base with
  | nil => rfl
  | cons c t ih => simp [Memory.ofTextFrom, ih, List.range'_succ]

/-- The stated cells of a stored text are exactly its indices. -/
theorem Memory.ofText_indices (t : Text) :
    (Memory.ofText t).map Prod.fst = List.range t.length := by
  simp [Memory.ofText, Memory.ofTextFrom_indices, List.range_eq_range']

/-- A stored text is in canonical form. -/
theorem Memory.ofText_wf (t : Text) : (Memory.ofText t).wf := by
  have h : ((Memory.ofText t).map Prod.fst).Pairwise (· < ·) := by
    rw [Memory.ofText_indices]
    exact List.pairwise_lt_range
  exact List.pairwise_map.1 h

theorem Memory.read_ofTextFrom (t : Text) (base i : Nat) :
    (Memory.ofTextFrom base t).read (base + i) = t[i]? := by
  induction t generalizing base i with
  | nil => rfl
  | cons c t ih =>
    cases i with
    | zero => simp [Memory.ofTextFrom, Memory.read]
    | succ i =>
      have h := ih (base + 1) i
      simp only [Memory.ofTextFrom, Memory.read, List.getElem?_cons_succ]
      rw [if_neg (by omega), ← h]
      congr 1
      omega

/-- Reading a stored text: the character of that index, no value beyond the text. -/
theorem Memory.read_ofText (t : Text) (i : Nat) : (Memory.ofText t).read i = t[i]? := by
  simpa [Memory.ofText] using Memory.read_ofTextFrom t 0 i

/-- The text of a stored text is that text: no free value is met. -/
theorem Memory.text_ofText (free : Nat → Character) (t : Text) :
    (Memory.ofText t).text free t.length = t := by
  apply List.ext_getElem?
  intro i
  simp only [Memory.text, List.getElem?_map, Memory.read_ofText]
  by_cases h : i < t.length
  · simp [h]
  · simp [h]

theorem Memory.text_length (free : Nat → Character) (m : Memory) (n : Nat) :
    (m.text free n).length = n := by simp [Memory.text]

@[simp] theorem inputText_length (s : State) : (inputText s).length = s.inLen :=
  Memory.text_length _ _ _

/-- Character `i` of the input text is what cell `i` of IN holds. -/
theorem inputText_get (s : State) (i : Nat) (h : i < s.inLen) : (inputText s)[i]? = some (inCell s i) := by
  simp [inputText, Memory.text, inCell, h]

/-- The same of the input text: all its characters are characters of the build. -/
theorem isChar_of_mem_inputText {s : State} (h : ∀ e ∈ s.inBuf, s.build.isChar e.2 = true) {c : Character}
    (hc : c ∈ inputText s) : s.build.isChar c = true := by
  obtain ⟨i, -, rfl⟩ := List.mem_map.1 hc
  exact isChar_inCell h i

/-- The memory of the state after reset is in canonical form. -/
theorem reset_memory_wf : State.reset.inBuf.wf ∧ State.reset.outBuf.wf :=
  ⟨List.Pairwise.nil, List.Pairwise.nil⟩

end Sys2Proof.Machine
end

