-- ==== Sys2Proof/Laws/State.lean ====
section
/-! SUPPORT. One lemma per field per update of the state, so that no proof unfolds a record update. -/

namespace Sys2Proof.Machine

@[simp] theorem popTurn_build (s : State) : (popTurn s).build = s.build := rfl
@[simp] theorem popTurn_cmd (s : State) : (popTurn s).cmd = s.cmd := rfl
@[simp] theorem popTurn_phase (s : State) : (popTurn s).phase = s.phase := rfl
@[simp] theorem popTurn_err (s : State) : (popTurn s).err = s.err := rfl
@[simp] theorem popTurn_inLen (s : State) : (popTurn s).inLen = s.inLen := rfl
@[simp] theorem popTurn_inBuf (s : State) : (popTurn s).inBuf = s.inBuf := rfl
@[simp] theorem popTurn_outLen (s : State) : (popTurn s).outLen = s.outLen := rfl
@[simp] theorem popTurn_outBuf (s : State) : (popTurn s).outBuf = s.outBuf := rfl
@[simp] theorem popTurn_ratioSrc (s : State) : (popTurn s).ratioSrc = s.ratioSrc := rfl
@[simp] theorem popTurn_ratioEnc (s : State) : (popTurn s).ratioEnc = s.ratioEnc := rfl
@[simp] theorem popTurn_agenda (s : State) : (popTurn s).agenda = s.agenda.tail := rfl
@[simp] theorem popTurn_reply (s : State) : (popTurn s).reply = s.reply := rfl
@[simp] theorem popTurn_draws (s : State) : (popTurn s).draws = s.draws := rfl
@[simp] theorem popTurn_epoch (s : State) : (popTurn s).epoch = s.epoch := rfl

@[simp] theorem placeCommand_build (w : BitVec 8) (s : State) :
    (placeCommand w s).build = s.build := rfl
@[simp] theorem placeCommand_cmd (w : BitVec 8) (s : State) : (placeCommand w s).cmd = w := rfl
@[simp] theorem placeCommand_phase (w : BitVec 8) (s : State) :
    (placeCommand w s).phase = .busy := rfl
@[simp] theorem placeCommand_err (w : BitVec 8) (s : State) : (placeCommand w s).err = .ok := rfl
@[simp] theorem placeCommand_inLen (w : BitVec 8) (s : State) :
    (placeCommand w s).inLen = s.inLen := rfl
@[simp] theorem placeCommand_inBuf (w : BitVec 8) (s : State) :
    (placeCommand w s).inBuf = s.inBuf := rfl
@[simp] theorem placeCommand_outLen (w : BitVec 8) (s : State) :
    (placeCommand w s).outLen = s.outLen := rfl
@[simp] theorem placeCommand_outBuf (w : BitVec 8) (s : State) :
    (placeCommand w s).outBuf = s.outBuf := rfl
@[simp] theorem placeCommand_ratioSrc (w : BitVec 8) (s : State) :
    (placeCommand w s).ratioSrc = s.ratioSrc := rfl
@[simp] theorem placeCommand_ratioEnc (w : BitVec 8) (s : State) :
    (placeCommand w s).ratioEnc = s.ratioEnc := rfl
@[simp] theorem placeCommand_agenda (w : BitVec 8) (s : State) :
    (placeCommand w s).agenda = .block :: s.agenda := rfl
@[simp] theorem placeCommand_reply (w : BitVec 8) (s : State) :
    (placeCommand w s).reply = s.reply := rfl
@[simp] theorem placeCommand_draws (w : BitVec 8) (s : State) :
    (placeCommand w s).draws = s.draws := rfl
@[simp] theorem placeCommand_epoch (w : BitVec 8) (s : State) :
    (placeCommand w s).epoch = s.epoch := rfl

@[simp] theorem failWith_build (k : Raise) (s : State) : (failWith k s).build = s.build := rfl
@[simp] theorem failWith_cmd (k : Raise) (s : State) : (failWith k s).cmd = s.cmd := rfl
@[simp] theorem failWith_phase (k : Raise) (s : State) : (failWith k s).phase = .done := rfl
@[simp] theorem failWith_err (k : Raise) (s : State) : (failWith k s).err = k.kind := rfl
@[simp] theorem failWith_inLen (k : Raise) (s : State) : (failWith k s).inLen = s.inLen := rfl
@[simp] theorem failWith_inBuf (k : Raise) (s : State) : (failWith k s).inBuf = s.inBuf := rfl
@[simp] theorem failWith_outLen (k : Raise) (s : State) : (failWith k s).outLen = 0 := rfl
@[simp] theorem failWith_outBuf (k : Raise) (s : State) : (failWith k s).outBuf = [] := rfl
@[simp] theorem failWith_ratioSrc (k : Raise) (s : State) : (failWith k s).ratioSrc = 0 := rfl
@[simp] theorem failWith_ratioEnc (k : Raise) (s : State) : (failWith k s).ratioEnc = 0 := rfl
@[simp] theorem failWith_agenda (k : Raise) (s : State) : (failWith k s).agenda = s.agenda := rfl
@[simp] theorem failWith_reply (k : Raise) (s : State) : (failWith k s).reply = s.reply := rfl
@[simp] theorem failWith_draws (k : Raise) (s : State) : (failWith k s).draws = s.draws := rfl
@[simp] theorem failWith_epoch (k : Raise) (s : State) : (failWith k s).epoch = s.epoch := rfl

@[simp] theorem completeOk_build (d : Direction) (src t : Text) (s : State) :
    (completeOk d src t s).build = s.build := rfl
@[simp] theorem completeOk_cmd (d : Direction) (src t : Text) (s : State) :
    (completeOk d src t s).cmd = s.cmd := rfl
@[simp] theorem completeOk_phase (d : Direction) (src t : Text) (s : State) :
    (completeOk d src t s).phase = .done := rfl
@[simp] theorem completeOk_err (d : Direction) (src t : Text) (s : State) :
    (completeOk d src t s).err = .ok := rfl
@[simp] theorem completeOk_inLen (d : Direction) (src t : Text) (s : State) :
    (completeOk d src t s).inLen = s.inLen := rfl
@[simp] theorem completeOk_inBuf (d : Direction) (src t : Text) (s : State) :
    (completeOk d src t s).inBuf = s.inBuf := rfl
@[simp] theorem completeOk_outLen (d : Direction) (src t : Text) (s : State) :
    (completeOk d src t s).outLen = t.length := rfl
@[simp] theorem completeOk_outBuf (d : Direction) (src t : Text) (s : State) :
    (completeOk d src t s).outBuf = Memory.ofText t := rfl
@[simp] theorem completeOk_ratioSrc_encode (src t : Text) (s : State) :
    (completeOk .encode src t s).ratioSrc = bits src := rfl
@[simp] theorem completeOk_ratioSrc_decode (src t : Text) (s : State) :
    (completeOk .decode src t s).ratioSrc = 0 := rfl
@[simp] theorem completeOk_ratioEnc_encode (src t : Text) (s : State) :
    (completeOk .encode src t s).ratioEnc = bits t := rfl
@[simp] theorem completeOk_ratioEnc_decode (src t : Text) (s : State) :
    (completeOk .decode src t s).ratioEnc = 0 := rfl
@[simp] theorem completeOk_agenda (d : Direction) (src t : Text) (s : State) :
    (completeOk d src t s).agenda = s.agenda := rfl
@[simp] theorem completeOk_reply (d : Direction) (src t : Text) (s : State) :
    (completeOk d src t s).reply = s.reply := rfl
@[simp] theorem completeOk_draws (d : Direction) (src t : Text) (s : State) :
    (completeOk d src t s).draws = s.draws := rfl
@[simp] theorem completeOk_epoch (d : Direction) (src t : Text) (s : State) :
    (completeOk d src t s).epoch = s.epoch := rfl

@[simp] theorem answer_build (r : Reply) (s : State) : (answer r s).build = s.build := rfl
@[simp] theorem answer_cmd (r : Reply) (s : State) : (answer r s).cmd = s.cmd := rfl
@[simp] theorem answer_phase (r : Reply) (s : State) : (answer r s).phase = s.phase := rfl
@[simp] theorem answer_err (r : Reply) (s : State) : (answer r s).err = s.err := rfl
@[simp] theorem answer_inLen (r : Reply) (s : State) : (answer r s).inLen = s.inLen := rfl
@[simp] theorem answer_inBuf (r : Reply) (s : State) : (answer r s).inBuf = s.inBuf := rfl
@[simp] theorem answer_outLen (r : Reply) (s : State) : (answer r s).outLen = s.outLen := rfl
@[simp] theorem answer_outBuf (r : Reply) (s : State) : (answer r s).outBuf = s.outBuf := rfl
@[simp] theorem answer_ratioSrc (r : Reply) (s : State) : (answer r s).ratioSrc = s.ratioSrc := rfl
@[simp] theorem answer_ratioEnc (r : Reply) (s : State) : (answer r s).ratioEnc = s.ratioEnc := rfl
@[simp] theorem answer_agenda (r : Reply) (s : State) : (answer r s).agenda = s.agenda := rfl
@[simp] theorem answer_reply (r : Reply) (s : State) : (answer r s).reply = some r := rfl
@[simp] theorem answer_draws (r : Reply) (s : State) : (answer r s).draws = s.draws := rfl
@[simp] theorem answer_epoch (r : Reply) (s : State) : (answer r s).epoch = s.epoch := rfl

@[simp] theorem answerDrawn_build (r : Nat → Reply) (s : State) :
    (answerDrawn r s).build = s.build := rfl
@[simp] theorem answerDrawn_cmd (r : Nat → Reply) (s : State) : (answerDrawn r s).cmd = s.cmd := rfl
@[simp] theorem answerDrawn_phase (r : Nat → Reply) (s : State) :
    (answerDrawn r s).phase = s.phase := rfl
@[simp] theorem answerDrawn_err (r : Nat → Reply) (s : State) : (answerDrawn r s).err = s.err := rfl
@[simp] theorem answerDrawn_inLen (r : Nat → Reply) (s : State) :
    (answerDrawn r s).inLen = s.inLen := rfl
@[simp] theorem answerDrawn_inBuf (r : Nat → Reply) (s : State) :
    (answerDrawn r s).inBuf = s.inBuf := rfl
@[simp] theorem answerDrawn_outLen (r : Nat → Reply) (s : State) :
    (answerDrawn r s).outLen = s.outLen := rfl
@[simp] theorem answerDrawn_outBuf (r : Nat → Reply) (s : State) :
    (answerDrawn r s).outBuf = s.outBuf := rfl
@[simp] theorem answerDrawn_ratioSrc (r : Nat → Reply) (s : State) :
    (answerDrawn r s).ratioSrc = s.ratioSrc := rfl
@[simp] theorem answerDrawn_ratioEnc (r : Nat → Reply) (s : State) :
    (answerDrawn r s).ratioEnc = s.ratioEnc := rfl
@[simp] theorem answerDrawn_agenda (r : Nat → Reply) (s : State) :
    (answerDrawn r s).agenda = s.agenda := rfl
@[simp] theorem answerDrawn_reply (r : Nat → Reply) (s : State) :
    (answerDrawn r s).reply = some (r s.draws) := rfl
@[simp] theorem answerDrawn_draws (r : Nat → Reply) (s : State) :
    (answerDrawn r s).draws = s.draws + 1 := rfl
@[simp] theorem answerDrawn_epoch (r : Nat → Reply) (s : State) :
    (answerDrawn r s).epoch = s.epoch := rfl

@[simp] theorem beginCommand_build (w : BitVec 8) (s : State) :
    (beginCommand w s).build = s.build := rfl
@[simp] theorem beginCommand_cmd (w : BitVec 8) (s : State) : (beginCommand w s).cmd = w := rfl
@[simp] theorem beginCommand_phase (w : BitVec 8) (s : State) :
    (beginCommand w s).phase = .busy := rfl
@[simp] theorem beginCommand_err (w : BitVec 8) (s : State) : (beginCommand w s).err = .ok := rfl
@[simp] theorem beginCommand_inLen (w : BitVec 8) (s : State) :
    (beginCommand w s).inLen = s.inLen := rfl
@[simp] theorem beginCommand_inBuf (w : BitVec 8) (s : State) :
    (beginCommand w s).inBuf = s.inBuf := rfl
@[simp] theorem beginCommand_outLen (w : BitVec 8) (s : State) :
    (beginCommand w s).outLen = s.outLen := rfl
@[simp] theorem beginCommand_outBuf (w : BitVec 8) (s : State) :
    (beginCommand w s).outBuf = s.outBuf := rfl
@[simp] theorem beginCommand_ratioSrc (w : BitVec 8) (s : State) :
    (beginCommand w s).ratioSrc = s.ratioSrc := rfl
@[simp] theorem beginCommand_ratioEnc (w : BitVec 8) (s : State) :
    (beginCommand w s).ratioEnc = s.ratioEnc := rfl
@[simp] theorem beginCommand_agenda (w : BitVec 8) (s : State) :
    (beginCommand w s).agenda = s.agenda := rfl
@[simp] theorem beginCommand_reply (w : BitVec 8) (s : State) :
    (beginCommand w s).reply = s.reply := rfl
@[simp] theorem beginCommand_draws (w : BitVec 8) (s : State) :
    (beginCommand w s).draws = s.draws := rfl
@[simp] theorem beginCommand_epoch (w : BitVec 8) (s : State) :
    (beginCommand w s).epoch = s.epoch := rfl

@[simp] theorem storeIn_build (i : Nat) (c : Character) (s : State) :
    (storeIn i c s).build = s.build := rfl
@[simp] theorem storeIn_cmd (i : Nat) (c : Character) (s : State) :
    (storeIn i c s).cmd = s.cmd := rfl
@[simp] theorem storeIn_phase (i : Nat) (c : Character) (s : State) :
    (storeIn i c s).phase = s.phase := rfl
@[simp] theorem storeIn_err (i : Nat) (c : Character) (s : State) :
    (storeIn i c s).err = s.err := rfl
@[simp] theorem storeIn_inLen (i : Nat) (c : Character) (s : State) :
    (storeIn i c s).inLen = s.inLen := rfl
@[simp] theorem storeIn_inBuf (i : Nat) (c : Character) (s : State) :
    (storeIn i c s).inBuf = s.inBuf.write i c := rfl
@[simp] theorem storeIn_outLen (i : Nat) (c : Character) (s : State) :
    (storeIn i c s).outLen = s.outLen := rfl
@[simp] theorem storeIn_outBuf (i : Nat) (c : Character) (s : State) :
    (storeIn i c s).outBuf = s.outBuf := rfl
@[simp] theorem storeIn_ratioSrc (i : Nat) (c : Character) (s : State) :
    (storeIn i c s).ratioSrc = s.ratioSrc := rfl
@[simp] theorem storeIn_ratioEnc (i : Nat) (c : Character) (s : State) :
    (storeIn i c s).ratioEnc = s.ratioEnc := rfl
@[simp] theorem storeIn_agenda (i : Nat) (c : Character) (s : State) :
    (storeIn i c s).agenda = s.agenda := rfl
@[simp] theorem storeIn_reply (i : Nat) (c : Character) (s : State) :
    (storeIn i c s).reply = s.reply := rfl
@[simp] theorem storeIn_draws (i : Nat) (c : Character) (s : State) :
    (storeIn i c s).draws = s.draws := rfl
@[simp] theorem storeIn_epoch (i : Nat) (c : Character) (s : State) :
    (storeIn i c s).epoch = s.epoch := rfl

@[simp] theorem storeInLen_build (n : Nat) (s : State) : (storeInLen n s).build = s.build := rfl
@[simp] theorem storeInLen_cmd (n : Nat) (s : State) : (storeInLen n s).cmd = s.cmd := rfl
@[simp] theorem storeInLen_phase (n : Nat) (s : State) : (storeInLen n s).phase = s.phase := rfl
@[simp] theorem storeInLen_err (n : Nat) (s : State) : (storeInLen n s).err = s.err := rfl
@[simp] theorem storeInLen_inLen (n : Nat) (s : State) : (storeInLen n s).inLen = n := rfl
@[simp] theorem storeInLen_inBuf (n : Nat) (s : State) : (storeInLen n s).inBuf = s.inBuf := rfl
@[simp] theorem storeInLen_outLen (n : Nat) (s : State) : (storeInLen n s).outLen = s.outLen := rfl
@[simp] theorem storeInLen_outBuf (n : Nat) (s : State) : (storeInLen n s).outBuf = s.outBuf := rfl
@[simp] theorem storeInLen_ratioSrc (n : Nat) (s : State) :
    (storeInLen n s).ratioSrc = s.ratioSrc := rfl
@[simp] theorem storeInLen_ratioEnc (n : Nat) (s : State) :
    (storeInLen n s).ratioEnc = s.ratioEnc := rfl
@[simp] theorem storeInLen_agenda (n : Nat) (s : State) : (storeInLen n s).agenda = s.agenda := rfl
@[simp] theorem storeInLen_reply (n : Nat) (s : State) : (storeInLen n s).reply = s.reply := rfl
@[simp] theorem storeInLen_draws (n : Nat) (s : State) : (storeInLen n s).draws = s.draws := rfl
@[simp] theorem storeInLen_epoch (n : Nat) (s : State) : (storeInLen n s).epoch = s.epoch := rfl

@[simp] theorem applyReset_build (s : State) : (applyReset s).build = s.build := rfl
@[simp] theorem applyReset_cmd (s : State) : (applyReset s).cmd = 0#8 := rfl
@[simp] theorem applyReset_phase (s : State) : (applyReset s).phase = .idle := rfl
@[simp] theorem applyReset_err (s : State) : (applyReset s).err = .ok := rfl
@[simp] theorem applyReset_inLen (s : State) : (applyReset s).inLen = 0 := rfl
@[simp] theorem applyReset_inBuf (s : State) : (applyReset s).inBuf = [] := rfl
@[simp] theorem applyReset_outLen (s : State) : (applyReset s).outLen = 0 := rfl
@[simp] theorem applyReset_outBuf (s : State) : (applyReset s).outBuf = [] := rfl
@[simp] theorem applyReset_ratioSrc (s : State) : (applyReset s).ratioSrc = 0 := rfl
@[simp] theorem applyReset_ratioEnc (s : State) : (applyReset s).ratioEnc = 0 := rfl
@[simp] theorem applyReset_agenda (s : State) : (applyReset s).agenda = s.agenda := rfl
@[simp] theorem applyReset_reply (s : State) : (applyReset s).reply = s.reply := rfl
@[simp] theorem applyReset_draws (s : State) : (applyReset s).draws = s.draws := rfl
@[simp] theorem applyReset_epoch (s : State) : (applyReset s).epoch = s.epoch + 1 := rfl

@[simp] theorem resetOf_build (b : Build) : (State.resetOf b).build = b := rfl
@[simp] theorem resetOf_cmd (b : Build) : (State.resetOf b).cmd = 0#8 := rfl
@[simp] theorem resetOf_phase (b : Build) : (State.resetOf b).phase = .idle := rfl
@[simp] theorem resetOf_err (b : Build) : (State.resetOf b).err = .ok := rfl
@[simp] theorem resetOf_inLen (b : Build) : (State.resetOf b).inLen = 0 := rfl
@[simp] theorem resetOf_inBuf (b : Build) : (State.resetOf b).inBuf = [] := rfl
@[simp] theorem resetOf_outLen (b : Build) : (State.resetOf b).outLen = 0 := rfl
@[simp] theorem resetOf_outBuf (b : Build) : (State.resetOf b).outBuf = [] := rfl
@[simp] theorem resetOf_ratioSrc (b : Build) : (State.resetOf b).ratioSrc = 0 := rfl
@[simp] theorem resetOf_ratioEnc (b : Build) : (State.resetOf b).ratioEnc = 0 := rfl
@[simp] theorem resetOf_agenda (b : Build) : (State.resetOf b).agenda = [] := rfl
@[simp] theorem resetOf_reply (b : Build) : (State.resetOf b).reply = none := rfl
@[simp] theorem resetOf_draws (b : Build) : (State.resetOf b).draws = 0 := rfl
@[simp] theorem resetOf_epoch (b : Build) : (State.resetOf b).epoch = 0 := rfl

/-! What a cell of IN holds, and the input text, depend on IN, IN_LEN, the build and the epoch alone. -/

@[simp] theorem popTurn_inCell (i : Nat) (s : State) : inCell (popTurn s) i = inCell s i := rfl
@[simp] theorem popTurn_inputText (s : State) : inputText (popTurn s) = inputText s := rfl
@[simp] theorem placeCommand_inCell (i : Nat) (w : BitVec 8) (s : State) :
    inCell (placeCommand w s) i = inCell s i := rfl
@[simp] theorem placeCommand_inputText (w : BitVec 8) (s : State) :
    inputText (placeCommand w s) = inputText s := rfl
@[simp] theorem failWith_inCell (i : Nat) (k : Raise) (s : State) :
    inCell (failWith k s) i = inCell s i := rfl
@[simp] theorem failWith_inputText (k : Raise) (s : State) :
    inputText (failWith k s) = inputText s := rfl
@[simp] theorem completeOk_inCell (i : Nat) (d : Direction) (src t : Text) (s : State) :
    inCell (completeOk d src t s) i = inCell s i := rfl
@[simp] theorem completeOk_inputText (d : Direction) (src t : Text) (s : State) :
    inputText (completeOk d src t s) = inputText s := rfl
@[simp] theorem answer_inCell (i : Nat) (r : Reply) (s : State) :
    inCell (answer r s) i = inCell s i := rfl
@[simp] theorem answer_inputText (r : Reply) (s : State) :
    inputText (answer r s) = inputText s := rfl
@[simp] theorem answerDrawn_inCell (i : Nat) (r : Nat → Reply) (s : State) :
    inCell (answerDrawn r s) i = inCell s i := rfl
@[simp] theorem answerDrawn_inputText (r : Nat → Reply) (s : State) :
    inputText (answerDrawn r s) = inputText s := rfl
@[simp] theorem beginCommand_inCell (i : Nat) (w : BitVec 8) (s : State) :
    inCell (beginCommand w s) i = inCell s i := rfl
@[simp] theorem beginCommand_inputText (w : BitVec 8) (s : State) :
    inputText (beginCommand w s) = inputText s := rfl
@[simp] theorem storeInLen_inCell (i : Nat) (n : Nat) (s : State) :
    inCell (storeInLen n s) i = inCell s i := rfl

end Sys2Proof.Machine
end

