-- ==== Sys2Proof/Laws/Ops.lean ====
section
/-! SUPPORT. What the shared operations can do: one lemma each for completion, the dispatch, the block's
turn and the step. -/

namespace Sys2Proof.Machine

/-- Everything completion can do (40_common.md rules R107 to R109). -/
theorem complete_cases (d : Direction) (src : Text) (r : Except Raise Text) (s : State) :
    (∃ k, r = .error k ∧ complete d src r s = failWith k s) ∨
    (∃ t, r = .ok t ∧ withinCap s.build.maxOut t.length = true ∧
      complete d src r s = completeOk d src t s) ∨
    (∃ t, r = .ok t ∧ withinCap s.build.maxOut t.length = false ∧
      complete d src r s = failWith .capacityError s) := by
  cases r with
  | error k => exact .inl ⟨k, rfl, rfl⟩
  | ok t =>
    cases h : withinCap s.build.maxOut t.length with
    | true => exact .inr (.inl ⟨t, rfl, h, by simp [complete, h]⟩)
    | false => exact .inr (.inr ⟨t, rfl, h, by simp [complete, h]⟩)

/-- After a successful completion the result text is the output. -/
@[simp] theorem outputText_completeOk (d : Direction) (src t : Text) (s : State) :
    outputText (completeOk d src t s) = t := by
  simp [outputText, Memory.text_ofText]

@[simp] theorem outputText_failWith (k : Raise) (s : State) : outputText (failWith k s) = [] := rfl

/-- The radix check of the meanings is the one of well-formedness (30_encoding.md rule R71). -/
theorem radixLegal_eq_wellFormed (b : Build) (radix : BitVec 4) :
    radixLegal b radix = (Instr.huffEnc radix).wellFormed b ∧
      radixLegal b radix = (Instr.huffDec radix).wellFormed b := ⟨rfl, rfl⟩

/-- In a legal build the legal radices are 2 to 10 (00_scope.md Table P1). -/
theorem radixLegal_iff {b : Build} (h : b.ok = true) (radix : BitVec 4) :
    radixLegal b radix = true ↔ 2 ≤ radix.toNat ∧ radix.toNat ≤ 10 := by
  simp only [Build.ok, Bool.and_eq_true, beq_iff_eq] at h
  obtain ⟨⟨⟨-, h2⟩, h10⟩, -⟩ := h
  simp [radixLegal, radixOperand, h2, h10]

/-- Everything an operation that answers a next state can do: its completion by the result of its family
function, or the radix check's failure. -/
theorem exec_cases {i : Instr} {s t : State} (h : exec i s = .next t) :
    (∃ r, t = complete i.direction (inputText s) r s) ∨ t = failWith .invalidArgument s := by
  cases i with
  | rleEnc => exact .inl ⟨_, (Host.Outcome.next.inj h).symm⟩
  | rleDec => exact .inl ⟨_, (Host.Outcome.next.inj h).symm⟩
  | lz78Enc => exact .inl ⟨_, (Host.Outcome.next.inj h).symm⟩
  | lz78Dec => exact .inl ⟨_, (Host.Outcome.next.inj h).symm⟩
  | huffEnc radix =>
    have h := (Host.Outcome.next.inj h).symm
    split at h
    · exact .inl ⟨_, h⟩
    · exact .inr h
  | huffDec radix =>
    have h := (Host.Outcome.next.inj h).symm
    split at h
    · exact .inl ⟨_, h⟩
    · exact .inr h
  | bwtEnc radix =>
    simp only [exec, execBwtEnc] at h
    split at h
    · cases h
    · exact .inl ⟨_, (Host.Outcome.next.inj h).symm⟩
  | bwtDec => exact .inl ⟨_, (Host.Outcome.next.inj h).symm⟩

/-- The one stop of the machine: BWT_ENC of a non-empty text in a build with `BWT_BLOCK = 0`. -/
theorem exec_stops {i : Instr} {s : State} (h : ∀ t, exec i s ≠ .next t) :
    (∃ radix, i = .bwtEnc radix) ∧ s.build.bwtBlock = 0 := by
  cases i with
  | bwtEnc radix =>
    refine ⟨⟨radix, rfl⟩, ?_⟩
    by_contra hb
    simp only [exec, execBwtEnc, if_neg (fun hh => hb hh.2 : ¬(inputText s ≠ [] ∧ s.build.bwtBlock = 0))] at h
    exact h _ rfl
  | rleEnc => exact absurd rfl (h _)
  | rleDec => exact absurd rfl (h _)
  | lz78Enc => exact absurd rfl (h _)
  | lz78Dec => exact absurd rfl (h _)
  | huffEnc => exact absurd rfl (h _)
  | huffDec => exact absurd rfl (h _)
  | bwtDec => exact absurd rfl (h _)

/-- Everything the block's turn can do when it answers a next state. -/
theorem blockTurn_cases {s t : State} (h : blockTurn s = .next t) :
    (s.phase ≠ .busy ∧ t = s) ∨
    (s.phase = .busy ∧ ∃ i, decodeWord s.cmd = .ok i ∧ exec i s = .next t) ∨
    (s.phase = .busy ∧ decodeWord s.cmd = .error .reservedBitSet ∧
      t = failWith .invalidArgument s) := by
  unfold blockTurn at h
  split at h
  · rename_i hp
    unfold runCommand at h
    cases hd : decodeWord s.cmd with
    | ok i =>
      rw [hd] at h
      exact .inr (.inl ⟨hp, i, rfl, h⟩)
    | error e =>
      rw [hd] at h
      have he : e = .reservedBitSet := by
        unfold decodeWord at hd
        split at hd
        · exact (Except.error.inj hd).symm
        · cases hd
      exact .inr (.inr ⟨hp, by rw [he], (Host.Outcome.next.inj h).symm⟩)
  · rename_i hp
    exact .inl ⟨by simp [hp], (Host.Outcome.next.inj h).symm⟩
  · rename_i hp
    exact .inl ⟨by simp [hp], (Host.Outcome.next.inj h).symm⟩

/-- After one cell of IN is written, that cell holds the character and every other cell what it held. -/
theorem inCell_storeIn (i : Nat) (c : Character) (s : State) (k : Nat) :
    inCell (storeIn i c s) k = if k = i then c else inCell s k := by
  split
  · rename_i h
    subst h
    simp [inCell, Memory.read_write_same]
  · rename_i h
    simp [inCell, Memory.read_write_other _ _ _ _ h, unwrittenCell]

/-- What a host action does when it is ignored: it is a write or a START that came while BUSY, or beyond a
capacity. -/
def Ignored (a : HostAction) (s : State) : Prop :=
  (s.phase = .busy ∧ ((∃ w, a = .start w) ∨ (∃ i c, a = .wrIn i c) ∨ ∃ n, a = .setInLen n)) ∨
  (∃ i c, a = .wrIn i c ∧ inRange s.build.maxIn i = false) ∨
  (∃ n, a = .setInLen n ∧ withinCap s.build.maxIn n = false)

/-- Everything a host action can do: START and the two writes take effect or are ignored, and a read answers
a stated value or a drawn one. -/
theorem hostAct_cases (a : HostAction) (s : State) :
    (∃ w, a = .start w ∧ s.phase ≠ .busy ∧ hostAct a s = beginCommand w s) ∨
    (∃ i c, a = .wrIn i c ∧ s.phase ≠ .busy ∧ inRange s.build.maxIn i = true ∧
      hostAct a s = storeIn i (cellOf s.build c) s) ∨
    (∃ n, a = .setInLen n ∧ s.phase ≠ .busy ∧ withinCap s.build.maxIn n = true ∧
      hostAct a s = storeInLen n s) ∨
    (Ignored a s ∧ hostAct a s = s) ∨
    ((∀ w, a ≠ .start w) ∧ ((∃ r, hostAct a s = answer r s) ∨ ∃ r, hostAct a s = answerDrawn r s)) := by
  cases a with
  | start w =>
    by_cases hp : s.phase = .busy
    · exact .inr (.inr (.inr (.inl ⟨.inl ⟨hp, .inl ⟨w, rfl⟩⟩, if_pos hp⟩)))
    · exact .inl ⟨w, rfl, hp, if_neg hp⟩
  | wrIn i c =>
    by_cases hp : s.phase = .busy
    · exact .inr (.inr (.inr (.inl ⟨.inl ⟨hp, .inr (.inl ⟨i, c, rfl⟩)⟩, if_pos hp⟩)))
    · cases hi : inRange s.build.maxIn i with
      | true => exact .inr (.inl ⟨i, c, rfl, hp, hi, by simp [hostAct, hostWrIn, hp, hi]⟩)
      | false =>
        exact .inr (.inr (.inr (.inl
          ⟨.inr (.inl ⟨i, c, rfl, hi⟩), by simp [hostAct, hostWrIn, hi]⟩)))
  | setInLen n =>
    by_cases hp : s.phase = .busy
    · exact .inr (.inr (.inr (.inl ⟨.inl ⟨hp, .inr (.inr ⟨n, rfl⟩)⟩, if_pos hp⟩)))
    · cases hn : withinCap s.build.maxIn n with
      | true => exact .inr (.inr (.inl ⟨n, rfl, hp, hn, by simp [hostAct, hostSetInLen, hp, hn]⟩))
      | false =>
        exact .inr (.inr (.inr (.inl
          ⟨.inr (.inr ⟨n, rfl, hn⟩), by simp [hostAct, hostSetInLen, hn]⟩)))
  | rdStatus => exact .inr (.inr (.inr (.inr ⟨nofun, .inl ⟨_, rfl⟩⟩)))
  | rdCmd => exact .inr (.inr (.inr (.inr ⟨nofun, .inl ⟨_, rfl⟩⟩)))
  | rdInLen => exact .inr (.inr (.inr (.inr ⟨nofun, .inl ⟨_, rfl⟩⟩)))
  | rdIn i =>
    refine .inr (.inr (.inr (.inr ⟨nofun, ?_⟩)))
    cases hi : inRange s.build.maxIn i with
    | true => exact .inl ⟨_, if_pos hi⟩
    | false => exact .inr ⟨_, if_neg (by simp [hi])⟩
  | rdOutLen =>
    refine .inr (.inr (.inr (.inr ⟨nofun, ?_⟩)))
    by_cases hp : s.phase = .busy
    · exact .inr ⟨_, if_pos hp⟩
    · exact .inl ⟨_, if_neg hp⟩
  | rdOut i =>
    refine .inr (.inr (.inr (.inr ⟨nofun, ?_⟩)))
    by_cases hp : s.phase = .busy
    · exact .inr ⟨_, if_pos hp⟩
    · cases hr : s.outBuf.read i with
      | none => exact .inr ⟨fun d => .cell (drawnChar s.build d), by simp [hostAct, hostRdOut, hp, hr]⟩
      | some c => exact .inl ⟨.cell c, by simp [hostAct, hostRdOut, hp, hr]⟩
  | rdRatioSrc =>
    refine .inr (.inr (.inr (.inr ⟨nofun, ?_⟩)))
    by_cases hp : s.phase = .busy
    · exact .inr ⟨_, if_pos hp⟩
    · exact .inl ⟨_, if_neg hp⟩
  | rdRatioEnc =>
    refine .inr (.inr (.inr (.inr ⟨nofun, ?_⟩)))
    by_cases hp : s.phase = .busy
    · exact .inr ⟨_, if_pos hp⟩
    · exact .inl ⟨_, if_neg hp⟩

/-- Everything a step can do when it answers a next state: the block's turn, a host action or reset, on
the state with that turn taken off the agenda. -/
theorem step_cases {s t : State} (h : step s = .next t) :
    (nextTurn s = .block ∧ blockTurn (popTurn s) = .next t) ∨
    (∃ a, nextTurn s = .host a ∧ t = hostAct a (popTurn s)) ∨
    (nextTurn s = .reset ∧ t = applyReset (popTurn s)) := by
  unfold step at h
  cases ht : nextTurn s with
  | block => rw [ht] at h; exact .inl ⟨rfl, h⟩
  | host a => rw [ht] at h; exact .inr (.inl ⟨a, rfl, (Host.Outcome.next.inj h).symm⟩)
  | reset => rw [ht] at h; exact .inr (.inr ⟨rfl, (Host.Outcome.next.inj h).symm⟩)

end Sys2Proof.Machine
end

