-- ==== Sys2Proof/Laws/PerInstr.lean ====
section
/-! SUPPORT. A law of every instruction as syntax, one lemma per constructor. -/

namespace Sys2Proof.Laws.WordFields

/-- The three fields of an operation's command word are where 30_encoding.md rule R70 puts them: `RSV` is 0,
`RADIX` is the operand and `OP` the operation's number. -/
def Statement (i : Instr) : Prop :=
  rsvField (encodeWord i) = 0#1 ∧ radixField (encodeWord i) = i.radix ∧ opField (encodeWord i) = i.op

/-- Fields of the concatenation `RSV ++ RADIX ++ OP`. -/
theorem fields_of_parts (radix : BitVec 4) (op : BitVec 3) :
    rsvField (0#1 ++ radix ++ op) = 0#1 ∧ radixField (0#1 ++ radix ++ op) = radix ∧
      opField (0#1 ++ radix ++ op) = op := by
  revert radix op
  decide

theorem rleEnc (radix : BitVec 4) : Statement (.rleEnc radix) := fields_of_parts radix _
theorem rleDec (radix : BitVec 4) : Statement (.rleDec radix) := fields_of_parts radix _
theorem lz78Enc (radix : BitVec 4) : Statement (.lz78Enc radix) := fields_of_parts radix _
theorem lz78Dec (radix : BitVec 4) : Statement (.lz78Dec radix) := fields_of_parts radix _
theorem huffEnc (radix : BitVec 4) : Statement (.huffEnc radix) := fields_of_parts radix _
theorem huffDec (radix : BitVec 4) : Statement (.huffDec radix) := fields_of_parts radix _
theorem bwtEnc (radix : BitVec 4) : Statement (.bwtEnc radix) := fields_of_parts radix _
theorem bwtDec (radix : BitVec 4) : Statement (.bwtDec radix) := fields_of_parts radix _

end Sys2Proof.Laws.WordFields
end

