-- ==== Sys2Proof/Laws/Wire.lean ====
section
/-! SUPPORT. What the shared readers of the wire grammars do: one lemma each, and the general lemma that
reading the written items gives them back. -/

namespace Sys2Proof.Machine

@[simp] theorem expect_self (c : Character) (t : Text) : expect c (c :: t) = .ok ((), t) := by
  simp [expect]

/-- `expect` succeeds on exactly the texts that begin with the character. -/
theorem expect_ok {c : Character} {t rest : Text} {u : Unit} : expect c t = .ok (u, rest) ↔ t = c :: rest := by
  cases t with
  | nil => simp [expect]
  | cons d t =>
    simp only [expect]
    split
    · rename_i h
      subst h
      simp
    · rename_i h
      simp [h]

@[simp] theorem anyChar_cons (c : Character) (t : Text) : anyChar (c :: t) = .ok (c, t) := rfl

/-- `anyChar` succeeds on exactly the non-empty texts. -/
theorem anyChar_ok {c : Character} {t rest : Text} : anyChar t = .ok (c, rest) ↔ t = c :: rest := by
  cases t with
  | nil => simp [anyChar]
  | cons d t => simp [anyChar]

/-- A run of digits before a character that is no digit is read whole (30_encoding.md rule R76). -/
theorem literal_append (ds : Text) (c : Character) (rest : Text) (hne : ds ≠ [])
    (hds : ∀ d ∈ ds, isDigit d = true) (hc : isDigit c = false) :
    literal (ds ++ c :: rest) = .ok (val ds, c :: rest) := by
  have h1 : (ds ++ c :: rest).takeWhile isDigit = ds := by
    rw [List.takeWhile_append_of_pos hds]
    simp [hc]
  have h2 : (ds ++ c :: rest).dropWhile isDigit = c :: rest := by
    rw [List.dropWhile_append_of_pos hds]
    simp [hc]
  simp [literal, h1, h2, hne]

/-- What a literal that was read looks like: a run of digits, at least one, and it is maximal. -/
theorem literal_ok {t rest : Text} {n : Nat} (h : literal t = .ok (n, rest)) :
    ∃ ds, ds ≠ [] ∧ (∀ d ∈ ds, isDigit d = true) ∧ t = ds ++ rest ∧ n = val ds ∧
      (∀ c ∈ rest.head?, isDigit c = false) := by
  simp only [literal] at h
  split at h
  · cases h
  · rename_i hne
    simp only [Except.ok.injEq, Prod.mk.injEq] at h
    refine ⟨_, hne, fun d hd => ?_, ?_, h.1.symm, fun c hc => ?_⟩
    · exact List.mem_takeWhile_imp hd
    · rw [← h.2, List.takeWhile_append_dropWhile]
    · rw [← h.2] at hc
      have := List.head?_dropWhile_not isDigit t
      rw [Option.mem_def] at hc
      simpa [hc] using this

/-- Reading the concatenation of written items gives the items back, when each item is read back whole
whatever follows it. -/
theorem readAll_flatMap {α : Type} (item : Reader α) (write : α → Text) (as : List α)
    (hne : ∀ a ∈ as, write a ≠ [])
    (hread : ∀ a ∈ as, ∀ rest, item (write a ++ rest) = .ok (a, rest)) (fuel : Nat)
    (hfuel : (as.flatMap write).length ≤ fuel) : readAll item fuel (as.flatMap write) = .ok as := by
  induction as generalizing fuel with
  | nil => cases fuel <;> rfl
  | cons a as ih =>
    have hw := hne a List.mem_cons_self
    obtain ⟨c, u, hcu⟩ := List.exists_cons_of_ne_nil hw
    have hr := hread a List.mem_cons_self (as.flatMap write)
    simp only [List.flatMap_cons, hcu, List.cons_append, List.length_cons, List.length_append] at hfuel hr ⊢
    cases fuel with
    | zero => omega
    | succ fuel =>
      have := ih (fun b hb => hne b (List.mem_cons_of_mem _ hb))
        (fun b hb => hread b (List.mem_cons_of_mem _ hb)) fuel (by omega)
      simp [readAll, hr, this]

/-- The same from the outside: `( item )+` on the concatenation of at least one written item. -/
theorem readSome_flatMap {α : Type} (item : Reader α) (write : α → Text) (as : List α) (has : as ≠ [])
    (hne : ∀ a ∈ as, write a ≠ [])
    (hread : ∀ a ∈ as, ∀ rest, item (write a ++ rest) = .ok (a, rest)) :
    readSome item (as.flatMap write) = .ok as := by
  have hn : as.flatMap write ≠ [] := by
    obtain ⟨a, l, rfl⟩ := List.exists_cons_of_ne_nil has
    simp [hne a List.mem_cons_self]
  rw [readSome, if_neg hn]
  exact readAll_flatMap item write as hne hread _ le_rfl

end Sys2Proof.Machine
end

