-- ==== Sys2Proof/Tests/Slice0.lean ====
section
/-! SUPPORT. The model's own tests: expected results from the spec's texts and tables (95_test_vectors.md and
the examples inside the rules), never from the model. -/

namespace Sys2Proof.Tests

open Sys2Proof.Machine

/-! ### Helpers -/

/-- The characters of a string (30_encoding.md rule R73). -/
def txt (s : String) : Text := s.toList.map fun c => c.toNat

/-- A dictionary text around its entries. -/
def braced (s : String) : Text := [lbrace] ++ txt s ++ [rbrace]

/-- A build of the vectors: `BWT_BLOCK = B`, capacities as given, the values of Table P1 elsewhere. -/
def build (B : Nat) (maxIn maxOut numMax : Option Nat) : Build :=
  { charW := 8, maxIn := maxIn, maxOut := maxOut, numMax := numMax, bwtBlock := B, lzSentinel := 0x00,
    radixMin := 2, radixMax := 10, bwtWorkers := 1 }

/-- A state with the text loaded and the command started, the block's turn next. -/
def started (b : Build) (w : BitVec 8) (t : Text) : State :=
  { State.resetOf b with inBuf := Memory.ofText t, inLen := t.length, cmd := w, phase := .busy }

/-- What a host sees of a completed operation. -/
structure Seen where
  err : ErrKind
  out : Text
  ratioSrc : Nat
  ratioEnc : Nat
deriving DecidableEq, Repr

/-- What the host reads after one step: ERR, the result text and the two ratio registers. -/
def observed (o : Host.Outcome State Fault Refusal) : Option Seen :=
  match o with
  | .next s => if s.phase = .done then some ⟨s.err, outputText s, s.ratioSrc, s.ratioEnc⟩ else none
  | .fault _ => none
  | .refused _ => none

/-- One operation in the reference instance with `BWT_BLOCK = B`. -/
def result (B : Nat) (w : BitVec 8) (t : Text) : Option Seen :=
  observed (step (started (build B none none none) w t))

/-- The results of a failed operation (40_common.md rule R108). -/
def failed (e : ErrKind) : Option Seen := some ⟨e, [], 0, 0⟩

/-! ### Well-formedness and decoding -/

/-- 30_encoding.md rule R71: radix 1 and radix 11 are refused, for both Huffman operations. -/
theorem test_illFormed_radix :
    (Instr.huffEnc 1).wellFormed Build.reference = false ∧ (Instr.huffDec 1).wellFormed Build.reference = false ∧
    (Instr.huffEnc 11).wellFormed Build.reference = false ∧ (Instr.huffDec 11).wellFormed Build.reference = false ∧
    (Instr.huffEnc 2).wellFormed Build.reference = true ∧ (Instr.huffDec 10).wellFormed Build.reference = true ∧
    (Instr.bwtEnc 15).wellFormed Build.reference = true := by decide

/-- Table E1, bit 7 to bit 0 written out: one word per operation, and a reserved one. -/
theorem test_decode_words :
    decodeWord 0b00000000#8 = .ok (.rleEnc 0) ∧ decodeWord 0b01111001#8 = .ok (.rleDec 15) ∧
    decodeWord 0b00001010#8 = .ok (.lz78Enc 1) ∧ decodeWord 0b00000011#8 = .ok (.lz78Dec 0) ∧
    decodeWord 0b00010100#8 = .ok (.huffEnc 2) ∧ decodeWord 0b01010101#8 = .ok (.huffDec 10) ∧
    decodeWord 0b00111110#8 = .ok (.bwtEnc 7) ∧ decodeWord 0b00000111#8 = .ok (.bwtDec 0) ∧
    decodeWord 0b10000001#8 = .error .reservedBitSet := by decide

/-- The command words of 95_test_vectors.md part 6. -/
theorem test_encode_words :
    encode (.huffEnc 3) = [0x1C#8] ∧ encode (.huffDec 2) = [0x15#8] ∧ encode (.huffEnc 10) = [0x54#8] ∧
    encode (.bwtDec 0) = [0x07#8] ∧ decode [] = .error .noCommandWord := by decide

/-- The table's numbering, and a word longer than the table's eight bits. -/
theorem test_decodeTableWord :
    decodeTableWord 8 0x1C = some (.huffEnc 3) ∧ decodeTableWord 8 0x80 = none ∧
    decodeTableWord 8 0x107 = some (.bwtDec 0) := by decide

/-- Every table row runs as the first instruction after reset (40_common.md rule R104 gives the results on
the empty text). -/
theorem test_first_instruction_after_reset :
    observed (step (State.reset.withFetchWord 8 0x00)) = failed .invalidArgument ∧
    observed (step (State.reset.withFetchWord 8 0x01)) = failed .formatError ∧
    observed (step (State.reset.withFetchWord 8 0x02)) = some ⟨.ok, txt "(0," ++ [0x00] ++ txt ")", 0, 15⟩ ∧
    observed (step (State.reset.withFetchWord 8 0x03)) = failed .formatError ∧
    observed (step (State.reset.withFetchWord 8 0x14)) = failed .invalidArgument ∧
    observed (step (State.reset.withFetchWord 8 0x15)) = failed .formatError ∧
    observed (step (State.reset.withFetchWord 8 0x06)) = failed .invalidArgument ∧
    observed (step (State.reset.withFetchWord 8 0x07)) = failed .formatError := by decide +kernel

/-! ### RLE (95_test_vectors.md part 2) -/

theorem test_rleEnc :
    result 8 0x00#8 (txt "aaabbbccd") = some ⟨.ok, txt "(a,3)(b,3)(c,2)(d,1)", 18, 80⟩ ∧
    result 8 0x78#8 (txt "aaaaaaaaaaaa") = some ⟨.ok, txt "(a,12)", 12, 18⟩ ∧
    result 8 0x00#8 (txt "((,,))") = some ⟨.ok, txt "((,2)(,,2)(),2)", 12, 30⟩ := by decide +kernel

theorem test_rleDec :
    result 8 0x01#8 (txt "(a,3)(b,3)(c,2)(d,1)") = some ⟨.ok, txt "aaabbbccd", 0, 0⟩ ∧
    result 8 0x01#8 (txt "(a,0)") = some ⟨.ok, [], 0, 0⟩ ∧
    result 8 0x01#8 (txt "(a,03)") = some ⟨.ok, txt "aaa", 0, 0⟩ ∧
    result 8 0x01#8 (txt "(),2)") = some ⟨.ok, txt "))", 0, 0⟩ := by decide +kernel

theorem test_rleDec_formatErrors :
    ∀ t ∈ ["", "(a,3", "a,3)", "(a,)", "(ab,3)", "(a,3)x", "(a,3) ", "(a;3)", "(a,-1)", "(a,3)("],
      result 8 0x01#8 (txt t) = failed .formatError := by decide +kernel

/-! ### LZ78 (part 3) -/

theorem test_lz78Enc :
    result 8 0x02#8 (txt "abababab") =
      some ⟨.ok, txt "(0,a)(0,b)(1,b)(3,a)(2," ++ [0x00] ++ txt ")", 8, 100⟩ ∧
    result 8 0x02#8 (txt "ab") = some ⟨.ok, txt "(0,a)(0,b)", 2, 30⟩ ∧
    result 8 0x02#8 (txt "a" ++ [0x00]) = failed .invalidArgument := by decide +kernel

theorem test_lz78Dec :
    result 8 0x03#8 (txt "(0,a)(1,a)(1," ++ [0x00] ++ txt ")") = some ⟨.ok, txt "aaaa", 0, 0⟩ ∧
    result 8 0x03#8 (txt "(00,a)(01,b)") = some ⟨.ok, txt "aab", 0, 0⟩ ∧
    result 8 0x03#8 (txt "(0,a)(2,b)") = failed .formatError ∧
    result 8 0x03#8 (txt "(0," ++ [0x00] ++ txt ")(0,a)") = failed .formatError := by decide +kernel

/-- 70_reset_and_hazards.md rule R264: a decoder built with another terminator. -/
theorem test_lz78Dec_otherSentinel :
    observed (step (started { build 8 none none none with lzSentinel := 0x24 } 0x03#8
      (txt "(0,a)(1,a)(1," ++ [0x00] ++ txt ")"))) =
      some ⟨.ok, txt "aaaa" ++ [0x00], 0, 0⟩ := by decide +kernel

/-! ### Huffman (part 4) -/

theorem test_huffEnc :
    result 8 0x14#8 (txt "aaabbbccd") =
      some ⟨.ok, txt "101010111111010100" ++ braced "[a-3][b-3][c-2][d-1]", 18, 160⟩ ∧
    result 8 0x24#8 (txt "abcdef") =
      some ⟨.ok, txt "303132012" ++ braced "[a-1][b-1][c-1][d-1][e-1][f-1]", 18, 164⟩ ∧
    result 8 0x14#8 (txt "aaaa") = some ⟨.ok, txt "0000" ++ braced "[a-4]", 4, 33⟩ := by decide +kernel

/-- 70_reset_and_hazards.md rule R262 (a radix mismatch) and 43_huffman.md rule R176. -/
theorem test_huffDec :
    result 8 0x15#8 (txt "101010111111010100" ++ braced "[a-3][b-3][c-2][d-1]") =
      some ⟨.ok, txt "aaabbbccd", 0, 0⟩ ∧
    result 8 0x1D#8 (txt "101010111111010100" ++ braced "[a-3][b-3][c-2][d-1]") =
      some ⟨.ok, txt "babababbbbbbababaa", 0, 0⟩ ∧
    result 8 0x15#8 (txt "01" ++ braced "[b-1][a-1]") = some ⟨.ok, txt "ab", 0, 0⟩ ∧
    result 8 0x15#8 (txt "0" ++ [lbrace] ++ txt "[" ++ [lbrace] ++ txt "-1][" ++ [rbrace] ++ txt "-2]" ++
      [rbrace]) = some ⟨.ok, [lbrace], 0, 0⟩ := by decide +kernel

theorem test_huffDec_errors :
    result 8 0x15#8 (txt "0101") = failed .formatError ∧
    result 8 0x15#8 (txt "1" ++ braced "[a-4]") = failed .formatError ∧
    result 8 0x15#8 (txt "0" ++ braced "[a-0][b-1]") = failed .formatError ∧
    result 8 0x15#8 (txt "0" ++ braced "[a-1][a-2]") = failed .formatError ∧
    result 8 0x15#8 (txt "0" ++ braced "[a-1] [b-1]") = failed .formatError ∧
    result 8 0x5D#8 (txt "0101") = failed .invalidArgument ∧
    result 8 0xDD#8 (txt "0101") = failed .invalidArgument := by decide +kernel

/-! ### BWT (part 5) -/

theorem test_bwtEnc :
    result 8 0x06#8 (txt "banana") = some ⟨.ok, txt "(nnbaaa,3)", 12, 30⟩ ∧
    result 4 0x3E#8 (txt "banana") = some ⟨.ok, txt "(nbaa,2)(na,1)", 12, 42⟩ ∧
    result 8 0x06#8 (txt "abab") = some ⟨.ok, txt "(bbaa,0)", 4, 24⟩ ∧
    result 4 0x06#8 (txt "ab,0)(cd") = some ⟨.ok, txt "(b,0a,2)()d(c,1)", 24, 64⟩ := by decide +kernel

theorem test_bwtDec :
    result 4 0x07#8 (txt "(nbaa,2)(na,1)") = some ⟨.ok, txt "banana", 0, 0⟩ ∧
    result 6 0x07#8 (txt "(nnbaaa,3)") = some ⟨.ok, txt "banana", 0, 0⟩ ∧
    result 8 0x07#8 (txt "()(,1)(,,1)") = some ⟨.ok, txt "(,1),)(", 0, 0⟩ ∧
    result 16 0x07#8 (txt "(nbaa,2)(na,1)") = some ⟨.ok, txt "nn(b)ann(b", 0, 0⟩ := by decide +kernel

theorem test_bwtDec_formatErrors :
    result 4 0x07#8 (txt "(nnbaaa,3)") = failed .formatError ∧
    result 8 0x07#8 (txt "(nnb,1)(aaa,0)") = failed .formatError ∧
    ∀ t ∈ ["", "(,0)", "(ab,0", "(ab0)", "(ab,)", "ab,0)", "(ab,0)x", "(nnbaaa,6)"],
      result 8 0x07#8 (txt t) = failed .formatError := by decide +kernel

/-! ### Capacities, STATUS, host actions (part 6 and 7) -/

/-- Part 6, a bounded build: capacity is judged after format. -/
theorem test_capacity :
    observed (step (started (build 8 none (some 16) none) 0x00#8 (txt "aaabbbccd"))) =
      failed .capacityError ∧
    observed (step (started (build 8 none (some 16) none) 0x01#8 (txt "(a,17)"))) =
      failed .capacityError ∧
    observed (step (started (build 8 none (some 16) none) 0x01#8 (txt "(a,17"))) = failed .formatError ∧
    observed (step (started (build 8 none none (some 255)) 0x01#8 (txt "(a,256)"))) =
      failed .capacityError ∧
    observed (step (started (build 8 none none (some 255)) 0x01#8 (txt "(a,0256)x"))) =
      failed .formatError := by decide +kernel

/-- Part 6: the values of STATUS. -/
theorem test_status_values :
    State.reset.statusWord = 0x0#4 ∧
    (started Build.reference 0x00#8 []).statusWord = 0x1#4 ∧
    (completeOk .encode [] [] State.reset).statusWord = 0x2#4 ∧
    (failWith .invalidArgument State.reset).statusWord = 0x6#4 ∧
    (failWith .formatError State.reset).statusWord = 0xA#4 ∧
    (failWith .capacityError State.reset).statusWord = 0xE#4 := by decide

/-- Part 6: `W`. -/
theorem test_width :
    [0, 1, 2, 3, 4, 5, 8, 9, 16, 17, 256].map width = [1, 1, 1, 2, 2, 3, 3, 4, 4, 5, 8] := by decide

/-- 30_encoding.md rules R75, R76. -/
theorem test_literals :
    dec 3 = txt "3" ∧ dec 12 = txt "12" ∧ dec 100 = txt "100" ∧ val (txt "03") = 3 ∧
    val (txt "000") = 0 := by decide

/-- The one step of a host action on a started state (program 5 of part 7). -/
def afterHost (a : HostAction) (s : State) : State := hostAct a (popTurn s)

/-- A BUSY state whose next turn is the given one. -/
def busyWith (turn : Turn) : State :=
  { started (build 8 (some 4) (some 40) (some 9)) 0x1C#8 (txt "abra") with agenda := [turn] }

/-- An idle state whose next turn is the given one. -/
def idleWith (turn : Turn) : State :=
  { State.resetOf (build 8 (some 4) (some 40) (some 9)) with agenda := [turn] }

/-- A completed state whose next turn is the given one. -/
def doneWith (turn : Turn) : State :=
  { completeOk .encode (txt "aa") (txt "(a,2)") (idleWith turn) with cmd := 0x00#8 }

/-- 10_state.md rule R33: START and the writes while BUSY. -/
theorem test_busy_writes_lost :
    afterHost (.start 0x00#8) (busyWith .block) = popTurn (busyWith .block) ∧
    afterHost (.wrIn 0 0x7A) (busyWith .block) = popTurn (busyWith .block) ∧
    afterHost (.setInLen 1) (busyWith .block) = popTurn (busyWith .block) := by decide +kernel

/-- 20_memory.md rule R54, 10_state.md rule R23: with `MAX_IN = 4`, index 3 and length 4 are the last legal. -/
theorem test_host_writes_at_capacity :
    (afterHost (.wrIn 3 0x7A) (idleWith .block)).inBuf = [(3, 0x7A)] ∧
    (afterHost (.wrIn 4 0x7A) (idleWith .block)).inBuf = [] ∧
    (afterHost (.setInLen 4) (idleWith .block)).inLen = 4 ∧
    (afterHost (.setInLen 5) (idleWith .block)).inLen = 0 := by decide

/-- 00_scope.md rules R7, R10: in a build of 9-bit characters the value 0x100 is a character like any other, of
the length and the ratio 41_rle.md rule R121 and 40_common.md rule R102 give, and 0x200 is none. -/
theorem test_character_width :
    ({ build 8 none none none with charW := 9 } : Build).isChar 0x100 = true ∧
    ({ build 8 none none none with charW := 9 } : Build).isChar 0x200 = false ∧
    observed (step (started { build 8 none none none with charW := 9 } 0x00#8 [0x100, 0x100])) =
      some ⟨.ok, txt "(" ++ [0x100] ++ txt ",2)", 2, 15⟩ ∧
    (afterHost (.wrIn 0 0x7F) { idleWith .block with build := { build 8 none none none with charW := 7 } }).inBuf =
      [(0, 0x7F)] := by decide +kernel

/-- 10_state.md rules R30, R34: START from DONE, and reads of STATUS and of OUT. -/
theorem test_start_and_reads :
    (afterHost (.start 0x15#8) (doneWith .block)).statusWord = 0x1#4 ∧
    (afterHost .rdStatus (doneWith .block)).reply = some (.status 0x2#4) ∧
    (afterHost (.rdOut 3) (doneWith .block)).reply = some (.cell 0x32) ∧
    (afterHost .rdOutLen (doneWith .block)).reply = some (.number 5) := by decide +kernel

/-- 70_reset_and_hazards.md rule R251: reset while BUSY. -/
theorem test_reset_while_busy :
    (applyReset (busyWith .reset)).statusWord = 0x0#4 ∧ (applyReset (busyWith .reset)).inLen = 0 ∧
    (applyReset (busyWith .reset)).build = (busyWith .reset).build := by decide

end Sys2Proof.Tests
end

