-- ==== Sys2Proof/Tests/Witnesses.lean ====
section
/-! SUPPORT. For every statement with hypotheses, a concrete state and operands that meet them together,
clause by clause at boundary values. -/

namespace Sys2Proof.Tests

open Sys2Proof.Machine

/-- A capacity build: MAX_IN = 4, MAX_OUT = 40, NUM_MAX = 9, BWT_BLOCK = 8. -/
def small : Build := build 8 (some 4) (some 40) (some 9)

/-- A legal build whose outputs may hold exactly `n` characters. -/
def outOnly (n : Nat) : Build := build 4 none (some n) none

theorem witness_CommandWordRoundTrip : decodeWord 0x1C#8 = .ok (.huffEnc 3) := by decide

theorem witness_OpcodeTableRowsDecode :
    0x78#8 &&& 0x87#8 = 0x00#8 ∧ 0x79#8 &&& 0x87#8 = 0x01#8 ∧ 0x02#8 &&& 0x87#8 = 0x02#8 ∧
    0x03#8 &&& 0x87#8 = 0x03#8 ∧ 0x14#8 &&& 0x87#8 = 0x04#8 ∧ 0x55#8 &&& 0x87#8 = 0x05#8 ∧
    0x3E#8 &&& 0x87#8 = 0x06#8 ∧ 0x07#8 &&& 0x87#8 = 0x07#8 ∧ 0xFF#8 &&& 0x80#8 = 0x80#8 := by decide

theorem witness_StepRunsTheCommand :
    (busyWith .block).phase = .busy ∧ nextTurn (busyWith .block) = .block ∧
    decodeWord (busyWith .block).cmd = .ok (.huffEnc 3) := by decide

theorem witness_ReservedCommandFails :
    (started small 0x80#8 []).phase = .busy ∧ nextTurn (started small 0x80#8 []) = .block ∧
    (started small 0x80#8 []).cmd.getLsbD 7 = true := by decide

theorem witness_ResetLeavesTheResetState : nextTurn (busyWith .reset) = .reset := by decide

theorem witness_ResetMeetsInvariant : small.ok = true ∧ (build 1 none none none).ok = true := by decide

theorem busyWith_inv_block :
    (busyWith .block).build.ok = true ∧ (busyWith .block).inBuf.wf ∧
    (∀ c ∈ (busyWith .block).inBuf, inRange (busyWith .block).build.maxIn c.1 = true) ∧
    (∀ c ∈ (busyWith .block).inBuf, (busyWith .block).build.isChar c.2 = true) ∧
    withinCap (busyWith .block).build.maxIn (busyWith .block).inLen = true ∧
    withinCap (busyWith .block).build.maxOut (busyWith .block).outLen = true := by decide

theorem busyWith_inv (turn : Turn) : (busyWith turn).Inv where
  build_ok := (busyWith_inv_block).1
  in_wf := (busyWith_inv_block).2.1
  in_range := (busyWith_inv_block).2.2.1
  in_chars := (busyWith_inv_block).2.2.2.1
  out_chars := nofun
  inLen_legal := (busyWith_inv_block).2.2.2.2.1
  outLen_legal := (busyWith_inv_block).2.2.2.2.2
  out_exact := rfl
  busy_ok _ := rfl
  idle_reset h := nomatch h
  failed_empty h := absurd rfl h
  ratioSrc_le _ _ := Nat.zero_le _
  ratioEnc_le _ _ := Nat.zero_le _
  decode_ratio h := nomatch h
  encode_size h := nomatch h

/-- The narrowest build Table P1 allows: its greatest character is 0x7F. -/
theorem witness_narrow_build : ({ small with charW := 7 } : Build).ok = true ∧
    ({ small with charW := 7 } : Build).isChar 0x7F = true ∧
    ({ small with charW := 7 } : Build).isChar 0x80 = false ∧
    ({ small with charW := 6 } : Build).ok = false := by decide

/-- The block's turn, a START that is lost, and reset, on a state that meets the invariant. -/
theorem witness_StepKeepsInvariant :
    (∃ t, (busyWith .block).Inv ∧ step (busyWith .block) = .next t) ∧
    (∃ t, (busyWith (.host (.start 0))).Inv ∧ step (busyWith (.host (.start 0))) = .next t) ∧
    ∃ t, (busyWith .reset).Inv ∧ step (busyWith .reset) = .next t :=
  ⟨⟨_, busyWith_inv _, rfl⟩, ⟨_, busyWith_inv _, rfl⟩, ⟨_, busyWith_inv _, rfl⟩⟩

theorem witness_LegalBuildNeverStops : (busyWith .block).build.ok = true := by decide

theorem witness_BusyPeriodEnds :
    (busyWith (.host .rdStatus)).build.ok = true ∧ (busyWith (.host .rdStatus)).phase = .busy ∧
    Turn.reset ∉ (busyWith (.host .rdStatus)).agenda := by decide

/-- Each transition of rule R32, and a turn that makes none. -/
theorem witness_PhaseTransitions :
    (∃ t, step (doneWith .reset) = .next t ∧ nextTurn (doneWith .reset) = .reset ∧
      t.phase ≠ (doneWith .reset).phase) ∧
    (∃ t, step (idleWith (.host (.start 0))) = .next t ∧
      nextTurn (idleWith (.host (.start 0))) = .host (.start 0) ∧
      t.phase ≠ (idleWith (.host (.start 0))).phase) ∧
    (∃ t, step (busyWith .block) = .next t ∧ nextTurn (busyWith .block) = .block ∧
      (busyWith .block).phase = .busy ∧ t.phase ≠ (busyWith .block).phase) :=
  ⟨⟨_, rfl, by decide⟩, ⟨_, rfl, by decide⟩, ⟨_, rfl, by decide +kernel⟩⟩

/-- A change of each register and of a cell of each buffer. -/
theorem witness_WhoChangesWhat :
    (∃ t, step (idleWith (.host (.start 7))) = .next t ∧ t.cmd ≠ (idleWith (.host (.start 7))).cmd) ∧
    (∃ t, step (started small 0x80#8 []) = .next t ∧ t.err ≠ (started small 0x80#8 []).err) ∧
    (∃ t, step (idleWith (.host (.setInLen 4))) = .next t ∧
      t.inLen ≠ (idleWith (.host (.setInLen 4))).inLen) ∧
    (∃ t, step (idleWith (.host (.wrIn 3 1))) = .next t ∧
      t.inBuf.read 3 ≠ (idleWith (.host (.wrIn 3 1))).inBuf.read 3) ∧
    (∃ t, step (started small 0x00#8 (txt "a")) = .next t ∧
      t.outLen ≠ (started small 0x00#8 (txt "a")).outLen ∧
      t.outBuf.read 4 ≠ (started small 0x00#8 (txt "a")).outBuf.read 4) :=
  ⟨⟨_, rfl, by decide⟩, ⟨_, rfl, by decide⟩, ⟨_, rfl, by decide⟩, ⟨_, rfl, by decide⟩,
    ⟨_, rfl, by decide +kernel⟩⟩

theorem witness_StartBeginsTheOperation :
    nextTurn (doneWith (.host (.start 0x15#8))) = .host (.start 0x15#8) ∧
    (doneWith (.host (.start 0x15#8))).phase ≠ .busy := by decide

theorem witness_BusyWritesAreLost :
    (busyWith (.host (.start 0))).phase = .busy ∧
    nextTurn (busyWith (.host (.start 0))) = .host (.start 0) ∧
    nextTurn (busyWith (.host (.wrIn 0 0))) = .host (.wrIn 0 0) ∧
    nextTurn (busyWith (.host (.setInLen 1))) = .host (.setInLen 1) := by decide

/-- MAX_IN = 4: index 3 and length 4 are legal, index 4 and length 5 are not. -/
theorem witness_HostWritesInput :
    (idleWith .block).phase ≠ .busy ∧
    nextTurn (idleWith (.host (.wrIn 3 1))) = .host (.wrIn 3 1) ∧
    (idleWith .block).build.isChar 0xFF = true ∧ (idleWith .block).build.isChar 0x100 = false ∧
    inRange (idleWith .block).build.maxIn 3 = true ∧ inRange (idleWith .block).build.maxIn 4 = false ∧
    nextTurn (idleWith (.host (.setInLen 4))) = .host (.setInLen 4) ∧
    withinCap (idleWith .block).build.maxIn 4 = true ∧
    withinCap (idleWith .block).build.maxIn 5 = false := by decide

/-- Every exact read, the indexed ones at the last cell. -/
theorem witness_HostReadsReturn :
    nextTurn (busyWith (.host .rdStatus)) = .host .rdStatus ∧
    nextTurn (busyWith (.host .rdCmd)) = .host .rdCmd ∧
    nextTurn (busyWith (.host .rdInLen)) = .host .rdInLen ∧
    nextTurn (busyWith (.host (.rdIn 3))) = .host (.rdIn 3) ∧
    inRange (busyWith .block).build.maxIn 3 = true ∧
    (doneWith .block).phase ≠ .busy ∧
    nextTurn (doneWith (.host .rdOutLen)) = .host .rdOutLen ∧
    nextTurn (doneWith (.host .rdRatioSrc)) = .host .rdRatioSrc ∧
    nextTurn (doneWith (.host .rdRatioEnc)) = .host .rdRatioEnc ∧
    nextTurn (doneWith (.host (.rdOut 4))) = .host (.rdOut 4) ∧
    (doneWith .block).outBuf.read 4 = some 0x29 := by decide

/-- The first cell of IN and of OUT that has no stated value, and the reads while BUSY. -/
theorem witness_UnspecifiedReadsReturnSomeValue :
    (busyWith .block).phase = .busy ∧ nextTurn (busyWith (.host .rdOutLen)) = .host .rdOutLen ∧
    nextTurn (busyWith (.host .rdRatioSrc)) = .host .rdRatioSrc ∧
    nextTurn (busyWith (.host (.rdOut 0))) = .host (.rdOut 0) ∧
    (doneWith .block).outBuf.read 5 = none ∧
    nextTurn (doneWith (.host (.rdOut 5))) = .host (.rdOut 5) ∧
    inRange (idleWith .block).build.maxIn 4 = false ∧
    nextTurn (idleWith (.host (.rdIn 4))) = .host (.rdIn 4) := by decide

theorem witness_StatusRegisterLayout : (busyWith .block).Inv ∧ (busyWith .block).phase = .busy :=
  ⟨busyWith_inv _, rfl⟩

theorem witness_DoneSignal :
    (doneWith .block).doneSignal = true ∧ (busyWith .block).doneSignal = false ∧
    (∃ t, step (doneWith .reset) = .next t ∧ nextTurn (doneWith .reset) = .reset) ∧
    ∃ t, step (doneWith (.host (.start 0))) = .next t ∧
      nextTurn (doneWith (.host (.start 0))) = .host (.start 0) :=
  ⟨by decide, by decide, ⟨_, rfl, rfl⟩, ⟨_, rfl, rfl⟩⟩

/-- A text of exactly MAX_IN characters over a buffer that holds another. -/
theorem witness_LoadPutsTheText :
    (doneWith .block).phase ≠ .busy ∧ withinCap (doneWith .block).build.maxIn (txt "abcd").length = true ∧
    (∀ c ∈ txt "abcd", (doneWith .block).build.isChar c = true) ∧
    ({ doneWith .block with agenda := loadTurns (txt "abcd") ++ [Turn.block] } : State).agenda =
      loadTurns (txt "abcd") ++ [Turn.block] := by decide

/-- An encode that succeeds, a decode, and a failed encode. -/
theorem witness_RatioRegisters :
    (∃ t, exec (.rleEnc 0) (started small 0 (txt "a")) = .next t ∧ t.err = .ok) ∧
    (∃ t, exec (.rleDec 0) (started small 1 (txt "(a,2)")) = .next t ∧ t.err = .ok) ∧
    ∃ t, exec (.rleEnc 0) (started small 0 []) = .next t ∧ t.err ≠ .ok :=
  ⟨⟨_, rfl, by decide⟩, ⟨_, rfl, by decide +kernel⟩, ⟨_, rfl, by decide⟩⟩

/-- The shortest output, and the empty LZ78 source with its numerator of 0. -/
theorem witness_EncodedTextNeverEmpty :
    (∃ t, exec (.bwtEnc 0) (started small 6 (txt "a")) = .next t ∧ Instr.direction (.bwtEnc 0) = .encode ∧
      t.err = .ok) ∧
    ∃ t, exec (.lz78Enc 0) (started small 2 []) = .next t ∧ t.err = .ok ∧ t.ratioSrc = 0 :=
  ⟨⟨_, rfl, rfl, by decide +kernel⟩, ⟨_, rfl, by decide +kernel⟩⟩

/-- The empty input with an output buffer of exactly five characters, and the four radix boundaries. -/
theorem witness_EmptyInputResults :
    (outOnly 5).ok = true ∧ (started (outOnly 5) 2 []).inLen = 0 ∧ withinCap (outOnly 5).maxOut 5 = true ∧
    (2 ≤ (2#4).toNat ∧ (2#4).toNat ≤ 10) ∧ (2 ≤ (10#4).toNat ∧ (10#4).toNat ≤ 10) ∧
    (1#4).toNat < 2 ∧ 10 < (11#4).toNat := by decide

theorem witness_FailedCompletion :
    ∃ t, (started small 1 (txt "(a,2")).phase = .busy ∧ nextTurn (started small 1 (txt "(a,2")) = .block ∧
      step (started small 1 (txt "(a,2")) = .next t ∧ t.err ≠ .ok :=
  ⟨_, rfl, rfl, rfl, by decide +kernel⟩

/-- One operation of each codec and direction answers a next state. -/
theorem witness_OperationFrame :
    (∃ t, exec (.rleEnc 0) (started small 0 (txt "a")) = .next t) ∧
    (∃ t, exec (.rleDec 0) (started small 1 (txt "(a,1)")) = .next t) ∧
    (∃ t, exec (.lz78Enc 0) (started small 2 (txt "a")) = .next t) ∧
    (∃ t, exec (.lz78Dec 0) (started small 3 (txt "(0,a)")) = .next t) ∧
    (∃ t, exec (.huffEnc 2) (started small 0x14 (txt "a")) = .next t) ∧
    (∃ t, exec (.huffDec 2) (started small 0x15 (txt "0")) = .next t) ∧
    (∃ t, exec (.bwtEnc 0) (started small 6 (txt "a")) = .next t) ∧
    ∃ t, exec (.bwtDec 0) (started small 7 (txt "(a,0)")) = .next t :=
  ⟨⟨_, rfl⟩, ⟨_, rfl⟩, ⟨_, rfl⟩, ⟨_, rfl⟩, ⟨_, rfl⟩, ⟨_, rfl⟩, ⟨_, rfl⟩, ⟨_, rfl⟩⟩

/-- Two states that agree on the command, the input text and the build but for its workers, and differ in what
an earlier operation left. -/
theorem witness_ResultDependsOnInputOnly :
    ∃ s s' t t' : State, s ≠ s' ∧ s.phase = .busy ∧ s'.phase = .busy ∧ nextTurn s = .block ∧
      nextTurn s' = .block ∧ s.build ≠ s'.build ∧
      { s.build with bwtWorkers := s'.build.bwtWorkers } = s'.build ∧ s.cmd = s'.cmd ∧ inputText s = inputText s' ∧
      step s = .next t ∧ step s' = .next t' :=
  ⟨started small 0 (txt "ab"),
    { started { small with bwtWorkers := 2 } 0 (txt "ab") with
      inBuf := Memory.ofText (txt "abc"), outLen := 1, outBuf := [(0, 7)] },
    _, _, by decide, rfl, rfl, rfl, rfl, by decide, rfl, rfl, by decide, rfl, rfl⟩

/-- A case of each of the four causes, and a completion with none. -/
theorem witness_InvalidArgumentCauses :
    small.ok = true ∧
    (∃ t, step (started small 0x80#8 (txt "a")) = .next t ∧ t.err = .invalidArgument) ∧
    (∃ t, step (started small 0x5D#8 (txt "a")) = .next t ∧ t.err = .invalidArgument) ∧
    (∃ t, step (started small 0x06#8 []) = .next t ∧ t.err = .invalidArgument) ∧
    (∃ t, step (started small 0x02#8 [0x00]) = .next t ∧ t.err = .invalidArgument) ∧
    ∃ t, step (started small 0x00#8 (txt "a")) = .next t ∧ t.err ≠ .invalidArgument :=
  ⟨by decide, ⟨_, rfl, by decide⟩, ⟨_, rfl, by decide⟩, ⟨_, rfl, by decide⟩, ⟨_, rfl, by decide⟩,
    ⟨_, rfl, by decide +kernel⟩⟩

theorem witness_EncodersNeverFormatError :
    ∃ t, Instr.direction (.huffEnc 2) = .encode ∧
      exec (.huffEnc 2) (started small 0x14 (txt "a")) = .next t := ⟨_, rfl, rfl⟩

/-- A text that fits by one character too few, one with a literal above NUM_MAX, and a malformed one. -/
theorem witness_CapacityIsJudgedLast :
    (∃ t v, exec (.rleEnc 0) (started (outOnly 4) 0 (txt "a")) = .next t ∧
      exec (.rleEnc 0) { started (outOnly 4) 0 (txt "a") with
        build := { outOnly 4 with maxOut := none, numMax := none } } = .next v ∧ v.err = .ok) ∧
    (∃ t v, exec (.rleDec 0) (started small 1 (txt "(a,10)")) = .next t ∧
      exec (.rleDec 0) { started small 1 (txt "(a,10)") with
        build := { small with maxOut := none, numMax := none } } = .next v ∧ v.err = .ok) ∧
    ∃ t v, exec (.rleDec 0) (started small 1 (txt "(a,10")) = .next t ∧
      exec (.rleDec 0) { started small 1 (txt "(a,10") with
        build := { small with maxOut := none, numMax := none } } = .next v ∧ v.err ≠ .ok :=
  ⟨⟨_, _, rfl, rfl, by decide +kernel⟩, ⟨_, _, rfl, rfl, by decide +kernel⟩,
    ⟨_, _, rfl, rfl, by decide +kernel⟩⟩

theorem witness_RadixOperand :
    small.ok = true ∧ decodeWord 0x0C#8 = .ok (.huffEnc 1) ∧ (1#4).toNat < 2 ∧ 10 < (11#4).toNat := by decide

theorem witness_DecimalLiterals : (10 : Nat) ≠ 0 ∧ IsLiteral (txt "010") ∧ val (txt "010") = 10 :=
  ⟨by decide, ⟨by decide, by decide⟩, by decide⟩

/-- A text whose output has 5 characters: it fits 5 and not 4. -/
theorem witness_RleEncWritesMaximalRuns :
    inputText (started (outOnly 5) 0 (txt "a")) ≠ [] ∧ IsRunList [(0x61, 1)] (txt "a") ∧
    withinCap (outOnly 5).maxOut ([lparen, 0x61, comma] ++ dec 1 ++ [rparen]).length = true ∧
    withinCap (outOnly 4).maxOut ([lparen, 0x61, comma] ++ dec 1 ++ [rparen]).length = false :=
  ⟨by decide, ⟨by decide, by simp, by decide⟩, by decide, by decide⟩

/-- A pair with a leading zero, a count at NUM_MAX = 9 and one above, and the empty text. -/
theorem witness_RleDecAcceptsTheGrammar :
    RleGrammar [(0x61, txt "09")] (inputText (started small 1 (txt "(a,09)"))) ∧
    withinCap small.numMax (val (txt "09")) = true ∧
    withinCap small.maxOut (List.replicate (val (txt "09")) 0x61).length = true ∧
    RleGrammar [(0x61, txt "10")] (inputText (started small 1 (txt "(a,10)"))) ∧
    withinCap small.numMax (val (txt "10")) = false ∧
    ¬ ∃ ps, RleGrammar ps (inputText (started small 1 [])) := by
  refine ⟨⟨by decide, ?_, by decide⟩, by decide, by decide, ⟨by decide, ?_, by decide⟩, by decide, ?_⟩
  · intro p hp
    rw [List.mem_singleton.1 hp]
    exact ⟨by decide, by decide⟩
  · intro p hp
    rw [List.mem_singleton.1 hp]
    exact ⟨by decide, by decide⟩
  · rintro ⟨ps, hne, -, h⟩
    obtain ⟨p, l, rfl⟩ := List.exists_cons_of_ne_nil hne
    have := congrArg List.length h
    simp [started, inputText, Memory.text, State.resetOf] at this

/-- A machine whose encode succeeds and whose output the host has moved to the input of another state. -/
def movedState (b : Build) (w : BitVec 8) (e : Text) : State := started b w e

theorem witness_RleRoundTrip :
    ∃ t, (outOnly 20).ok = true ∧ withinCap (outOnly 20).maxIn 2 = true ∧
      exec (.rleEnc 0) (started (outOnly 20) 0 (txt "ab")) = .next t ∧ t.err = .ok ∧
      Moved t (movedState (outOnly 20) 1 (txt "(a,1)(b,1)")) ∧
      withinCap (outOnly 20).maxOut (started (outOnly 20) 0 (txt "ab")).inLen = true :=
  ⟨_, by decide, by decide, rfl, by decide +kernel, ⟨by decide +kernel, by decide +kernel⟩, by decide⟩

/-- An ordinary text, and the empty one whose only pair is the terminator's. -/
theorem witness_LzEncWritesNewPhrases :
    (started small 2 (txt "a")).build.lzSentinel ∉ inputText (started small 2 (txt "a")) ∧
    (started small 2 []).build.lzSentinel ∉ inputText (started small 2 []) ∧
    withinCap (outOnly 5).maxOut (txt "(0,a)").length = true ∧
    withinCap (outOnly 4).maxOut (txt "(0,a)").length = false := by decide

/-- A pair with index 0 and the terminator, a pair whose index is one too large, and the empty text. -/
theorem witness_LzDecAcceptsTheGrammar :
    LzGrammar [(txt "00", 0x00)] (txt "(00," ++ [0x00] ++ txt ")") ∧ LzLegal 0x00 [(0, 0x00)] ∧
    LzGrammar [(txt "1", 0x61)] (txt "(1,a)") ∧ ¬ LzLegal 0x00 [(1, 0x61)] ∧
    withinCap small.numMax (val (txt "00")) = true ∧ withinCap (some 0) (val (txt "1")) = false ∧
    ¬ ∃ ps, LzGrammar ps (inputText (started small 3 [])) := by
  refine ⟨⟨by decide, ?_, by decide⟩, ?_, ⟨by decide, ?_, by decide⟩, ?_, by decide, by decide, ?_⟩
  · intro p hp
    rw [List.mem_singleton.1 hp]
    exact ⟨by decide, by decide⟩
  · intro k n c h
    cases k with
    | zero => simp_all
    | succ k => simp at h
  · intro p hp
    rw [List.mem_singleton.1 hp]
    exact ⟨by decide, by decide⟩
  · intro h
    have := (h 0 1 0x61 rfl).1
    omega
  · rintro ⟨ps, hne, -, h⟩
    obtain ⟨p, l, rfl⟩ := List.exists_cons_of_ne_nil hne
    have := congrArg List.length h
    simp [started, inputText, Memory.text, State.resetOf] at this

theorem witness_LzRoundTrip :
    ∃ t, (0x00 : Character) ∉ txt "aa" ∧ (outOnly 20).ok = true ∧ withinCap (outOnly 20).maxIn 2 = true ∧
      exec (.lz78Enc 0) (started (outOnly 20) 2 (txt "aa")) = .next t ∧ t.err = .ok ∧
      Moved t (movedState (outOnly 20) 3 (txt "(0,a)(1," ++ [0x00] ++ txt ")")) ∧
      withinCap (outOnly 20).maxOut (started (outOnly 20) 2 (txt "aa")).inLen = true :=
  ⟨_, by decide, by decide, by decide, rfl, by decide +kernel, ⟨by decide +kernel, by decide +kernel⟩,
    by decide⟩

theorem abTable_wf : FreqTable.wf [(0x61, 1), (0x62, 2)] := by decide

/-- A table written in descending order with a leading zero. -/
theorem ab_dictOf :
    DictOf [(0x61, 1), (0x62, 2)] [(0x62, txt "02"), (0x61, txt "1")] := by
  refine ⟨by decide, abTable_wf, ?_, List.Perm.swap _ _ _⟩
  intro e he
  rcases List.mem_cons.1 he with rfl | he
  · exact ⟨by decide, by decide⟩
  · rw [List.mem_singleton.1 he]
    exact ⟨by decide, by decide⟩

theorem witness_DictionaryTexts :
    (∃ d, parseDict d = .ok [(0x61, 1)]) ∧
    DictOf [(0x61, 1), (0x62, 2)] [(0x62, txt "02"), (0x61, txt "1")] ∧
    FreqTable.wf [(0x61, 1), (0x62, 2)] :=
  ⟨⟨braced "[a-1]", by decide +kernel⟩, ab_dictOf, abTable_wf⟩

/-- `m <= r`, the regular `m > r`, and a short first merge. -/
theorem witness_FirstMergeSize :
    (2 ≤ 2 ∧ 2 ≤ 2 ∧ 2 ≤ 10) ∧ (3 < 5 ∧ (5 - 3) % (3 - 1) = 0) ∧ (3 < 4 ∧ (4 - 3) % (3 - 1) ≠ 0) := by
  decide

theorem witness_PrefixTreeShape :
    FreqTable.wf [(0x61, 1), (0x62, 2)] ∧ 2 ≤ ([(0x61, 1), (0x62, 2)] : FreqTable).length :=
  ⟨abTable_wf, by decide⟩

theorem ab_tree : MergesTo 2 (firstMerge 2 2) 0 [.leaf 0x62 2, .leaf 0x61 1]
    (.internal [.leaf 0x61 1, .leaf 0x62 2] 3 0) :=
  .merge _ _ _ [.leaf 0x61 1, .leaf 0x62 2] [] _ (by decide) (List.Perm.swap _ _ _) rfl
    (by simp [NodeBefore, Node.weight]) nofun (.root _ _ _)

/-- The leaves of a table in descending order. -/
theorem witness_MergesTakeTheSmallest :
    FreqTable.wf [(0x61, 1), (0x62, 2)] ∧
    [Node.leaf 0x62 2, Node.leaf 0x61 1].Perm
      (([(0x61, 1), (0x62, 2)] : FreqTable).map fun e => .leaf e.1 e.2) :=
  ⟨abTable_wf, List.Perm.swap _ _ _⟩

theorem witness_CodeWordsAreTheDigitPaths :
    MergesTo 2 (firstMerge 2 2) 0 (([(0x61, 1), (0x62, 2)] : FreqTable).map fun e => .leaf e.1 e.2)
      (.internal [.leaf 0x61 1, .leaf 0x62 2] 3 0) ∧
    NodeAt (.internal [.leaf 0x61 1, .leaf 0x62 2] 3 0) [1] (.leaf 0x62 2) :=
  ⟨.merge _ _ _ [.leaf 0x61 1, .leaf 0x62 2] [] _ (by decide) (List.Perm.refl _) rfl
    (by simp [NodeBefore, Node.weight]) nofun (.root _ _ _), .child _ _ _ _ _ _ _ rfl (.here _)⟩

/-- A table of one symbol, and of two, with texts of their symbols. -/
theorem witness_CodeIsPrefixFree :
    FreqTable.wf [(0x61, 4)] ∧ FreqTable.wf [(0x61, 1), (0x62, 2)] ∧
    (∀ x ∈ txt "ab", FreqTable.has [(0x61, 1), (0x62, 2)] x = true) ∧
    (txt "ab").flatMap (codeWord (buildCode [(0x61, 1), (0x62, 2)] 10)) =
      (txt "ab").flatMap (codeWord (buildCode [(0x61, 1), (0x62, 2)] 10)) :=
  ⟨by decide, abTable_wf, by decide, rfl⟩

/-- The two radix boundaries; an output of 8 characters fits 8 and not 7. -/
theorem witness_HuffEncWritesStreamAndDictionary :
    (outOnly 8).ok = true ∧ 2 ≤ (2#4).toNat ∧ (10#4).toNat ≤ 10 ∧ inputText (started small 0x14 (txt "a")) ≠ [] ∧
    huffEncode 2 (txt "a") = .ok (txt "0" ++ braced "[a-1]") ∧
    withinCap (outOnly 8).maxOut (txt "0" ++ braced "[a-1]").length = true ∧
    withinCap (outOnly 7).maxOut (txt "0" ++ braced "[a-1]").length = false :=
  ⟨by decide, by decide, by decide, by decide, by decide +kernel, by decide, by decide⟩

/-- The empty code stream and one symbol, within and above NUM_MAX, and the text with no dictionary. -/
theorem witness_HuffDecAcceptsTheGrammar :
    small.ok = true ∧
    HuffGrammar 2 [(0x61, 1), (0x62, 2)] [(0x62, txt "02"), (0x61, txt "1")] []
      (dictText [(0x62, txt "02"), (0x61, txt "1")]) ∧
    HuffGrammar 2 [(0x61, 1), (0x62, 2)] [(0x62, txt "02"), (0x61, txt "1")] (txt "a")
      (txt "0" ++ dictText [(0x62, txt "02"), (0x61, txt "1")]) ∧
    (∀ e ∈ ([(0x61, 1), (0x62, 2)] : FreqTable), withinCap (some 3) e.2 = true) ∧
    withinCap (some 3) (FreqTable.total [(0x61, 1), (0x62, 2)]) = true ∧
    withinCap (some 2) (FreqTable.total [(0x61, 1), (0x62, 2)]) = false ∧
    ¬ ∃ f es xs, HuffGrammar 2 f es xs (inputText (started small 0x15 [])) := by
  refine ⟨by decide, ⟨ab_dictOf, by decide, by decide +kernel⟩, ⟨ab_dictOf, by decide, by decide +kernel⟩, by decide,
    by decide, by decide, ?_⟩
  rintro ⟨f, es, xs, -, -, h⟩
  have := congrArg List.length h
  simp [started, inputText, Memory.text, State.resetOf, dictText] at this

theorem witness_HuffRoundTrip :
    ∃ t, (outOnly 20).ok = true ∧ withinCap (outOnly 20).maxIn 2 = true ∧
      exec (.huffEnc 2) (started (outOnly 20) 0x14 (txt "ab")) = .next t ∧ t.err = .ok ∧
      Moved t (movedState (outOnly 20) 0x15 (txt "01" ++ braced "[a-1][b-1]")) ∧
      withinCap (outOnly 20).maxOut (started (outOnly 20) 0x14 (txt "ab")).inLen = true :=
  ⟨_, by decide, by decide, rfl, by decide +kernel, ⟨by decide +kernel, by decide +kernel⟩, by decide⟩

theorem witness_SortedMatrix : (rowOrder (txt "banana"))[0]? = some 5 := by decide +kernel

theorem witness_BlockTransform : txt "aa" ≠ [] ∧ ∀ d ∈ txt "aa", d = 0x61 := by decide

/-- Two occurrences of one character, and two different characters, of the column of `"banana"`. -/
theorem witness_NextRowPermutes :
    0 < 1 ∧ 1 < (txt "nnbaaa").length ∧ (txt "nnbaaa")[0]? = (txt "nnbaaa")[1]? ∧
    (txt "nnbaaa")[5]? = some 0x61 ∧ (txt "nnbaaa")[0]? = some 0x6E ∧ 0x61 < 0x6E := by decide

theorem witness_InverseTransform : txt "banana" ≠ [] ∧ 1 < (txt "ab").length := by decide

/-- A text one longer than the block size; an output of 13 characters fits 13 and not 12. -/
theorem witness_BwtEncWritesBlocks :
    (outOnly 13).ok = true ∧ inputText (started (outOnly 13) 6 (txt "banan")) ≠ [] ∧
    bwtEncode 4 (txt "banan") = .ok (txt "(nbaa,2)(n,0)") ∧
    withinCap (outOnly 13).maxOut (txt "(nbaa,2)(n,0)").length = true ∧
    withinCap (outOnly 12).maxOut (txt "(nbaa,2)(n,0)").length = false :=
  ⟨by decide, by decide, by decide +kernel, by decide, by decide⟩

theorem witness_OnlyAnIllegalBuildStops :
    (started (build 0 none none none) 6 (txt "a")).build.bwtBlock = 0 ∧
    inputText (started (build 0 none none none) 6 (txt "a")) ≠ [] := by decide

/-- A full-size block and a shorter last one, an index at its bound and one beyond, and the empty text. -/
theorem witness_BwtDecAcceptsTheGrammar :
    BwtGrammar 2 [(txt "ab", txt "1"), (txt "c", txt "0")] (txt "(ab,1)(c,0)") ∧
    BwtRows [(txt "ab", txt "1"), (txt "c", txt "0")] ∧ ¬ BwtRows [(txt "ab", txt "2")] ∧
    withinCap (some 1) (val (txt "1")) = true ∧ withinCap (some 0) (val (txt "1")) = false ∧
    ¬ ∃ bs, BwtGrammar 8 bs (inputText (started small 7 [])) := by
  refine ⟨⟨by decide, ?_, by decide, by decide⟩, by unfold BwtRows; decide, by unfold BwtRows; decide,
    by decide, by decide, ?_⟩
  · intro b hb
    rcases List.mem_cons.1 hb with rfl | hb
    · exact ⟨by decide, by decide, by decide, by decide⟩
    · rw [List.mem_singleton.1 hb]
      exact ⟨by decide, by decide, by decide, by decide⟩
  · rintro ⟨bs, hne, -, -, h⟩
    obtain ⟨b, l, rfl⟩ := List.exists_cons_of_ne_nil hne
    have := congrArg List.length h
    simp [started, inputText, Memory.text, State.resetOf] at this

theorem witness_BwtRoundTrip :
    ∃ t, (outOnly 20).ok = true ∧ withinCap (outOnly 20).maxIn 2 = true ∧
      exec (.bwtEnc 0) (started (outOnly 20) 6 (txt "ba")) = .next t ∧ t.err = .ok ∧
      Moved t (movedState (outOnly 20) 7 (txt "(ba,1)")) ∧
      withinCap (outOnly 20).maxOut (started (outOnly 20) 6 (txt "ba")).inLen = true :=
  ⟨_, by decide, by decide, rfl, by decide +kernel, ⟨by decide +kernel, by decide +kernel⟩, by decide⟩

end Sys2Proof.Tests
end

namespace Sys2Proof.Machine

/-- Where BWT_ENC stops: a non-empty text in a build with `BWT_BLOCK = 0` (log 13). -/
theorem exec_bwtEnc_fault {s : State} (radix : BitVec 4) (h : inputText s ≠ [] ∧ s.build.bwtBlock = 0) :
    exec (.bwtEnc radix) s = .fault .illegalBuild := if_pos h

/-- Everywhere else BWT_ENC completes (44_bwt.md rule R195). -/
theorem exec_bwtEnc_next {s : State} (radix : BitVec 4) (h : ¬(inputText s ≠ [] ∧ s.build.bwtBlock = 0)) :
    exec (.bwtEnc radix) s =
      .next (complete .encode (inputText s) (bwtEncode s.build.bwtBlock (inputText s)) s) := if_neg h

/-- Everything an operation can answer: a next state, or the one fault of BWT_ENC. -/
theorem exec_next_or_fault (i : Instr) (s : State) :
    (∃ t, exec i s = .next t) ∨
    ((∃ radix, i = .bwtEnc radix) ∧ inputText s ≠ [] ∧ s.build.bwtBlock = 0 ∧
      exec i s = .fault .illegalBuild) := by
  by_cases hnext : ∃ t, exec i s = .next t
  · exact .inl hnext
  · obtain ⟨⟨radix, rfl⟩, hblock⟩ := exec_stops (not_exists.1 hnext)
    have htext : inputText s ≠ [] := fun hempty =>
      hnext ⟨_, exec_bwtEnc_next radix fun h => h.1 hempty⟩
    exact .inr ⟨⟨radix, rfl⟩, htext, hblock, exec_bwtEnc_fault radix ⟨htext, hblock⟩⟩

/-- Settles O54: an operation answers a next state or the fault of BWT_ENC, and that fault is there whenever
its conditions are. -/
theorem onlyAnIllegalBuildStops : Obligations.OnlyAnIllegalBuildStops := by
  intro i s
  refine ⟨⟨?stops, ?illegal⟩, ?refused⟩
  case stops =>
    rintro ⟨r, hr⟩
    obtain ⟨t, ht⟩ | ⟨hi, htext, hblock, -⟩ := exec_next_or_fault i s
    · cases ht.symm.trans hr
    · exact ⟨hi, htext, hblock⟩
  case illegal =>
    rintro ⟨⟨radix, rfl⟩, h⟩
    exact ⟨_, exec_bwtEnc_fault radix h⟩
  case refused =>
    intro r hr
    obtain ⟨t, ht⟩ | ⟨-, -, -, hf⟩ := exec_next_or_fault i s
    · cases ht.symm.trans hr
    · cases hf.symm.trans hr

end Sys2Proof.Machine

namespace Sys2Proof.Machine

/-! ### What a step is, by the turn it takes -/

theorem step_of_host {s : State} {a : HostAction} (h : nextTurn s = .host a) :
    step s = .next (hostAct a (popTurn s)) := by
  rw [step, h]
  rfl

theorem step_of_reset {s : State} (h : nextTurn s = .reset) : step s = .next (applyReset (popTurn s)) := by
  rw [step, h]
  rfl

/-! ### What an operation is: the completion of one family function -/

/-- The result of the family function that an operation runs on the input text, the radix check of the
Huffman operations included (30_encoding.md rule R71, 40_common.md rule R105). -/
def familyResult (s : State) : Instr → Except Raise Text
  | .rleEnc _ => rleEncode (inputText s)
  | .rleDec _ => rleDecode s.build.numMax (inputText s)
  | .lz78Enc _ => lz78Encode s.build.lzSentinel (inputText s)
  | .lz78Dec _ => lz78Decode s.build.numMax s.build.lzSentinel (inputText s)
  | .huffEnc radix =>
    if radixLegal s.build radix then huffEncode (radixOperand radix) (inputText s)
    else .error .invalidArgument
  | .huffDec radix =>
    if radixLegal s.build radix then huffDecode s.build.numMax (radixOperand radix) (inputText s)
    else .error .invalidArgument
  | .bwtEnc _ => bwtEncode s.build.bwtBlock (inputText s)
  | .bwtDec _ => bwtDecode s.build.numMax s.build.bwtBlock (inputText s)

/-- An operation that answers a next state completes with its family function's result. -/
theorem eq_complete_of_exec {i : Instr} {s t : State} (h : exec i s = .next t) :
    t = complete i.direction (inputText s) (familyResult s i) s := by
  cases i with
  | rleEnc => exact (Host.Outcome.next.inj h).symm
  | rleDec => exact (Host.Outcome.next.inj h).symm
  | lz78Enc => exact (Host.Outcome.next.inj h).symm
  | lz78Dec => exact (Host.Outcome.next.inj h).symm
  | huffEnc radix =>
    rw [← Host.Outcome.next.inj h, familyResult]
    split <;> rfl
  | huffDec radix =>
    rw [← Host.Outcome.next.inj h, familyResult]
    split <;> rfl
  | bwtEnc radix =>
    by_cases hstop : inputText s ≠ [] ∧ s.build.bwtBlock = 0
    · cases h.symm.trans (exec_bwtEnc_fault radix hstop)
    · exact Host.Outcome.next.inj (h.symm.trans (exec_bwtEnc_next radix hstop))
  | bwtDec => exact (Host.Outcome.next.inj h).symm

/-- The two ways an operation completes (40_common.md rules R107, R108): it fails, or its family function
gave a text that fits `MAX_OUT`. -/
theorem exec_completion {i : Instr} {s t : State} (h : exec i s = .next t) :
    (∃ k, t = failWith k s) ∨
    ∃ out, familyResult s i = .ok out ∧ withinCap s.build.maxOut out.length = true ∧
      t = completeOk i.direction (inputText s) out s := by
  rw [eq_complete_of_exec h]
  obtain ⟨k, -, hk⟩ | ⟨out, hr, hfit, hok⟩ | ⟨-, -, -, hk⟩ :=
    complete_cases i.direction (inputText s) (familyResult s i) s
  · exact .inl ⟨k, hk⟩
  · exact .inr ⟨out, hr, hfit, hok⟩
  · exact .inl ⟨_, hk⟩

/-- The two ways a BUSY period ends at the block's turn; a reserved command word is one of the failures. -/
theorem blockTurn_completion {s t : State} (hbusy : s.phase = .busy) (h : blockTurn s = .next t) :
    (∃ k, t = failWith k s) ∨
    ∃ i out, decodeWord s.cmd = .ok i ∧ familyResult s i = .ok out ∧
      withinCap s.build.maxOut out.length = true ∧ t = completeOk i.direction (inputText s) out s := by
  obtain ⟨hidle, -⟩ | ⟨-, i, hd, he⟩ | ⟨-, -, hfail⟩ := blockTurn_cases h
  · exact absurd hbusy hidle
  · obtain hfail | ⟨out, hr, hfit, hok⟩ := exec_completion he
    · exact .inl hfail
    · exact .inr ⟨i, out, hd, hr, hfit, hok⟩
  · exact .inl ⟨_, hfail⟩

theorem withinCap_zero (cap : Option Nat) : withinCap cap 0 = true := by
  cases cap <;> simp [withinCap]

theorem withinCap_some_iff {m n : Nat} : withinCap (some m) n = true ↔ n ≤ m := by simp [withinCap]

/-- Settles O26: both completions write the result registers, `OUT`, `ERR` and `STATE` and nothing else, and
`OUT` is a text stored from index 0. -/
theorem operationFrame : Obligations.OperationFrame := by
  intro i s t h
  obtain ⟨k, rfl⟩ | ⟨out, -, hfit, rfl⟩ := exec_completion h
  case inl =>
    exact ⟨fun _ => rfl, rfl, rfl, rfl, rfl, rfl, rfl, rfl, rfl, rfl, fun a => by simp, withinCap_zero _⟩
  case inr =>
    exact ⟨fun _ => rfl, rfl, rfl, rfl, rfl, rfl, rfl, rfl, rfl, rfl, by simp [Memory.read_ofText], hfit⟩

/-! ### The transitions of `STATE`, and the two signals computed from it -/

theorem blockTurn_phase_of_busy {s t : State} (hbusy : s.phase = .busy) (h : blockTurn s = .next t) :
    t.phase = .done := by
  obtain ⟨k, rfl⟩ | ⟨i, out, -, -, -, rfl⟩ := blockTurn_completion hbusy h <;> rfl

/-- After START the block is BUSY, whether the action took effect or came while BUSY. -/
theorem hostAct_start_phase (w : BitVec 8) (s : State) : (hostAct (.start w) s).phase = .busy := by
  by_cases hbusy : s.phase = .busy
  · simp [hostAct, hostStart, hbusy]
  · simp [hostAct, hostStart, hbusy]

/-- No host action but a START that takes effect changes `STATE`. -/
theorem hostAct_phase (a : HostAction) (s : State) :
    (hostAct a s).phase = s.phase ∨ ∃ w, a = .start w ∧ s.phase ≠ .busy := by
  obtain ⟨w, ha, hp, -⟩ | ⟨i, c, -, -, -, h⟩ | ⟨n, -, -, -, h⟩ | ⟨-, h⟩ | ⟨-, ⟨r, h⟩ | ⟨r, h⟩⟩ :=
    hostAct_cases a s
  · exact .inr ⟨w, ha, hp⟩
  all_goals exact .inl (by simp [h])

/-- Settles O11, by the turn the step takes. -/
theorem phaseTransitions : Obligations.PhaseTransitions := by
  intro s t h
  obtain ⟨hturn, hb⟩ | ⟨a, hturn, rfl⟩ | ⟨hturn, rfl⟩ := step_cases h
  case inl =>
    refine ⟨fun h => absurd (hturn.symm.trans h) nofun, fun w h => absurd (hturn.symm.trans h) nofun,
      fun _ hbusy => blockTurn_phase_of_busy (s := popTurn s) hbusy hb, fun hchange => .inr (.inr ⟨hturn, ?_⟩)⟩
    obtain ⟨-, rfl⟩ | ⟨hbusy, -⟩ | ⟨hbusy, -⟩ := blockTurn_cases hb
    · exact absurd rfl hchange
    · exact hbusy
    · exact hbusy
  case inr.inl =>
    refine ⟨fun h => absurd (hturn.symm.trans h) nofun, fun w h => ?start, fun h => absurd (hturn.symm.trans h) nofun,
      fun hchange => .inr (.inl ?change)⟩
    case start =>
      cases hturn.symm.trans h
      exact hostAct_start_phase w _
    case change =>
      obtain ⟨w, rfl, hphase⟩ := (hostAct_phase a (popTurn s)).resolve_left hchange
      exact ⟨w, hturn, hphase⟩
  case inr.inr =>
    exact ⟨fun _ => rfl, fun w h => absurd (hturn.symm.trans h) nofun, fun h => absurd (hturn.symm.trans h) nofun,
      fun _ => .inl hturn⟩

theorem statusWord_state (s : State) : s.statusWord.extractLsb' 0 2 = s.phase.code :=
  BitVec.extractLsb'_append_eq_right

theorem statusWord_err (s : State) : s.statusWord.extractLsb' 2 2 = s.err.code :=
  BitVec.extractLsb'_append_eq_left

/-- Settles O18: `STATUS` is the two codes side by side, and `ERR` is OK in a BUSY state of the invariant. -/
theorem statusRegisterLayout : Obligations.StatusRegisterLayout := by
  refine ⟨fun s => ⟨?_, ?_⟩, fun s hinv hbusy => ?_⟩
  · rw [statusWord_state]
    cases s.phase <;> rfl
  · rw [statusWord_err]
    cases s.err <;> rfl
  · simp [State.statusWord, hbusy, hinv.busy_ok hbusy, Phase.code, ErrKind.code]

theorem doneSignal_iff (s : State) : s.doneSignal = true ↔ s.phase = .done := by
  simp [State.doneSignal]

/-- Code 2 of `STATE` is DONE's alone (10_state.md rule R27). -/
theorem phase_code_eq_two_iff (p : Phase) : p.code = 2#2 ↔ p = .done := by
  cases p <;> simp [Phase.code]

/-- Settles O19: reset leaves IDLE and START leaves BUSY, so neither leaves DONE. -/
theorem doneSignal : Obligations.DoneSignal := by
  refine ⟨fun s => ⟨doneSignal_iff s, ?_⟩, fun s t h hturn => ?_⟩
  · rw [doneSignal_iff, statusWord_state, phase_code_eq_two_iff]
  · obtain ⟨hreset, hstart, -⟩ := phaseTransitions s t h
    have hphase : t.phase ≠ .done := by
      obtain hturn | ⟨w, hturn⟩ := hturn
      · simp [hreset hturn]
      · simp [hstart w hturn]
    simpa [State.doneSignal] using hphase

/-! ### Reset -/

/-- A state that differs from the state after reset in the model's own fields alone is a reset state
(10_state.md rule R40). -/
theorem isResetState_resetOf (b : Build) (agenda : List Turn) (reply : Option Reply) (draws epoch : Nat) :
    IsResetState { State.resetOf b with agenda := agenda, reply := reply, draws := draws, epoch := epoch } where
  phase := rfl
  err := rfl
  status := show ErrKind.ok.code ++ Phase.idle.code = 0#4 by decide
  cmd := rfl
  inLen := rfl
  outLen := rfl
  ratioSrc := rfl
  ratioEnc := rfl
  done := rfl
  inBuf _ := rfl
  outBuf _ := rfl

/-- Settles O6: power-on and a reset turn both leave a reset state. -/
theorem resetLeavesTheResetState : Obligations.ResetLeavesTheResetState :=
  ⟨isResetState_resetOf _ _ _ _ _, fun _ hturn =>
    ⟨_, step_of_reset hturn, isResetState_resetOf _ _ _ _ _, rfl, rfl⟩⟩

/-! ### The host's START and writes -/

theorem hostAct_start {s : State} (w : BitVec 8) (h : s.phase ≠ .busy) :
    hostAct (.start w) s = beginCommand w s := if_neg h

theorem hostAct_wrIn {s : State} {i : Nat} (c : Character) (h : s.phase ≠ .busy)
    (hi : inRange s.build.maxIn i = true) : hostAct (.wrIn i c) s = storeIn i (cellOf s.build c) s :=
  (if_neg h).trans (if_pos hi)

theorem hostAct_setInLen {s : State} {n : Nat} (h : s.phase ≠ .busy)
    (hn : withinCap s.build.maxIn n = true) : hostAct (.setInLen n) s = storeInLen n s :=
  (if_neg h).trans (if_pos hn)

/-- An ignored action leaves the state as it is (10_state.md rule R33, 20_memory.md rule R54). -/
theorem hostAct_of_ignored {a : HostAction} {s : State} (h : Ignored a s) : hostAct a s = s := by
  obtain ⟨hbusy, ⟨w, rfl⟩ | ⟨i, c, rfl⟩ | ⟨n, rfl⟩⟩ | ⟨i, c, rfl, hi⟩ | ⟨n, rfl, hn⟩ := h
  · exact if_pos hbusy
  · exact if_pos hbusy
  · exact if_pos hbusy
  · simp [hostAct, hostWrIn, hi]
  · simp [hostAct, hostSetInLen, hn]

theorem step_of_ignored {s : State} {a : HostAction} (hturn : nextTurn s = .host a)
    (h : Ignored a (popTurn s)) : step s = .next (popTurn s) := by
  rw [step_of_host hturn, hostAct_of_ignored h]

/-- Settles O13: the step is `beginCommand`, one update of three fields. -/
theorem startBeginsTheOperation : Obligations.StartBeginsTheOperation := by
  intro s w hturn hphase
  refine ⟨beginCommand w (popTurn s), ?_, rfl, rfl, rfl, rfl, rfl, rfl, rfl, rfl, rfl, rfl, rfl, rfl, rfl, rfl⟩
  rw [step_of_host hturn, hostAct_start w (s := popTurn s) hphase]

/-- Settles O14: each of the three actions is ignored while BUSY. -/
theorem busyWritesAreLost : Obligations.BusyWritesAreLost := by
  rintro s hbusy (⟨w, hturn⟩ | ⟨i, c, hturn⟩ | ⟨n, hturn⟩)
  · exact step_of_ignored hturn (.inl ⟨hbusy, .inl ⟨w, rfl⟩⟩)
  · exact step_of_ignored hturn (.inl ⟨hbusy, .inr (.inl ⟨i, c, rfl⟩)⟩)
  · exact step_of_ignored hturn (.inl ⟨hbusy, .inr (.inr ⟨n, rfl⟩)⟩)

/-- Settles O15: a write within the capacity stores one cell or `IN_LEN`, one beyond it is ignored. -/
theorem hostWritesInput : Obligations.HostWritesInput := by
  intro s hphase
  refine ⟨fun i c hturn hi => ?store, fun i c hturn hi => ?beyond, fun n hturn hn => ?setLen,
    fun n hturn hn => ?above⟩
  case store =>
    have hcell : inCell (storeIn i (cellOf s.build c) (popTurn s)) i = cellOf s.build c := by
      rw [inCell_storeIn, if_pos rfl]
    refine ⟨storeIn i (cellOf s.build c) (popTurn s), ?_, ?_, hcell, fun hc => ?_, fun k hk => ⟨?_, ?_⟩,
      rfl, rfl, rfl, rfl, rfl, rfl, rfl, rfl, rfl, rfl⟩
    · rw [step_of_host hturn, hostAct_wrIn (s := popTurn s) c hphase hi, popTurn_build]
    · rw [hcell, storeIn_inBuf, Memory.read_write_same]
    · rw [hcell, cellOf_of_isChar hc]
    · rw [inCell_storeIn, if_neg hk, popTurn_inCell]
    · rw [storeIn_inBuf, Memory.read_write_other _ _ _ _ hk, popTurn_inBuf]
  case beyond => exact step_of_ignored hturn (.inr (.inl ⟨i, c, rfl, hi⟩))
  case setLen =>
    rw [step_of_host hturn, hostAct_setInLen (s := popTurn s) hphase hn]
    rfl
  case above => exact step_of_ignored hturn (.inr (.inr ⟨n, rfl, hn⟩))

/-! ### The host's reads -/

theorem sameBlock_answer (r : Reply) (s : State) : SameBlock s (answer r (popTurn s)) :=
  ⟨rfl, rfl, rfl, rfl, rfl, rfl, rfl, rfl, rfl, rfl, rfl⟩

theorem sameBlock_answerDrawn (r : Nat → Reply) (s : State) : SameBlock s (answerDrawn r (popTurn s)) :=
  ⟨rfl, rfl, rfl, rfl, rfl, rfl, rfl, rfl, rfl, rfl, rfl⟩

/-- A stated cell of `OUT` reads exactly when the block is not BUSY (10_state.md rule R26). -/
theorem hostRdOut_stated {s : State} {i : Nat} {c : Character} (h : s.phase ≠ .busy)
    (hread : s.outBuf.read i = some c) : hostRdOut i s = answer (.cell c) s := by
  simp [hostRdOut, h, hread]

/-- Any other read of `OUT` is drawn (10_state.md rule R34, 20_memory.md rule R54). -/
theorem hostRdOut_drawn {s : State} {i : Nat} (h : s.phase = .busy ∨ s.outBuf.read i = none) :
    hostRdOut i s = answerDrawn (fun d => .cell (drawnChar s.build d)) s := by
  unfold hostRdOut
  split
  · rfl
  · next hphase => rw [h.resolve_left hphase]

/-- A drawn `OUT_LEN` is of the register's type (10_state.md Table S1). -/
theorem drawnOutLen_within (cap : Option Nat) (draw : Nat) : withinCap cap (drawnOutLen cap draw) = true := by
  cases cap with
  | none => rfl
  | some m => exact withinCap_some_iff.2 (Nat.le_of_lt_succ (Nat.mod_lt _ m.succ_pos))

/-- Settles O16: each of these reads answers its register or cell, and an answer changes the reply alone. -/
theorem hostReadsReturn : Obligations.HostReadsReturn := by
  intro s a r hturn hread
  refine ⟨answer r (popTurn s), ?_, rfl, sameBlock_answer r s, rfl⟩
  rw [step_of_host hturn]
  congr 1
  obtain ⟨rfl, rfl⟩ | ⟨rfl, rfl⟩ | ⟨rfl, rfl⟩ | ⟨i, rfl, hi, rfl⟩ | ⟨hp, h⟩ := hread
  · rfl
  · rfl
  · rfl
  · exact if_pos hi
  · obtain ⟨rfl, rfl⟩ | ⟨rfl, rfl⟩ | ⟨rfl, rfl⟩ | ⟨i, c, rfl, hc, rfl⟩ := h
    · exact if_neg hp
    · exact if_neg hp
    · exact if_neg hp
    · exact hostRdOut_stated hp hc

/-- Settles O17: each of these reads draws its value, and a draw changes the host's side alone. -/
theorem unspecifiedReadsReturnSomeValue : Obligations.UnspecifiedReadsReturnSomeValue := by
  intro s
  refine ⟨fun hbusy hturn => ?outLen, fun hbusy hturn => ?ratio, fun i hout hturn => ?out,
    fun i hi hturn => ?beyond⟩
  case outLen =>
    refine ⟨answerDrawn (fun d => .number (drawnOutLen s.build.maxOut d)) (popTurn s), _, ?_, rfl,
      drawnOutLen_within s.build.maxOut s.draws, sameBlock_answerDrawn _ s⟩
    exact (step_of_host hturn).trans (congrArg _ (if_pos hbusy))
  case ratio =>
    refine ⟨answerDrawn (fun d => .number (Config.freeNat d)) (popTurn s), _, ?_, rfl,
      sameBlock_answerDrawn _ s⟩
    obtain hturn | hturn := hturn
    · exact (step_of_host hturn).trans (congrArg _ (if_pos hbusy))
    · exact (step_of_host hturn).trans (congrArg _ (if_pos hbusy))
  case out =>
    refine ⟨answerDrawn (fun d => .cell (drawnChar s.build d)) (popTurn s), _, ?_, rfl, isChar_cellOf _ _,
      sameBlock_answerDrawn _ s⟩
    exact (step_of_host hturn).trans (congrArg _ (hostRdOut_drawn (s := popTurn s) hout))
  case beyond =>
    refine ⟨answerDrawn (fun d => .cell (drawnChar s.build d)) (popTurn s), _, ?_, rfl, isChar_cellOf _ _,
      sameBlock_answerDrawn _ s⟩
    exact (step_of_host hturn).trans (congrArg _ (if_neg (by simp [hi])))

end Sys2Proof.Machine

namespace Sys2Proof.Machine

/-! ### The characters and the length of every family's output

An operation's output is made of input characters and of the characters the wire grammars add, which are
all below 0x80 (30_encoding.md rule R73). `P` is any property of characters that those have. -/

section Outputs

variable {P : Character → Prop}

theorem isDigit_iff {c : Character} : isDigit c = true ↔ 0x30 ≤ c ∧ c ≤ 0x39 := by
  simp [isDigit]

theorem lt_of_isDigit {c : Character} (h : isDigit c = true) : c < 0x80 :=
  (isDigit_iff.1 h).2.trans_lt (by decide)

theorem isDigit_digit {j : Nat} (h : j < 10) : isDigit (digit j) = true :=
  isDigit_iff.2 ⟨Nat.le_add_right 0x30 j, Nat.add_le_add_left (Nat.le_of_lt_succ h) 0x30⟩

theorem isDigit_or_mem_of_mem_decAux {fuel n : Nat} {acc : Text} {c : Character}
    (h : c ∈ decAux fuel n acc) : isDigit c = true ∨ c ∈ acc := by
  induction fuel generalizing n acc with
  | zero => exact .inr h
  | succ fuel ih =>
    simp only [decAux] at h
    split at h
    · next hn =>
      obtain rfl | hc := List.mem_cons.1 h
      · exact .inl (isDigit_digit hn)
      · exact .inr hc
    · obtain hc | hc := ih h
      · exact .inl hc
      · obtain rfl | hc := List.mem_cons.1 hc
        · exact .inl (isDigit_digit (Nat.mod_lt n (by decide)))
        · exact .inr hc

theorem isDigit_of_mem_dec {n : Nat} {c : Character} (h : c ∈ dec n) : isDigit c = true :=
  (isDigit_or_mem_of_mem_decAux h).resolve_right List.not_mem_nil

theorem length_le_decAux (fuel n : Nat) (acc : Text) : acc.length ≤ (decAux fuel n acc).length := by
  induction fuel generalizing n acc with
  | zero => exact le_rfl
  | succ fuel ih =>
    simp only [decAux]
    split
    · exact Nat.le_succ _
    · exact (Nat.le_succ acc.length).trans (ih (n / 10) (digit (n % 10) :: acc))

/-- A literal has at least one digit. -/
theorem dec_length_pos (n : Nat) : 1 ≤ (dec n).length := by
  simp only [dec, decAux]
  split
  · exact le_rfl
  · exact length_le_decAux n _ [digit (n % 10)]

theorem forall_mem_dec (hP : ∀ c < 0x80, P c) (n : Nat) : ∀ c ∈ dec n, P c := fun c hc =>
  hP c (lt_of_isDigit (isDigit_of_mem_dec hc))

/-- The concatenation of written items is at least as long as any item must be, when there is an item. -/
theorem le_length_flatMap {α : Type} {write : α → Text} {as : List α} {k : Nat} (hne : as ≠ [])
    (hwrite : ∀ a ∈ as, k ≤ (write a).length) : k ≤ (as.flatMap write).length := by
  obtain ⟨a, as, rfl⟩ := List.exists_cons_of_ne_nil hne
  rw [List.flatMap_cons, List.length_append]
  exact (hwrite a List.mem_cons_self).trans (Nat.le_add_right _ _)

theorem forall_mem_flatMap {α : Type} {write : α → Text} {as : List α}
    (h : ∀ a ∈ as, ∀ c ∈ write a, P c) : ∀ c ∈ as.flatMap write, P c := by
  intro c hc
  obtain ⟨a, ha, hc⟩ := List.mem_flatMap.1 hc
  exact h a ha c hc

/-! #### Readers -/

/-- A reader that, from a text of `P` characters, reads an item of which `Q` holds and leaves such a text. -/
def KeepsChars (P : Character → Prop) {α : Type} (Q : α → Prop) (item : Reader α) : Prop :=
  ∀ ⦃t a rest⦄, item t = .ok (a, rest) → (∀ c ∈ t, P c) → Q a ∧ ∀ c ∈ rest, P c

/-- What a sequence of two readings that succeeds has done. -/
theorem bind_eq_ok_iff {α β : Type} {x : Except Raise α} {f : α → Except Raise β} {b : β} :
    x >>= f = .ok b ↔ ∃ a, x = .ok a ∧ f a = .ok b := by
  cases x with
  | error e => simp [bind, Except.bind]
  | ok a => simp [bind, Except.bind]

theorem forall_of_readAll {α : Type} {Q : α → Prop} {item : Reader α} (hitem : KeepsChars P Q item)
    {fuel : Nat} {t : Text} {as : List α} (h : readAll item fuel t = .ok as) (ht : ∀ c ∈ t, P c) :
    ∀ a ∈ as, Q a := by
  induction fuel generalizing t as with
  | zero =>
    cases t with
    | nil => cases h; simp
    | cons => cases h
  | succ fuel ih =>
    cases t with
    | nil => cases h; simp
    | cons c t =>
      simp only [readAll] at h
      split at h
      · cases h
      · next a rest hread =>
        obtain ⟨ha, hrest⟩ := hitem hread ht
        split at h
        · cases h
        · next as hall =>
          cases h
          exact List.forall_mem_cons.2 ⟨ha, ih hall hrest⟩

theorem forall_of_readSome {α : Type} {Q : α → Prop} {item : Reader α} (hitem : KeepsChars P Q item)
    {t : Text} {as : List α} (h : readSome item t = .ok as) (ht : ∀ c ∈ t, P c) : ∀ a ∈ as, Q a := by
  rw [readSome] at h
  split at h
  · cases h
  · exact forall_of_readAll hitem h ht

theorem literal_keepsChars : KeepsChars P (fun _ => True) literal := by
  intro t n rest h ht
  obtain ⟨ds, -, -, rfl, -⟩ := literal_ok h
  exact ⟨trivial, fun c hc => ht c (List.mem_append_right _ hc)⟩

/-! #### A character and a count between delimiters

RLE pairs and dictionary entries have one form with different delimiters (30_encoding.md rules R78, R81). -/

/-- The character and the count, with the delimiter before, between and after them. -/
def countItemText (l m r : Character) (p : Character × Nat) : Text := [l, p.1, m] ++ dec p.2 ++ [r]

/-- Its reader. -/
def readCountItem (l m r : Character) : Reader (Character × Nat) := fun t => do
  let (_, t) ← expect l t
  let (c, t) ← anyChar t
  let (_, t) ← expect m t
  let (n, t) ← literal t
  let (_, t) ← expect r t
  .ok ((c, n), t)

theorem rlePairText_eq : rlePairText = countItemText lparen comma rparen := rfl

theorem entryText_eq : entryText = countItemText lbracket hyphen rbracket := rfl

theorem readRlePair_eq : readRlePair = readCountItem lparen comma rparen := rfl

theorem readEntry_eq : readEntry = readCountItem lbracket hyphen rbracket := rfl

theorem forall_mem_countItemText (hP : ∀ c < 0x80, P c) {l m r : Character} (hl : l < 0x80) (hm : m < 0x80)
    (hr : r < 0x80) {p : Character × Nat} (hp : P p.1) : ∀ c ∈ countItemText l m r p, P c := by
  simp only [countItemText, List.forall_mem_append, List.forall_mem_cons]
  exact ⟨⟨⟨hP l hl, hp, hP m hm, by simp⟩, forall_mem_dec hP _⟩, hP r hr, by simp⟩

theorem five_le_length_countItemText (l m r : Character) (p : Character × Nat) :
    5 ≤ (countItemText l m r p).length := by
  have := dec_length_pos p.2
  simp only [countItemText, List.length_append, List.length_cons, List.length_nil]
  omega

theorem readCountItem_keepsChars (l m r : Character) : KeepsChars P (fun p => P p.1) (readCountItem l m r) := by
  intro t p rest h ht
  simp only [readCountItem, bind_eq_ok_iff, Prod.exists, expect_ok, anyChar_ok] at h
  obtain ⟨-, -, rfl, c, -, rfl, -, u, rfl, n, v, hlit, -, w, rfl, hres⟩ := h
  cases hres
  simp only [List.forall_mem_cons] at ht
  obtain ⟨-, hc, -, hu⟩ := ht
  exact ⟨hc, (List.forall_mem_cons.1 (literal_keepsChars hlit hu).2).2⟩

/-! #### RLE -/

theorem forall_mem_runs {t : Text} (ht : ∀ c ∈ t, P c) : ∀ p ∈ runs t, P p.1 := by
  induction t with
  | nil => simp [runs]
  | cons c t ih =>
    obtain ⟨hc, ht⟩ := List.forall_mem_cons.1 ht
    have ih := ih ht
    simp only [runs]
    split
    · simpa using hc
    · next d n rest hruns =>
      rw [hruns] at ih
      split
      · exact List.forall_mem_cons.2 ⟨hc, (List.forall_mem_cons.1 ih).2⟩
      · exact List.forall_mem_cons.2 ⟨hc, ih⟩

theorem runs_ne_nil {t : Text} (ht : t ≠ []) : runs t ≠ [] := by
  obtain ⟨c, t, rfl⟩ := List.exists_cons_of_ne_nil ht
  simp only [runs]
  split
  · simp
  · split <;> simp

theorem rleEncode_output (hP : ∀ c < 0x80, P c) {src out : Text} (hsrc : ∀ c ∈ src, P c)
    (h : rleEncode src = .ok out) : (∀ c ∈ out, P c) ∧ 5 ≤ out.length := by
  rw [rleEncode] at h
  split at h
  · cases h
  · next hne =>
    cases h
    rw [rlePairText_eq]
    refine ⟨forall_mem_flatMap fun p hp => ?_,
      le_length_flatMap (runs_ne_nil hne) fun p _ => five_le_length_countItemText _ _ _ p⟩
    exact forall_mem_countItemText hP (by decide) (by decide) (by decide) (forall_mem_runs hsrc p hp)

theorem rleDecode_output {numMax : Option Nat} {enc out : Text} (henc : ∀ c ∈ enc, P c)
    (h : rleDecode numMax enc = .ok out) : ∀ c ∈ out, P c := by
  obtain ⟨pairs, hread, h⟩ := bind_eq_ok_iff.1 h
  rw [readRlePair_eq] at hread
  have hpairs := forall_of_readSome (readCountItem_keepsChars _ _ _) hread henc
  split at h
  · cases h
    refine forall_mem_flatMap fun p hp c hc => ?_
    rw [List.eq_of_mem_replicate hc]
    exact hpairs p hp
  · cases h

/-! #### LZ78 -/

theorem forall_mem_lzEncoderStep {e : LzEncoder} {ch : Character} (hch : P ch) (he : ∀ p ∈ e.pairs, P p.2) :
    ∀ p ∈ (lzEncoderStep e ch).pairs, P p.2 := by
  rw [lzEncoderStep]
  split
  · exact he
  · exact List.forall_mem_append.2 ⟨he, by simpa using hch⟩

theorem forall_mem_foldl_lzEncoderStep {src : Text} {e : LzEncoder} (hsrc : ∀ c ∈ src, P c)
    (he : ∀ p ∈ e.pairs, P p.2) : ∀ p ∈ (src.foldl lzEncoderStep e).pairs, P p.2 := by
  induction src generalizing e with
  | nil => exact he
  | cons c src ih =>
    obtain ⟨hc, hsrc⟩ := List.forall_mem_cons.1 hsrc
    exact ih hsrc (forall_mem_lzEncoderStep hc he)

theorem forall_mem_lzPairs {sentinel : Character} {src : Text} (hs : P sentinel) (hsrc : ∀ c ∈ src, P c) :
    ∀ p ∈ lzPairs sentinel src, P p.2 := by
  have he := forall_mem_foldl_lzEncoderStep (e := lzEncoderStart) hsrc (by simp [lzEncoderStart])
  rw [lzPairs, lzEncoderFinish]
  split
  · exact List.forall_mem_append.2 ⟨he, by simpa using hs⟩
  · exact he

theorem lzPairs_ne_nil (sentinel : Character) (src : Text) : lzPairs sentinel src ≠ [] := by
  rw [lzPairs, lzEncoderFinish]
  split
  · simp
  · next h => exact fun hnil => h (.inr hnil)

theorem forall_mem_lzPairText (hP : ∀ c < 0x80, P c) {p : Nat × Character} (hp : P p.2) :
    ∀ c ∈ lzPairText p, P c := by
  simp only [lzPairText, List.forall_mem_append, List.forall_mem_cons]
  exact ⟨⟨⟨hP _ (by decide), by simp⟩, forall_mem_dec hP _⟩, hP _ (by decide), hp, hP _ (by decide), by simp⟩

theorem five_le_length_lzPairText (p : Nat × Character) : 5 ≤ (lzPairText p).length := by
  have := dec_length_pos p.1
  simp only [lzPairText, List.length_append, List.length_cons, List.length_nil]
  omega

theorem lz78Encode_output (hP : ∀ c < 0x80, P c) {sentinel : Character} {src out : Text} (hs : P sentinel)
    (hsrc : ∀ c ∈ src, P c) (h : lz78Encode sentinel src = .ok out) : (∀ c ∈ out, P c) ∧ 5 ≤ out.length := by
  rw [lz78Encode] at h
  split at h
  · cases h
  · cases h
    exact ⟨forall_mem_flatMap fun p hp => forall_mem_lzPairText hP (forall_mem_lzPairs hs hsrc p hp),
      le_length_flatMap (lzPairs_ne_nil sentinel src) fun p _ => five_le_length_lzPairText p⟩

theorem readLzPair_keepsChars : KeepsChars P (fun p => P p.2) readLzPair := by
  intro t p rest h ht
  simp only [readLzPair, bind_eq_ok_iff, Prod.exists, expect_ok, anyChar_ok] at h
  obtain ⟨-, u, rfl, n, v, hlit, -, -, rfl, c, -, rfl, -, w, rfl, hres⟩ := h
  cases hres
  have hv := (literal_keepsChars hlit (List.forall_mem_cons.1 ht).2).2
  simp only [List.forall_mem_cons] at hv
  obtain ⟨-, hc, -, hw⟩ := hv
  exact ⟨hc, hw⟩

theorem lzRebuild_output {sentinel : Character} {dict : List Text} {pairs : List (Nat × Character)} {out : Text}
    (hdict : ∀ phrase ∈ dict, ∀ c ∈ phrase, P c) (hpairs : ∀ p ∈ pairs, P p.2)
    (h : lzRebuild sentinel dict pairs = .ok out) : ∀ c ∈ out, P c := by
  induction pairs generalizing dict out with
  | nil => cases h; simp
  | cons p pairs ih =>
    obtain ⟨n, c⟩ := p
    obtain ⟨hc, hpairs⟩ := List.forall_mem_cons.1 hpairs
    simp only [lzRebuild] at h
    split at h
    · cases h
    · next phrase hn =>
      have hphrase := hdict phrase (List.mem_of_getElem? hn)
      have hnew : ∀ d ∈ phrase ++ [c], P d := List.forall_mem_append.2 ⟨hphrase, by simpa using hc⟩
      split at h
      · split at h
        · cases h; exact hphrase
        · cases h
      · split at h
        · cases h
        · next rest hrest =>
          cases h
          have hdict' := List.forall_mem_append.2 ⟨hdict, List.forall_mem_singleton.2 hnew⟩
          exact List.forall_mem_append.2 ⟨hnew, ih hdict' hpairs hrest⟩

theorem lz78Decode_output {numMax : Option Nat} {sentinel : Character} {enc out : Text} (henc : ∀ c ∈ enc, P c)
    (h : lz78Decode numMax sentinel enc = .ok out) : ∀ c ∈ out, P c := by
  simp only [lz78Decode, bind_eq_ok_iff] at h
  obtain ⟨pairs, hread, text, hrebuild, h⟩ := h
  have hpairs := forall_of_readSome readLzPair_keepsChars hread henc
  split at h
  · cases h
    exact lzRebuild_output (by simp) hpairs hrebuild
  · cases h

/-! #### Huffman -/

theorem mem_freqTable_set {f : FreqTable} {c : Character} {n : Nat} {e : Character × Nat}
    (h : e ∈ f.set c n) : e = (c, n) ∨ e ∈ f := by
  induction f with
  | nil => simpa [FreqTable.set] using h
  | cons a f ih =>
    obtain ⟨d, m⟩ := a
    simp only [FreqTable.set] at h
    split at h
    · exact List.mem_cons.1 h
    · split at h
      · exact (List.mem_cons.1 h).imp_right (List.mem_cons_of_mem _)
      · obtain h | h := List.mem_cons.1 h
        · exact .inr (h ▸ List.mem_cons_self)
        · exact (ih h).imp_right (List.mem_cons_of_mem _)

theorem freqTable_set_ne_nil (f : FreqTable) (c : Character) (n : Nat) : f.set c n ≠ [] := by
  cases f with
  | nil => simp [FreqTable.set]
  | cons a f =>
    simp only [FreqTable.set]
    split
    · simp
    · split <;> simp

theorem forall_mem_set {f : FreqTable} {c : Character} {n : Nat} (hf : ∀ e ∈ f, P e.1) (hc : P c) :
    ∀ e ∈ f.set c n, P e.1 := by
  intro e he
  obtain rfl | he := mem_freqTable_set he
  · exact hc
  · exact hf e he

theorem forall_mem_freq {t : Text} (ht : ∀ c ∈ t, P c) : ∀ e ∈ freq t, P e.1 := by
  induction t with
  | nil => simp [freq]
  | cons c t ih =>
    obtain ⟨hc, ht⟩ := List.forall_mem_cons.1 ht
    exact forall_mem_set (ih ht) hc

theorem freq_ne_nil {t : Text} (ht : t ≠ []) : freq t ≠ [] := by
  obtain ⟨c, t, rfl⟩ := List.exists_cons_of_ne_nil ht
  exact freqTable_set_ne_nil _ _ _

theorem forall_mem_ser (hP : ∀ c < 0x80, P c) {f : FreqTable} (hf : ∀ e ∈ f, P e.1) : ∀ c ∈ ser f, P c := by
  simp only [ser, entryText_eq, List.forall_mem_append, List.forall_mem_singleton]
  refine ⟨⟨hP _ (by decide), forall_mem_flatMap fun e he => ?_⟩, hP _ (by decide)⟩
  exact forall_mem_countItemText hP (by decide) (by decide) (by decide) (hf e he)

theorem five_le_length_ser {f : FreqTable} (hf : f ≠ []) : 5 ≤ (ser f).length := by
  have hentries : 5 ≤ (f.flatMap entryText).length :=
    le_length_flatMap hf fun e _ => five_le_length_countItemText _ _ _ e
  simp only [ser, List.length_append]
  omega

/-- A code whose symbols are `P` characters and whose code words are made of digits. -/
def CodeChars (P : Character → Prop) (code : Code) : Prop :=
  ∀ e ∈ code, P e.1 ∧ ∀ d ∈ e.2, isDigit d = true

/-- A node from which `assign`, begun with digits, makes such a code. -/
def AssignsChars (P : Character → Prop) (n : Node) : Prop :=
  ∀ pre, (∀ d ∈ pre, isDigit d = true) → CodeChars P (assign n pre)

theorem assignsChars_leaf {c : Character} (w : Nat) (hc : P c) : AssignsChars P (.leaf c w) := by
  intro pre hpre e he
  simp only [assign, List.mem_singleton] at he
  subst he
  exact ⟨hc, hpre⟩

theorem assignFrom_chars {ns : List Node} (hns : ∀ n ∈ ns, AssignsChars P n) {j : Nat}
    (hj : j + ns.length ≤ 10) {pre : Text} (hpre : ∀ d ∈ pre, isDigit d = true) :
    CodeChars P (assignFrom ns j pre) := by
  induction ns generalizing j with
  | nil => simp [CodeChars, assignFrom]
  | cons n ns ih =>
    obtain ⟨hn, hns⟩ := List.forall_mem_cons.1 hns
    rw [List.length_cons] at hj
    have hdigit : ∀ d ∈ pre ++ [digit j], isDigit d = true :=
      List.forall_mem_append.2 ⟨hpre, List.forall_mem_singleton.2 (isDigit_digit (by omega))⟩
    rw [assignFrom, CodeChars, List.forall_mem_append]
    exact ⟨hn _ hdigit, ih hns (by omega)⟩

/-- Ten children or fewer have digit characters for their positions (43_huffman.md rule R167). -/
theorem assignsChars_internal {children : List Node} (hchildren : ∀ n ∈ children, AssignsChars P n)
    (hlen : children.length ≤ 10) (w seq : Nat) : AssignsChars P (.internal children w seq) := by
  intro pre hpre
  rw [assign]
  exact assignFrom_chars hchildren (by omega) hpre

theorem forall_mem_insertNode {Q : Node → Prop} {n : Node} {ns : List Node} (hn : Q n) (hns : ∀ m ∈ ns, Q m) :
    ∀ m ∈ insertNode n ns, Q m := by
  induction ns with
  | nil => simpa [insertNode] using hn
  | cons a ns ih =>
    obtain ⟨ha, hns'⟩ := List.forall_mem_cons.1 hns
    rw [insertNode]
    split
    · exact List.forall_mem_cons.2 ⟨hn, hns⟩
    · exact List.forall_mem_cons.2 ⟨ha, ih hns'⟩

theorem forall_mem_sortNodes {Q : Node → Prop} {ns : List Node} (hns : ∀ m ∈ ns, Q m) :
    ∀ m ∈ sortNodes ns, Q m := by
  induction ns with
  | nil => exact hns
  | cons n ns ih =>
    obtain ⟨hn, hns⟩ := List.forall_mem_cons.1 hns
    exact forall_mem_insertNode hn (ih hns)

/-- Merges of at most ten nodes keep what `assign` needs. -/
theorem assignsChars_mergeAll {r : Nat} (hr : r ≤ 10) {fuel k : Nat} (hk : k ≤ 10) {seq : Nat}
    {ns : List Node} (hns : ∀ n ∈ ns, AssignsChars P n) :
    ∀ n ∈ mergeAll r fuel k seq ns, AssignsChars P n := by
  induction fuel generalizing k seq ns with
  | zero => exact hns
  | succ fuel ih =>
    rw [mergeAll]
    split
    · exact hns
    · refine ih hr (forall_mem_insertNode ?_ fun n hn => hns n (List.mem_of_mem_drop hn))
      exact assignsChars_internal (fun n hn => hns n (List.mem_of_mem_take hn))
        ((List.length_take_le _ _).trans hk) _ _

/-- The first merge takes at most `r` nodes (43_huffman.md rule R163). -/
theorem firstMerge_le (m : Nat) {r : Nat} (hr : 2 ≤ r) : firstMerge m r ≤ r := by
  have := Nat.mod_lt (m - 2) (show r - 1 > 0 by omega)
  rw [firstMerge]
  omega

theorem buildCode_chars {f : FreqTable} {r : Nat} (hr2 : 2 ≤ r) (hr10 : r ≤ 10) (hf : ∀ e ∈ f, P e.1) :
    CodeChars P (buildCode f r) := by
  match f with
  | [] => simp [CodeChars, buildCode]
  | [(c, n)] =>
    simp only [CodeChars, buildCode, List.forall_mem_singleton]
    exact ⟨hf _ List.mem_cons_self, isDigit_digit (by decide)⟩
  | e₁ :: e₂ :: rest =>
    intro e he
    obtain ⟨root, hroot, he⟩ := List.mem_flatMap.1 he
    refine assignsChars_mergeAll hr10 ((firstMerge_le _ hr2).trans hr10) (forall_mem_sortNodes ?_) root hroot []
      (by simp) e he
    exact List.forall_mem_map.2 fun e he => assignsChars_leaf _ (hf e he)

theorem isDigit_of_mem_codeWord {code : Code} (hcode : CodeChars P code) {c d : Character}
    (h : d ∈ codeWord code c) : isDigit d = true := by
  induction code with
  | nil => cases h
  | cons e code ih =>
    obtain ⟨he, hcode⟩ := List.forall_mem_cons.1 hcode
    simp only [codeWord] at h
    split at h
    · exact he.2 d h
    · exact ih hcode h

theorem huffEncode_output (hP : ∀ c < 0x80, P c) {r : Nat} (hr2 : 2 ≤ r) (hr10 : r ≤ 10) {src out : Text}
    (hsrc : ∀ c ∈ src, P c) (h : huffEncode r src = .ok out) : (∀ c ∈ out, P c) ∧ 5 ≤ out.length := by
  rw [huffEncode] at h
  split at h
  · cases h
  · next hne =>
    cases h
    have hfreq := forall_mem_freq hsrc
    have hstream := fun (c : Character) (_ : c ∈ src) (d : Character) hd =>
      hP d (lt_of_isDigit (isDigit_of_mem_codeWord (c := c) (buildCode_chars hr2 hr10 hfreq) hd))
    refine ⟨List.forall_mem_append.2 ⟨forall_mem_flatMap hstream, forall_mem_ser hP hfreq⟩, ?_⟩
    rw [List.length_append]
    exact (five_le_length_ser (freq_ne_nil hne)).trans (Nat.le_add_left _ _)

theorem forall_of_parseEntries {fuel : Nat} {f g : FreqTable} {t : Text} (hf : ∀ e ∈ f, P e.1)
    (ht : ∀ c ∈ t, P c) (h : parseEntries fuel f t = .ok g) : ∀ e ∈ g, P e.1 := by
  induction fuel generalizing f t with
  | zero => cases h
  | succ fuel ih =>
    simp only [parseEntries] at h
    split at h
    · cases h
    · next c n rest hread =>
      rw [readEntry_eq] at hread
      obtain ⟨hc, hrest⟩ := readCountItem_keepsChars _ _ _ hread ht
      split at h
      · cases h
      · split at h
        · cases h
        · split at h
          · cases h
          · split at h
            · split at h
              · cases h
                exact forall_mem_set hf hc
              · cases h
            · exact ih (forall_mem_set hf hc) hrest h

theorem forall_of_parseDict {d : Text} {f : FreqTable} (hd : ∀ c ∈ d, P c) (h : parseDict d = .ok f) :
    ∀ e ∈ f, P e.1 := by
  simp only [parseDict, bind_eq_ok_iff, Prod.exists, expect_ok] at h
  obtain ⟨-, t, rfl, h⟩ := h
  exact forall_of_parseEntries (by simp) (List.forall_mem_cons.1 hd).2 h

theorem symbolOf_chars {code : Code} (hcode : CodeChars P code) {buf : Text} {c : Character}
    (h : symbolOf code buf = some c) : P c := by
  induction code with
  | nil => cases h
  | cons e code ih =>
    obtain ⟨he, hcode⟩ := List.forall_mem_cons.1 hcode
    simp only [symbolOf] at h
    split at h
    · cases h
      exact he.1
    · exact ih hcode h

theorem matchStream_output {code : Code} (hcode : CodeChars P code) {stream buf out : Text}
    (h : matchStream code buf stream = .ok out) : ∀ c ∈ out, P c := by
  induction stream generalizing buf out with
  | nil =>
    simp only [matchStream] at h
    split at h
    · cases h; simp
    · cases h
  | cons d stream ih =>
    simp only [matchStream] at h
    split at h
    · exact ih h
    · next c hsymbol =>
      split at h
      · cases h
      · next rest hrest =>
        cases h
        exact List.forall_mem_cons.2 ⟨symbolOf_chars hcode hsymbol, ih hrest⟩

theorem huffDecode_output {numMax : Option Nat} {r : Nat} (hr2 : 2 ≤ r) (hr10 : r ≤ 10) {enc out : Text}
    (henc : ∀ c ∈ enc, P c) (h : huffDecode numMax r enc = .ok out) : ∀ c ∈ out, P c := by
  simp only [huffDecode, bind_eq_ok_iff] at h
  obtain ⟨f, hdict, text, hstream, h⟩ := h
  have hf := forall_of_parseDict (fun c hc => henc c ((List.dropWhile_suffix _).subset hc)) hdict
  split at h
  · cases h
    exact matchStream_output (buildCode_chars hr2 hr10 hf) hstream
  · cases h

/-! #### BWT -/

theorem forall_mem_blocks {B fuel : Nat} {t : Text} (ht : ∀ c ∈ t, P c) :
    ∀ b ∈ blocks B fuel t, ∀ c ∈ b, P c := by
  induction fuel generalizing t with
  | zero => simp [blocks]
  | succ fuel ih =>
    rw [blocks]
    split
    · simp
    · exact List.forall_mem_cons.2
        ⟨fun c hc => ht c (List.mem_of_mem_take hc), ih fun c hc => ht c (List.mem_of_mem_drop hc)⟩

theorem length_pos_of_mem_blocks {B fuel : Nat} (hB : 1 ≤ B) {t : Text} :
    ∀ b ∈ blocks B fuel t, 1 ≤ b.length := by
  induction fuel generalizing t with
  | zero => simp [blocks]
  | succ fuel ih =>
    rw [blocks]
    split
    · simp
    · next hne =>
      refine List.forall_mem_cons.2 ⟨?_, ih⟩
      rw [List.length_take]
      exact Nat.le_min.2 ⟨hB, List.length_pos_of_ne_nil hne⟩

theorem blocks_ne_nil {B : Nat} {t : Text} (ht : t ≠ []) : blocks B t.length t ≠ [] := by
  obtain ⟨c, t, rfl⟩ := List.exists_cons_of_ne_nil ht
  simp [blocks]

theorem length_insertRow (t : Text) (i : Nat) (rows : List Nat) :
    (insertRow t i rows).length = rows.length + 1 := by
  induction rows with
  | nil => rfl
  | cons j rows ih =>
    rw [insertRow]
    split
    · rfl
    · simp [ih]

theorem length_sortRows (t : Text) (rows : List Nat) : (sortRows t rows).length = rows.length := by
  induction rows with
  | nil => rfl
  | cons i rows ih => simp [sortRows, length_insertRow, ih]

/-- The column of a block is as long as the block (44_bwt.md rule R194). -/
theorem length_bwtBlock_column (t : Text) : (bwtBlock t).1.length = t.length := by
  simp [bwtBlock, rowOrder, length_sortRows]

/-- A character found by index, or the default 0 where there is none. -/
theorem getD_zero_of_forall (h0 : P 0) {t : Text} (ht : ∀ c ∈ t, P c) (i : Nat) : P (t.getD i 0) := by
  rw [List.getD_eq_getElem?_getD]
  cases h : t[i]? with
  | none => exact h0
  | some c => exact ht c (List.mem_of_getElem? h)

theorem forall_mem_bwtBlock_column (h0 : P 0) {t : Text} (ht : ∀ c ∈ t, P c) : ∀ c ∈ (bwtBlock t).1, P c :=
  List.forall_mem_map.2 fun _ _ => getD_zero_of_forall h0 ht _

theorem forall_mem_blockText (hP : ∀ c < 0x80, P c) {b : Text × Nat} (hb : ∀ c ∈ b.1, P c) :
    ∀ c ∈ blockText b, P c := by
  simp only [blockText, List.forall_mem_append, List.forall_mem_singleton]
  exact ⟨⟨⟨⟨hP _ (by decide), hb⟩, hP _ (by decide)⟩, forall_mem_dec hP _⟩, hP _ (by decide)⟩

theorem five_le_length_blockText {b : Text × Nat} (hb : 1 ≤ b.1.length) : 5 ≤ (blockText b).length := by
  have := dec_length_pos b.2
  simp only [blockText, List.length_append, List.length_cons, List.length_nil]
  omega

theorem bwtEncode_output (hP : ∀ c < 0x80, P c) {B : Nat} (hB : 1 ≤ B) {src out : Text}
    (hsrc : ∀ c ∈ src, P c) (h : bwtEncode B src = .ok out) : (∀ c ∈ out, P c) ∧ 5 ≤ out.length := by
  rw [bwtEncode] at h
  split at h
  · cases h
  · next hne =>
    cases h
    refine ⟨forall_mem_flatMap fun b hb => forall_mem_blockText hP ?_,
      le_length_flatMap (blocks_ne_nil hne) fun b hb => five_le_length_blockText ?_⟩
    · exact forall_mem_bwtBlock_column (hP 0 (by decide)) (forall_mem_blocks hsrc b hb)
    · rw [length_bwtBlock_column]
      exact length_pos_of_mem_blocks hB b hb

/-- The row check passes a block on as it is, or fails (44_bwt.md rule R203). -/
theorem rowOfColumn_ok {b b' : Text × Nat} {rest rest' : Text} (h : rowOfColumn b rest = .ok (b', rest')) :
    b' = b ∧ rest' = rest := by
  rw [rowOfColumn] at h
  split at h
  · cases h
    exact ⟨rfl, rfl⟩
  · cases h

theorem readFullBlock_keepsChars (B : Nat) : KeepsChars P (fun b => ∀ c ∈ b.1, P c) (readFullBlock B) := by
  intro u b rest h hu
  simp only [readFullBlock, bind_eq_ok_iff, Prod.exists, expect_ok] at h
  obtain ⟨-, v, hcomma, n, w, hlit, -, x, rfl, hrow⟩ := h
  obtain ⟨rfl, rfl⟩ := rowOfColumn_ok hrow
  have hv : ∀ c ∈ v, P c := fun c hc =>
    hu c (List.mem_of_mem_drop (hcomma ▸ List.mem_cons_of_mem _ hc))
  exact ⟨fun c hc => hu c (List.mem_of_mem_take hc), (List.forall_mem_cons.1 (literal_keepsChars hlit hv).2).2⟩

theorem readLastBlock_keepsChars (B : Nat) : KeepsChars P (fun b => ∀ c ∈ b.1, P c) (readLastBlock B) := by
  intro u b rest h hu
  simp only [readLastBlock] at h
  split_ifs at h
  obtain ⟨rfl, rfl⟩ := rowOfColumn_ok h
  refine ⟨fun c hc => hu c ?_, by simp⟩
  have hbody := (List.dropWhile_suffix _).subset (List.mem_of_mem_tail (List.mem_reverse.1 hc))
  exact List.mem_of_mem_dropLast (List.mem_reverse.1 hbody)

theorem readBlock_keepsChars (B : Nat) : KeepsChars P (fun b => ∀ c ∈ b.1, P c) (readBlock B) := by
  intro t b rest h ht
  simp only [readBlock, bind_eq_ok_iff, Prod.exists, expect_ok] at h
  obtain ⟨-, u, rfl, h⟩ := h
  have hu := (List.forall_mem_cons.1 ht).2
  split at h
  · exact readFullBlock_keepsChars B h hu
  · exact readLastBlock_keepsChars B h hu

theorem forall_mem_walk (h0 : P 0) {col : Text} (hcol : ∀ c ∈ col, P c) (n i : Nat) : ∀ c ∈ walk col n i, P c := by
  induction n generalizing i with
  | zero => simp [walk]
  | succ n ih => exact List.forall_mem_cons.2 ⟨getD_zero_of_forall h0 hcol i, ih _⟩

theorem bwtDecode_output (h0 : P 0) {numMax : Option Nat} {B : Nat} {enc out : Text} (henc : ∀ c ∈ enc, P c)
    (h : bwtDecode numMax B enc = .ok out) : ∀ c ∈ out, P c := by
  obtain ⟨bs, hread, h⟩ := bind_eq_ok_iff.1 h
  have hbs := forall_of_readSome (readBlock_keepsChars B) hread henc
  split at h
  · cases h
    exact forall_mem_flatMap fun b hb c hc =>
      forall_mem_walk h0 (hbs b hb) _ _ c (List.mem_reverse.1 hc)
  · cases h

end Outputs

end Sys2Proof.Machine

namespace Sys2Proof.Machine

/-! ### The size of a text (40_common.md rules R101, R102) -/

theorem le_widthFrom (fuel w k : Nat) : w ≤ widthFrom fuel w k := by
  induction fuel generalizing w with
  | zero => exact le_rfl
  | succ fuel ih =>
    rw [widthFrom]
    split
    · exact le_rfl
    · exact (Nat.le_succ w).trans (ih _)

theorem widthFrom_le {v k : Nat} (hk : k ≤ 2 ^ v) (fuel : Nat) {w : Nat} (hw : w ≤ v) :
    widthFrom fuel w k ≤ v := by
  induction fuel generalizing w with
  | zero => exact hw
  | succ fuel ih =>
    rw [widthFrom]
    split
    · exact hw
    · next hkw => exact ih (lt_of_le_of_ne hw fun heq => hkw (heq ▸ hk))

theorem one_le_width (k : Nat) : 1 ≤ width k := le_widthFrom k 1 k

/-- No width of at least 1 that is enough is smaller. -/
theorem width_le {v k : Nat} (hv : 1 ≤ v) (hk : k ≤ 2 ^ v) : width k ≤ v := widthFrom_le hk k hv

theorem length_le_bits (t : Text) : t.length ≤ bits t := Nat.le_mul_of_pos_right _ (one_le_width _)

/-- A text has no more different characters than the build has characters. -/
theorem distinct_le {b : Build} {t : Text} (ht : ∀ c ∈ t, b.isChar c = true) : distinct t ≤ 2 ^ b.charW := by
  have hsub : t.dedup ⊆ List.range (2 ^ b.charW) := fun c hc =>
    List.mem_range.2 (of_decide_eq_true (ht c (List.mem_dedup.1 hc)))
  simpa [distinct] using (List.subperm_of_subset t.nodup_dedup hsub).length_le

/-- The size of a text of at most `m` characters fits a ratio register (10_state.md rule R28). -/
theorem bits_le {b : Build} {t : Text} {m : Nat} (hw : 1 ≤ b.charW) (ht : ∀ c ∈ t, b.isChar c = true)
    (hlen : t.length ≤ m) : bits t ≤ m * b.charW :=
  Nat.mul_le_mul hlen (width_le hw (distinct_le ht))

/-! ### What a legal build gives (00_scope.md Table P1) -/

theorem seven_le_charW {b : Build} (h : b.ok = true) : 7 ≤ b.charW := by
  simp only [Build.ok, Bool.and_eq_true, decide_eq_true_eq] at h
  obtain ⟨⟨⟨⟨⟨⟨⟨⟨hw, -⟩, -⟩, -⟩, -⟩, -⟩, -⟩, -⟩, -⟩ := h
  exact hw

theorem one_le_bwtBlock {b : Build} (h : b.ok = true) : 1 ≤ b.bwtBlock := by
  simp only [Build.ok, Bool.and_eq_true, decide_eq_true_eq] at h
  obtain ⟨⟨⟨⟨⟨-, hB⟩, -⟩, -⟩, -⟩, -⟩ := h
  exact hB

theorem isChar_lzSentinel {b : Build} (h : b.ok = true) : b.isChar b.lzSentinel = true := by
  simp only [Build.ok, Bool.and_eq_true] at h
  obtain ⟨⟨⟨⟨-, hs⟩, -⟩, -⟩, -⟩ := h
  exact hs

/-- The characters of the wire grammars are characters of every legal build. -/
theorem isChar_of_lt {b : Build} (h : b.ok = true) : ∀ c < 0x80, b.isChar c = true := fun _ hc =>
  decide_eq_true (lt_of_lt_of_le hc (Nat.pow_le_pow_right (n := 2) (by decide) (seven_le_charW h)))

/-! ### What a successful operation writes -/

/-- In a legal build every operation writes characters of the build, and an encode writes at least five of
them (40_common.md rule R103). -/
theorem familyResult_output {i : Instr} {s : State} {out : Text} (hb : s.build.ok = true)
    (hin : ∀ e ∈ s.inBuf, s.build.isChar e.2 = true) (h : familyResult s i = .ok out) :
    (∀ c ∈ out, s.build.isChar c = true) ∧ (i.direction = .encode → 5 ≤ out.length) := by
  have hP := isChar_of_lt hb
  have hsrc : ∀ c ∈ inputText s, s.build.isChar c = true := fun _ => isChar_of_mem_inputText hin
  cases i with
  | rleEnc => exact (rleEncode_output hP hsrc h).imp_right fun hlen _ => hlen
  | rleDec => exact ⟨rleDecode_output hsrc h, nofun⟩
  | lz78Enc => exact (lz78Encode_output hP (isChar_lzSentinel hb) hsrc h).imp_right fun hlen _ => hlen
  | lz78Dec => exact ⟨lz78Decode_output hsrc h, nofun⟩
  | huffEnc radix =>
    rw [familyResult] at h
    split at h
    · next hlegal =>
      obtain ⟨hr2, hr10⟩ := (radixLegal_iff hb radix).1 hlegal
      exact (huffEncode_output hP hr2 hr10 hsrc h).imp_right fun hlen _ => hlen
    · cases h
  | huffDec radix =>
    rw [familyResult] at h
    split at h
    · next hlegal =>
      obtain ⟨hr2, hr10⟩ := (radixLegal_iff hb radix).1 hlegal
      exact ⟨huffDecode_output hr2 hr10 hsrc h, nofun⟩
    · cases h
  | bwtEnc => exact (bwtEncode_output hP (one_le_bwtBlock hb) hsrc h).imp_right fun hlen _ => hlen
  | bwtDec => exact ⟨bwtDecode_output (hP 0 (by decide)) hsrc h, nofun⟩

theorem direction_instrOfOp (op : BitVec 3) (radix : BitVec 4) :
    (instrOfOp op radix).direction = if op.getLsbD 0 then .decode else .encode := by
  revert op radix
  decide

/-- `OP[0]` is bit 0 of the command word and the direction of its operation (30_encoding.md rule R70). -/
theorem direction_of_decodeWord {w : BitVec 8} {i : Instr} (h : decodeWord w = .ok i) :
    i.direction = if w.getLsbD 0 then .decode else .encode := by
  rw [decodeWord] at h
  split at h
  · cases h
  · cases h
    rw [direction_instrOfOp, opField, BitVec.getLsbD_extractLsb']
    simp

/-! ### The invariant, kept by each update of the state -/

/-! It speaks of the block alone: what changes the host's side of the interface keeps every clause as it is. -/

theorem inv_popTurn {s : State} (hs : s.Inv) : (popTurn s).Inv := { hs with }

theorem inv_answer {s : State} (hs : s.Inv) (r : Reply) : (answer r s).Inv := { hs with }

theorem inv_answerDrawn {s : State} (hs : s.Inv) (r : Nat → Reply) : (answerDrawn r s).Inv := { hs with }

/-- A START makes every clause about DONE and IDLE empty. -/
theorem inv_beginCommand {s : State} (hs : s.Inv) (w : BitVec 8) : (beginCommand w s).Inv :=
  { hs with
    busy_ok := fun _ => rfl
    idle_reset := nofun
    failed_empty := fun herr => absurd rfl herr
    decode_ratio := nofun
    encode_size := nofun }

theorem inv_storeIn {s : State} (hs : s.Inv) {i : Nat} {c : Character} (hi : inRange s.build.maxIn i = true)
    (hc : s.build.isChar c = true) : (storeIn i c s).Inv :=
  { hs with
    in_wf := Memory.write_wf hs.in_wf i c
    in_range := fun e he => by
      obtain rfl | he := Memory.mem_write he
      · exact hi
      · exact hs.in_range e he
    in_chars := fun e he => by
      obtain rfl | he := Memory.mem_write he
      · exact hc
      · exact hs.in_chars e he }

theorem inv_storeInLen {s : State} (hs : s.Inv) {n : Nat} (hn : withinCap s.build.maxIn n = true) :
    (storeInLen n s).Inv :=
  { hs with inLen_legal := hn }

theorem inv_applyReset {s : State} (hs : s.Inv) : (applyReset s).Inv where
  build_ok := hs.build_ok
  in_wf := .nil
  in_range := nofun
  in_chars := nofun
  out_chars := nofun
  inLen_legal := withinCap_zero _
  outLen_legal := withinCap_zero _
  out_exact := rfl
  busy_ok := nofun
  idle_reset := fun _ => ⟨rfl, rfl, rfl, rfl, rfl⟩
  failed_empty := fun herr => absurd rfl herr
  ratioSrc_le := fun _ _ => Nat.zero_le _
  ratioEnc_le := fun _ _ => Nat.zero_le _
  decode_ratio := nofun
  encode_size := nofun

theorem kind_ne_ok (k : Raise) : k.kind ≠ .ok := by cases k <;> simp [Raise.kind]

theorem inv_failWith {s : State} (hs : s.Inv) (k : Raise) : (failWith k s).Inv :=
  { hs with
    out_chars := nofun
    outLen_legal := withinCap_zero _
    out_exact := rfl
    busy_ok := nofun
    idle_reset := nofun
    failed_empty := fun _ => ⟨rfl, rfl, rfl⟩
    ratioSrc_le := fun _ _ => Nat.zero_le _
    ratioEnc_le := fun _ _ => Nat.zero_le _
    decode_ratio := fun _ _ => ⟨rfl, rfl⟩
    encode_size := fun _ herr => absurd herr (kind_ne_ok k) }

theorem ratioSrc_completeOk_le (d : Direction) (src out : Text) (s : State) :
    (completeOk d src out s).ratioSrc ≤ bits src := by
  cases d with
  | encode => exact le_rfl
  | decode => exact Nat.zero_le _

theorem ratioEnc_completeOk_le (d : Direction) (src out : Text) (s : State) :
    (completeOk d src out s).ratioEnc ≤ bits out := by
  cases d with
  | encode => exact le_rfl
  | decode => exact Nat.zero_le _

/-- Successful completion keeps the invariant when the text fits, is made of characters, has the size of an
encode's output, and the direction is the command's. -/
theorem inv_completeOk {s : State} (hs : s.Inv) {d : Direction} {out : Text}
    (hd : d = if s.cmd.getLsbD 0 then .decode else .encode) (hfit : withinCap s.build.maxOut out.length = true)
    (hchars : ∀ c ∈ out, s.build.isChar c = true) (hsize : d = .encode → 5 ≤ out.length) :
    (completeOk d (inputText s) out s).Inv :=
  have hw : 1 ≤ s.build.charW := le_trans (by decide) (seven_le_charW hs.build_ok)
  { hs with
    out_chars := fun e he => hchars e.2 (Memory.mem_ofTextFrom he)
    outLen_legal := hfit
    out_exact := Memory.ofText_indices out
    busy_ok := nofun
    idle_reset := nofun
    failed_empty := fun herr => absurd rfl herr
    ratioSrc_le := fun m hm => by
      have hlen : (inputText s).length ≤ m := by
        rw [inputText_length]
        exact withinCap_some_iff.1 (hm ▸ hs.inLen_legal)
      exact (ratioSrc_completeOk_le ..).trans
        (bits_le hw (fun _ => isChar_of_mem_inputText hs.in_chars) hlen)
    ratioEnc_le := fun m hm =>
      (ratioEnc_completeOk_le ..).trans (bits_le hw hchars (withinCap_some_iff.1 (hm ▸ hfit)))
    decode_ratio := fun _ hbit => by
      rw [completeOk_cmd] at hbit
      rw [hd, hbit]
      exact ⟨rfl, rfl⟩
    encode_size := fun _ _ hbit => by
      rw [completeOk_cmd] at hbit
      obtain rfl : d = .encode := by rw [hd, hbit]; rfl
      have hlen := hsize rfl
      exact ⟨hlen, hlen.trans (length_le_bits out)⟩ }

/-! ### The step keeps the invariant -/

theorem inv_hostAct {s : State} (hs : s.Inv) (a : HostAction) : (hostAct a s).Inv := by
  obtain ⟨w, -, -, h⟩ | ⟨i, c, -, -, hi, h⟩ | ⟨n, -, -, hn, h⟩ | ⟨-, h⟩ | ⟨-, ⟨r, h⟩ | ⟨r, h⟩⟩ := hostAct_cases a s
  · exact h ▸ inv_beginCommand hs w
  · exact h ▸ inv_storeIn hs hi (isChar_cellOf _ _)
  · exact h ▸ inv_storeInLen hs hn
  · exact h.symm ▸ hs
  · exact h ▸ inv_answer hs r
  · exact h ▸ inv_answerDrawn hs r

theorem inv_blockTurn {s t : State} (hs : s.Inv) (h : blockTurn s = .next t) : t.Inv := by
  by_cases hbusy : s.phase = .busy
  · obtain ⟨k, rfl⟩ | ⟨i, out, hdecode, hresult, hfit, rfl⟩ := blockTurn_completion hbusy h
    · exact inv_failWith hs k
    · obtain ⟨hchars, hsize⟩ := familyResult_output hs.build_ok hs.in_chars hresult
      exact inv_completeOk hs (direction_of_decodeWord hdecode) hfit hchars hsize
  · obtain ⟨-, rfl⟩ | ⟨hb, -⟩ | ⟨hb, -⟩ := blockTurn_cases h
    · exact hs
    · exact absurd hb hbusy
    · exact absurd hb hbusy

/-- Settles O8, by the turn the step takes: a completion, a host action or reset, on the state with the turn
taken off the agenda. -/
theorem stepKeepsInvariant : Obligations.StepKeepsInvariant := by
  intro s t hs h
  have hpop := inv_popTurn hs
  obtain ⟨-, hblock⟩ | ⟨a, -, rfl⟩ | ⟨-, rfl⟩ := step_cases h
  · exact inv_blockTurn hpop hblock
  · exact inv_hostAct hpop a
  · exact inv_applyReset hpop

end Sys2Proof.Machine

namespace Sys2Proof.Machine

/-! ### What a step writes, by the turn it takes -/

/-- What a cell of IN holds, written or not, rests on the block alone (20_memory.md rules R53, R54). -/
theorem inCell_of_sameBlock {s t : State} (h : SameBlock s t) (a : Nat) : inCell t a = inCell s a := by
  simp [inCell, unwrittenCell, h.inBuf, h.build, h.epoch]

/-- A cell of IN that a write to cell `i` changes is cell `i`. -/
theorem eq_of_storeIn_changes {s : State} {i a : Nat} {c : Character}
    (h : (storeIn i c s).inBuf.read a ≠ s.inBuf.read a ∨ inCell (storeIn i c s) a ≠ inCell s a) : i = a := by
  by_contra ha
  simp [Memory.read_write_other _ _ _ _ (Ne.symm ha), inCell_storeIn, Ne.symm ha] at h

/-- Everything a step to a next state can write: nothing of the block, or what the one action of its turn
writes (10_state.md rules R30 to R32). -/
inductive StepWrites (s : State) : State → Prop
  | nothing {t : State} (h : SameBlock s t) : StepWrites s t
  | reset (hturn : nextTurn s = .reset) : StepWrites s (applyReset (popTurn s))
  /-- A completion writes `OUT`, the result registers, `ERR` and `STATE` (40_common.md rules R107, R108). -/
  | completion (hturn : nextTurn s = .block) (hbusy : s.phase = .busy) (outBuf : Memory)
      (outLen ratioSrc ratioEnc : Nat) (err : ErrKind) :
      StepWrites s { popTurn s with
        outBuf := outBuf, outLen := outLen, ratioSrc := ratioSrc, ratioEnc := ratioEnc, err := err, phase := .done }
  | start (w : BitVec 8) (hturn : nextTurn s = .host (.start w)) (hp : s.phase ≠ .busy) :
      StepWrites s (beginCommand w (popTurn s))
  | wrIn (i : Nat) (c : Character) (hturn : nextTurn s = .host (.wrIn i c)) (hp : s.phase ≠ .busy) :
      StepWrites s (storeIn i (cellOf s.build c) (popTurn s))
  | setInLen (n : Nat) (hturn : nextTurn s = .host (.setInLen n)) (hp : s.phase ≠ .busy) :
      StepWrites s (storeInLen n (popTurn s))

theorem sameBlock_popTurn (s : State) : SameBlock s (popTurn s) :=
  ⟨rfl, rfl, rfl, rfl, rfl, rfl, rfl, rfl, rfl, rfl, rfl⟩

/-- The block's turn is a completion while BUSY and changes nothing otherwise. -/
theorem stepWrites_of_blockTurn {s t : State} (hturn : nextTurn s = .block) (h : blockTurn (popTurn s) = .next t) :
    StepWrites s t := by
  by_cases hbusy : s.phase = .busy
  · obtain ⟨k, rfl⟩ | ⟨i, out, -, -, -, rfl⟩ := blockTurn_completion (s := popTurn s) hbusy h
    · exact .completion hturn hbusy _ _ _ _ _
    · exact .completion hturn hbusy _ _ _ _ _
  · obtain ⟨-, rfl⟩ | ⟨hb, -⟩ | ⟨hb, -⟩ := blockTurn_cases h
    · exact .nothing (sameBlock_popTurn s)
    · exact absurd hb hbusy
    · exact absurd hb hbusy

theorem stepWrites_of_hostAct {s : State} {a : HostAction} (hturn : nextTurn s = .host a) :
    StepWrites s (hostAct a (popTurn s)) := by
  obtain ⟨w, rfl, hp, h⟩ | ⟨i, c, rfl, hp, -, h⟩ | ⟨n, rfl, hp, -, h⟩ | ⟨-, h⟩ | ⟨-, ⟨r, h⟩ | ⟨r, h⟩⟩ :=
    hostAct_cases a (popTurn s)
  · exact h ▸ .start w hturn hp
  · exact h ▸ .wrIn i c hturn hp
  · exact h ▸ .setInLen n hturn hp
  · exact h.symm ▸ .nothing (sameBlock_popTurn s)
  · exact h ▸ .nothing (sameBlock_answer r s)
  · exact h ▸ .nothing (sameBlock_answerDrawn r s)

theorem stepWrites_of_step {s t : State} (h : step s = .next t) : StepWrites s t := by
  obtain ⟨hturn, hblock⟩ | ⟨a, hturn, rfl⟩ | ⟨hturn, rfl⟩ := step_cases h
  · exact stepWrites_of_blockTurn hturn hblock
  · exact stepWrites_of_hostAct hturn
  · exact .reset hturn

/-- Settles O12: each action writes its own fields, and of `IN` the one cell it names. -/
theorem whoChangesWhat : Obligations.WhoChangesWhat := by
  intro s t h
  cases stepWrites_of_step h with
  | nothing h =>
    simp [inCell_of_sameBlock h, h.build, h.phase, h.epoch, h.cmd, h.err, h.inLen, h.inBuf, h.outLen, h.ratioSrc,
      h.ratioEnc, h.outBuf]
  | reset hturn => simp [hturn]
  | completion hturn hbusy => simp [hturn, hbusy, inCell, unwrittenCell]
  | start w hturn hp => simp [hturn, hp]
  | wrIn i c hturn hp =>
    have hcell (a : Nat) := eq_of_storeIn_changes (s := popTurn s) (i := i) (a := a) (c := cellOf s.build c)
    simpa [hturn, hp] using hcell
  | setInLen n hturn hp => simp [hturn, hp]

/-! ### Runs -/

theorem nextTurn_of_agenda {s : State} {turn : Turn} {rest : List Turn} (h : s.agenda = turn :: rest) :
    nextTurn s = turn := by
  rw [nextTurn, h]
  rfl

theorem run_succ_of_step {M : Host.Core} {s t : M.State} (h : M.step s = .next t) (k : Nat) :
    M.run (k + 1) s = M.run k t := by
  simp only [Host.Core.run, h]

theorem core_run_succ_of_step {s t : State} (h : step s = .next t) (k : Nat) : core.run (k + 1) s = core.run k t :=
  run_succ_of_step (M := core) (s := s) (t := t) h k

theorem run_add {M : Host.Core} {j : Nat} {s t : M.State} (h : M.run j s = .next t) (k : Nat) :
    M.run (j + k) s = M.run k t := by
  induction j generalizing s with
  | zero =>
    cases h
    rw [Nat.zero_add]
  | succ j ih =>
    simp only [Host.Core.run] at h
    split at h
    · next u hu => rw [Nat.add_right_comm, run_succ_of_step hu, ih h]
    · cases h
    · cases h

/-! ### LOAD -/

/-- The cells of a text written one after another from index `base` on, as the writes of LOAD do
(30_encoding.md rule R89). -/
def Memory.writeText : Memory → Nat → Text → Memory
  | m, _, [] => m
  | m, base, c :: text => Memory.writeText (m.write base c) (base + 1) text

theorem Memory.read_writeText_below (m : Memory) {base k : Nat} (h : k < base) (text : Text) :
    (m.writeText base text).read k = m.read k := by
  induction text generalizing m base with
  | nil => rfl
  | cons c text ih =>
    rw [Memory.writeText, ih _ (Nat.lt_succ_of_lt h), Memory.read_write_other _ _ _ _ h.ne]

/-- From `base` on the cells hold the text and, beyond it, what they held. -/
theorem Memory.read_writeText_add (m : Memory) (base i : Nat) (text : Text) :
    (m.writeText base text).read (base + i) = text[i]?.or (m.read (base + i)) := by
  induction text generalizing m base i with
  | nil => rfl
  | cons c text ih =>
    rw [Memory.writeText]
    cases i with
    | zero =>
      exact (Memory.read_writeText_below _ (Nat.lt_add_one base) text).trans (Memory.read_write_same m base c)
    | succ i =>
      rw [← Nat.add_assoc, Nat.add_right_comm, ih, Memory.read_write_other _ _ _ _ (by omega)]
      rfl

theorem Memory.read_writeText (m : Memory) (i : Nat) (text : Text) :
    (m.writeText 0 text).read i = text[i]?.or (m.read i) := by
  simpa using m.read_writeText_add 0 i text

/-- Whatever the buffer held, its text is the text written to it. -/
theorem Memory.text_writeText (free : Nat → Character) (m : Memory) (text : Text) :
    (m.writeText 0 text).text free text.length = text := by
  apply List.ext_getElem
  · exact Memory.text_length _ _ _
  · intro i _ hi
    simp [Memory.text, Memory.read_writeText, hi]

theorem inRange_of_withinCap {cap : Option Nat} {i n : Nat} (hi : i < n) (h : withinCap cap n = true) :
    inRange cap i = true := by
  cases cap with
  | none => rfl
  | some m => exact decide_eq_true (hi.trans_le (withinCap_some_iff.1 h))

theorem step_wrIn {s : State} {i : Nat} {c : Character} {rest : List Turn} (hp : s.phase ≠ .busy)
    (hi : inRange s.build.maxIn i = true) (hc : s.build.isChar c = true)
    (h : s.agenda = .host (.wrIn i c) :: rest) :
    step s = .next { s with inBuf := s.inBuf.write i c, agenda := rest } := by
  rw [step_of_host (nextTurn_of_agenda h), hostAct_wrIn (s := popTurn s) c hp hi, popTurn_build,
    cellOf_of_isChar hc, storeIn, popTurn, h]
  rfl

theorem step_setInLen {s : State} {n : Nat} {rest : List Turn} (hp : s.phase ≠ .busy)
    (hn : withinCap s.build.maxIn n = true) (h : s.agenda = .host (.setInLen n) :: rest) :
    step s = .next { s with inLen := n, agenda := rest } := by
  rw [step_of_host (nextTurn_of_agenda h), hostAct_setInLen (s := popTurn s) hp hn, storeInLen, popTurn, h]
  rfl

/-- The writes of LOAD run through when the block is not BUSY, and write their cells of IN alone. -/
theorem run_writeTurns {text : Text} {base : Nat} {s : State} {rest : List Turn} (hp : s.phase ≠ .busy)
    (hfit : withinCap s.build.maxIn (base + text.length) = true) (hc : ∀ c ∈ text, s.build.isChar c = true)
    (h : s.agenda = writeTurns base text ++ rest) :
    core.run text.length s = .next { s with inBuf := s.inBuf.writeText base text, agenda := rest } := by
  induction text generalizing base s with
  | nil => exact congrArg (fun agenda => Host.Outcome.next { s with agenda := agenda }) h
  | cons c text ih =>
    rw [List.forall_mem_cons] at hc
    have hi : inRange s.build.maxIn base = true := inRange_of_withinCap (by simp) hfit
    have hrun := core_run_succ_of_step (step_wrIn hp hi hc.1 h) text.length
    rw [List.length_cons, ← Nat.add_assoc, Nat.add_right_comm] at hfit
    exact hrun.trans (ih (s := { s with inBuf := _, agenda := _ }) hp hfit hc.2 rfl)

/-- LOAD is its writes and then SET_IN_LEN (30_encoding.md rule R89). -/
theorem run_loadTurns {text : Text} {s : State} {rest : List Turn} (hp : s.phase ≠ .busy)
    (hfit : withinCap s.build.maxIn text.length = true) (hc : ∀ c ∈ text, s.build.isChar c = true)
    (h : s.agenda = loadTurns text ++ rest) :
    core.run (text.length + 1) s = .next
      { s with inBuf := s.inBuf.writeText 0 text, inLen := text.length, agenda := rest } := by
  rw [loadTurns, List.append_assoc] at h
  have hwrites := run_writeTurns hp (by rwa [Nat.zero_add]) hc h
  have hlen := step_setInLen (s := { s with inBuf := s.inBuf.writeText 0 text, agenda := _ }) (rest := rest)
    hp hfit rfl
  exact (run_add (M := core) hwrites 1).trans (core_run_succ_of_step hlen 0)

/-- Settles O20: the run of LOAD writes IN and `IN_LEN`, and the cells of IN hold the text and, beyond it,
what they held. -/
theorem loadPutsTheText : Obligations.LoadPutsTheText := by
  intro s text rest hp hfit hc hagenda
  refine ⟨_, run_loadTurns hp hfit hc hagenda, Memory.text_writeText _ _ _, fun k hk => ?beyond,
    rfl, rfl, rfl, rfl, rfl, rfl, rfl, rfl, rfl, rfl, rfl, rfl, rfl⟩
  case beyond =>
    have hread : (s.inBuf.writeText 0 text).read k = s.inBuf.read k := by
      rw [Memory.read_writeText, List.getElem?_eq_none hk, Option.none_or]
    exact ⟨congrArg (·.getD (unwrittenCell s k)) hread, hread⟩

end Sys2Proof.Machine

namespace Sys2Proof.Machine

/-! ### The command word (30_encoding.md rules R70 to R72, R87 to R90) -/

/-- A command word is its three fields side by side. -/
theorem fields_append (w : BitVec 8) : rsvField w ++ radixField w ++ opField w = w := by
  have hhigh : rsvField w ++ radixField w = w.extractLsb' 3 5 :=
    BitVec.extractLsb'_append_extractLsb'_eq_extractLsb' rfl
  rw [hhigh]
  exact (BitVec.extractLsb'_append_extractLsb'_eq_extractLsb' rfl).trans BitVec.extractLsb'_eq_self

/-- Bit 7 is the whole field `RSV`. -/
theorem rsvField_eq (w : BitVec 8) : rsvField w = BitVec.ofBool (w.getLsbD 7) := by
  ext i hi
  obtain rfl : i = 0 := by omega
  simp [rsvField]

theorem rsvField_eq_one_iff {w : BitVec 8} : rsvField w = 1#1 ↔ w.getLsbD 7 = true := by
  rw [rsvField_eq]
  exact BitVec.ofBool_eq_iff_eq (b' := true)

theorem rsvField_eq_zero_iff {w : BitVec 8} : rsvField w = 0#1 ↔ w.getLsbD 7 = false := by
  rw [rsvField_eq]
  exact BitVec.ofBool_eq_iff_eq (b' := false)

theorem decodeWord_of_rsv_set {w : BitVec 8} (h : w.getLsbD 7 = true) :
    decodeWord w = .error .reservedBitSet := if_pos (rsvField_eq_one_iff.2 h)

theorem decodeWord_of_rsv_clear {w : BitVec 8} (h : w.getLsbD 7 = false) :
    decodeWord w = .ok (instrOfOp (opField w) (radixField w)) :=
  if_neg fun hrsv => Bool.false_ne_true (h.symm.trans (rsvField_eq_one_iff.1 hrsv))

/-- Table E1 read from the operation to its `OP` value and back. -/
theorem instrOfOp_op_radix (i : Instr) : instrOfOp i.op i.radix = i := by cases i <;> rfl

/-- Table E1 read from an `OP` value to its operation and back. -/
theorem fields_instrOfOp (op : BitVec 3) (radix : BitVec 4) :
    (instrOfOp op radix).op = op ∧ (instrOfOp op radix).radix = radix := by
  revert op radix
  decide

/-- The fields of the word that the encoder writes. -/
theorem fields_encodeWord (i : Instr) : Laws.WordFields.Statement i := Laws.WordFields.fields_of_parts i.radix i.op

theorem getLsbD_seven_encodeWord (i : Instr) : (encodeWord i).getLsbD 7 = false := by
  obtain ⟨hrsv, -, -⟩ := fields_encodeWord i
  exact rsvField_eq_zero_iff.1 hrsv

theorem decodeWord_encodeWord (i : Instr) : decodeWord (encodeWord i) = .ok i := by
  obtain ⟨-, hradix, hop⟩ := fields_encodeWord i
  rw [decodeWord_of_rsv_clear (getLsbD_seven_encodeWord i), hradix, hop, instrOfOp_op_radix]

/-- A word with `RSV = 0` is the one the encoder writes for its operation. -/
theorem encodeWord_instrOfOp {w : BitVec 8} (h : w.getLsbD 7 = false) :
    encodeWord (instrOfOp (opField w) (radixField w)) = w := by
  obtain ⟨hop, hradix⟩ := fields_instrOfOp (opField w) (radixField w)
  calc encodeWord (instrOfOp (opField w) (radixField w))
      = 0#1 ++ radixField w ++ opField w := by rw [encodeWord, hop, hradix]
    _ = w := by rw [← rsvField_eq_zero_iff.2 h, fields_append]

/-- The decoder is the inverse of the encoder: a word is an operation just when the encoder writes it. -/
theorem decodeWord_eq_ok_iff {w : BitVec 8} {i : Instr} : decodeWord w = .ok i ↔ encodeWord i = w := by
  refine ⟨fun h => ?_, fun h => h ▸ decodeWord_encodeWord i⟩
  cases hbit : w.getLsbD 7 with
  | true => cases h.symm.trans (decodeWord_of_rsv_set hbit)
  | false =>
    cases h.symm.trans (decodeWord_of_rsv_clear hbit)
    exact encodeWord_instrOfOp hbit

/-- Settles O1, by the two directions of `decodeWord_eq_ok_iff`. -/
theorem commandWordRoundTrip : Obligations.CommandWordRoundTrip := by
  refine ⟨fun i rest => ?decoded, fun w i => decodeWord_eq_ok_iff.1, fun w => ⟨?clear, ?decodes⟩⟩
  case decoded => simp [encode, decode, decodeWord_encodeWord]
  case clear =>
    rintro ⟨i, h⟩
    exact decodeWord_eq_ok_iff.1 h ▸ getLsbD_seven_encodeWord i
  case decodes => exact fun h => ⟨_, decodeWord_of_rsv_clear h⟩

/-- The mask 0x87 keeps `RSV` and `OP` (30_encoding.md rule R90). -/
theorem fields_and_mask (w : BitVec 8) :
    rsvField (w &&& 0x87#8) = rsvField w ∧ opField (w &&& 0x87#8) = opField w := by
  revert w
  decide

/-- A word that under the mask is an `OP` value alone decodes to the operation of that value. -/
theorem decodeWord_of_match {w : BitVec 8} {op : BitVec 3} (h : w &&& 0x87#8 = 0#1 ++ 0#4 ++ op) :
    decodeWord w = .ok (instrOfOp op (radixField w)) := by
  obtain ⟨hrsv, hop⟩ := fields_and_mask w
  obtain ⟨hrsv', -, hop'⟩ := Laws.WordFields.fields_of_parts 0#4 op
  rw [h] at hrsv hop
  rw [decodeWord_of_rsv_clear (rsvField_eq_zero_iff.1 (hrsv.symm.trans hrsv')), ← hop, hop']

/-- Settles O2: each row is one `OP` value of `decodeWord_of_match`. -/
theorem opcodeTableRowsDecode : Obligations.OpcodeTableRowsDecode := fun w =>
  ⟨decodeWord_of_match (op := 0#3), decodeWord_of_match (op := 1#3), decodeWord_of_match (op := 2#3),
    decodeWord_of_match (op := 3#3), decodeWord_of_match (op := 4#3), decodeWord_of_match (op := 5#3),
    decodeWord_of_match (op := 6#3), decodeWord_of_match (op := 7#3),
    fun h => decodeWord_of_rsv_set (by simpa using congrArg (·.getLsbD 7) h)⟩

/-- Settles O3: each word is the one the encoder writes for its operation. -/
theorem specCommandWords : Obligations.SpecCommandWords :=
  ⟨decodeWord_encodeWord (.rleEnc 0), decodeWord_encodeWord (.rleDec 0), decodeWord_encodeWord (.lz78Enc 0),
    decodeWord_encodeWord (.lz78Dec 0), decodeWord_encodeWord (.huffEnc 3), decodeWord_encodeWord (.huffDec 10),
    decodeWord_encodeWord (.bwtEnc 7), decodeWord_encodeWord (.bwtDec 0)⟩

/-! ### What the block makes of `RSV` and `RADIX` (30_encoding.md rules R71, R72) -/

theorem step_of_busy_block {s : State} (hbusy : s.phase = .busy) (hturn : nextTurn s = .block) :
    step s = runCommand (popTurn s) := by
  simp [step, hturn, takeTurn, blockTurn, hbusy]

theorem runCommand_of_rsv_set {s : State} (h : s.cmd.getLsbD 7 = true) :
    runCommand s = .next (failWith .invalidArgument s) := by
  rw [runCommand, decodeWord_of_rsv_set h]

/-- Settles O5: the step is a failed completion, which writes the result registers, `ERR` and `STATE` alone. -/
theorem reservedCommandFails : Obligations.ReservedCommandFails := fun s hbusy hturn hrsv =>
  ⟨failWith .invalidArgument (popTurn s), (step_of_busy_block hbusy hturn).trans (runCommand_of_rsv_set hrsv),
    rfl, rfl, rfl, rfl, rfl, Memory.read_nil, rfl, rfl, rfl, rfl⟩

theorem radix_of_decodeWord {w : BitVec 8} {i : Instr} (h : decodeWord w = .ok i) : i.radix = radixField w := by
  obtain ⟨-, hradix, -⟩ := fields_encodeWord i
  rw [← hradix, decodeWord_eq_ok_iff.1 h]

/-- A radix out of range fails both Huffman operations before the input is looked at (43_huffman.md rule
R161). -/
theorem exec_huff_of_illegal {s : State} {radix : BitVec 4} (h : ¬ radixLegal s.build radix = true) :
    exec (.huffEnc radix) s = .next (failWith .invalidArgument s) ∧
      exec (.huffDec radix) s = .next (failWith .invalidArgument s) :=
  ⟨congrArg Host.Outcome.next (if_neg h), congrArg Host.Outcome.next (if_neg h)⟩

/-- Settles O31; the meanings of the six other operations do not name their `RADIX`. -/
theorem Encoding.radixOperand : Obligations.RadixOperand := by
  refine ⟨fun w i => radix_of_decodeWord, fun s radix hb hrange => ?illegal, fun s p q =>
    ⟨rfl, rfl, rfl, rfl, rfl, rfl⟩⟩
  case illegal =>
    have hillegal : ¬ radixLegal s.build radix = true := by
      rw [radixLegal_iff hb]
      omega
    obtain ⟨henc, hdec⟩ := exec_huff_of_illegal hillegal
    exact ⟨⟨_, henc, rfl⟩, ⟨_, hdec, rfl⟩⟩

/-! ### Decimal literals (30_encoding.md rules R75, R76) -/

/-- The digits already written stand unchanged behind those still to come. -/
theorem decAux_append (fuel n : Nat) (acc rest : Text) :
    decAux fuel n (acc ++ rest) = decAux fuel n acc ++ rest := by
  induction fuel generalizing n acc with
  | zero => rfl
  | succ fuel ih =>
    simp only [decAux]
    split
    · rfl
    · exact ih (n / 10) (digit (n % 10) :: acc)

/-- `dec` has fuel enough: any two amounts above `n` give the same digits. -/
theorem decAux_eq_of_lt {fuel fuel' n : Nat} (h : n < fuel) (h' : n < fuel') (acc : Text) :
    decAux fuel n acc = decAux fuel' n acc := by
  induction fuel generalizing fuel' n acc with
  | zero => exact absurd h n.not_lt_zero
  | succ fuel ih =>
    obtain ⟨fuel', rfl⟩ := Nat.exists_eq_add_one_of_ne_zero (Nat.ne_zero_of_lt h')
    simp only [decAux]
    split
    · rfl
    · exact ih (by omega) (by omega) _

theorem dec_of_lt {n : Nat} (h : n < 10) : dec n = [digit n] := if_pos h

/-- A number of two or more digits is written as its leading digits and then its last one. -/
theorem dec_of_ge {n : Nat} (h : 10 ≤ n) : dec n = dec (n / 10) ++ [digit (n % 10)] :=
  calc dec n = decAux n (n / 10) [digit (n % 10)] := if_neg h.not_gt
    _ = decAux (n / 10 + 1) (n / 10) [digit (n % 10)] := decAux_eq_of_lt (by omega) (by omega) _
    _ = dec (n / 10) ++ [digit (n % 10)] := decAux_append _ _ [] _

/-- Induction over the decimal digits of a number, the last one taken off first. -/
theorem decimal_induction {motive : Nat → Prop} (oneDigit : ∀ n < 10, motive n)
    (moreDigits : ∀ n, 10 ≤ n → motive (n / 10) → motive n) (n : Nat) : motive n := by
  induction n using Nat.strong_induction_on with
  | _ n ih =>
    obtain hn | hn := Nat.lt_or_ge n 10
    · exact oneDigit n hn
    · exact moreDigits n hn (ih _ (by omega))

theorem dec_ne_nil (n : Nat) : dec n ≠ [] := List.ne_nil_of_length_pos (dec_length_pos n)

theorem isLiteral_dec (n : Nat) : IsLiteral (dec n) := ⟨dec_ne_nil n, fun _ => isDigit_of_mem_dec⟩

theorem digitValue_digit (j : Nat) : digitValue (digit j) = j := Nat.add_sub_cancel_left 0x30 j

/-- Horner's scheme: the last digit has weight 1. -/
theorem val_concat (ds : Text) (d : Character) : val (ds ++ [d]) = val ds * 10 + digitValue d := by
  simp [val]

/-- The first digit of a literal has the highest weight (30_encoding.md rule R76). -/
theorem val_cons (d : Character) (ds : Text) : val (d :: ds) = digitValue d * 10 ^ ds.length + val ds := by
  induction ds using List.reverseRecOn with
  | nil => simp [val]
  | append_singleton ds e ih =>
    rw [← List.cons_append, val_concat, val_concat, ih, List.length_append, List.length_singleton]
    ring

theorem val_dec (n : Nat) : val (dec n) = n := by
  induction n using decimal_induction with
  | oneDigit n hn => simp [dec_of_lt hn, val, digitValue_digit]
  | moreDigits n hn ih => rw [dec_of_ge hn, val_concat, ih, digitValue_digit, Nat.div_add_mod']

theorem head?_dec_ne_zero {n : Nat} (h : n ≠ 0) : (dec n).head? ≠ some 0x30 := by
  induction n using decimal_induction with
  | oneDigit n hn => simpa [dec_of_lt hn, digit] using h
  | moreDigits n hn ih =>
    rw [dec_of_ge hn, List.head?_append_of_ne_nil _ (dec_ne_nil _)]
    exact ih (by omega)

theorem digitValue_lt {c : Character} (h : isDigit c = true) : digitValue c < 10 := by
  obtain ⟨hlow, hhigh⟩ := isDigit_iff.1 h
  exact Nat.sub_lt_left_of_lt_add hlow (Nat.lt_succ_of_le hhigh)

/-- `k` digits write numbers below `10^k` only. -/
theorem val_lt_pow_length {ds : Text} (h : ∀ c ∈ ds, isDigit c = true) : val ds < 10 ^ ds.length := by
  induction ds with
  | nil => exact Nat.one_pos
  | cons d ds ih =>
    obtain ⟨hd, hds⟩ := List.forall_mem_cons.1 h
    have htail := ih hds
    calc val (d :: ds) = digitValue d * 10 ^ ds.length + val ds := val_cons d ds
      _ < (digitValue d + 1) * 10 ^ ds.length := by rw [Nat.add_one_mul]; omega
      _ ≤ 10 * 10 ^ ds.length := Nat.mul_le_mul_right _ (digitValue_lt hd)
      _ = 10 ^ (d :: ds).length := (pow_succ' _ _).symm

/-- `dec` writes a number below `10^k` with `k` digits at most. -/
theorem length_dec_le {n k : Nat} (hk : 1 ≤ k) (hn : n < 10 ^ k) : (dec n).length ≤ k := by
  induction n using decimal_induction generalizing k with
  | oneDigit n h => rwa [dec_of_lt h]
  | moreDigits n h ih =>
    obtain ⟨k, rfl⟩ := Nat.exists_eq_add_of_le' hk
    have hlead : n / 10 < 10 ^ k := Nat.div_lt_of_lt_mul (by rwa [← pow_succ'])
    have hk' : 1 ≤ k := Nat.one_le_iff_ne_zero.2 fun h0 => by
      subst h0
      omega
    rw [dec_of_ge h, List.length_append, List.length_singleton]
    exact Nat.succ_le_succ (ih hk' hlead)

/-- Settles O32; no literal of `n` is shorter than `dec n`, because its length bounds its value. -/
theorem decimalLiterals : Obligations.DecimalLiterals := by
  refine ⟨fun n => ⟨isLiteral_dec n, val_dec n, head?_dec_ne_zero, ?shortest⟩, rfl, val_cons⟩
  case shortest =>
    rintro ds ⟨hne, hds⟩ rfl
    exact length_dec_le (List.length_pos_of_ne_nil hne) (val_lt_pow_length hds)

end Sys2Proof.Machine

namespace Sys2Proof.Machine

/-! ### A command in a legal build -/

theorem runCommand_of_decodes {s : State} {i : Instr} (h : decodeWord s.cmd = .ok i) : runCommand s = exec i s := by
  rw [runCommand, h]

theorem runCommand_of_rejected {s : State} {e : DecodeError} (h : decodeWord s.cmd = .error e) :
    runCommand s = .next (failWith .invalidArgument s) := by
  rw [runCommand, h]

/-- Settles O4: taking the turn off the agenda leaves `CMD` as it is. -/
theorem stepRunsTheCommand : Obligations.StepRunsTheCommand := fun _ _ hbusy hturn hdecode =>
  (step_of_busy_block hbusy hturn).trans (runCommand_of_decodes hdecode)

/-- In a legal build an operation is the completion of its family function (40_common.md rule R106). -/
theorem exec_eq_complete {s : State} (hb : s.build.ok = true) (i : Instr) :
    exec i s = .next (complete i.direction (inputText s) (familyResult s i) s) := by
  obtain ⟨t, h⟩ | ⟨-, -, hblock, -⟩ := exec_next_or_fault i s
  · rw [h, ← eq_complete_of_exec h]
  · exact absurd hblock (Nat.one_le_iff_ne_zero.1 (one_le_bwtBlock hb))

/-- An operation whose family function raises an error ends with it. -/
theorem exec_fails {s : State} (hb : s.build.ok = true) {i : Instr} {k : Raise}
    (h : familyResult s i = .error k) : ∃ t, exec i s = .next t ∧ t.err = k.kind :=
  ⟨failWith k s, by rw [exec_eq_complete hb, h, complete], rfl⟩

/-- An operation whose family function gives a text that fits ends with that text. -/
theorem exec_succeeds {s : State} (hb : s.build.ok = true) {i : Instr} {out : Text}
    (h : familyResult s i = .ok out) (hfit : withinCap s.build.maxOut out.length = true) :
    ∃ t, exec i s = .next t ∧ t.err = .ok ∧ outputText t = out := by
  refine ⟨completeOk i.direction (inputText s) out s, ?_, rfl, outputText_completeOk ..⟩
  rw [exec_eq_complete hb, h, complete, if_pos hfit]

theorem blockTurn_next {s : State} (hb : s.build.ok = true) : ∃ t, blockTurn s = .next t := by
  cases hphase : s.phase with
  | idle => exact ⟨s, by rw [blockTurn, hphase]⟩
  | done => exact ⟨s, by rw [blockTurn, hphase]⟩
  | busy =>
    rw [blockTurn, hphase]
    cases hdecode : decodeWord s.cmd with
    | ok i => exact ⟨_, (runCommand_of_decodes hdecode).trans (exec_eq_complete hb i)⟩
    | error e => exact ⟨_, runCommand_of_rejected hdecode⟩

theorem step_next {s : State} (hb : s.build.ok = true) : ∃ t, step s = .next t := by
  cases hturn : nextTurn s with
  | block => exact (blockTurn_next (s := popTurn s) hb).imp fun t h => by rw [step, hturn, takeTurn, h]
  | host a => exact ⟨_, step_of_host hturn⟩
  | reset => exact ⟨_, step_of_reset hturn⟩

/-- Settles O9, by induction on the length of the run: a step answers a next state, in the same build. -/
theorem legalBuildNeverStops : Obligations.LegalBuildNeverStops := by
  intro s k hb
  induction k generalizing s with
  | zero => exact ⟨s, rfl, rfl⟩
  | succ k ih =>
    obtain ⟨u, hstep⟩ := step_next hb
    obtain ⟨hbuild, -⟩ := whoChangesWhat s u hstep
    obtain ⟨t, hrun, htbuild⟩ := ih u (hbuild ▸ hb)
    exact ⟨t, (core_run_succ_of_step hstep k).trans hrun, htbuild.trans hbuild⟩

/-! ### The width and the ratio registers (40_common.md rules R101 to R103) -/

/-- The search stops at a width that is enough when its fuel reaches one. -/
theorem le_two_pow_widthFrom {fuel w k : Nat} (h : k ≤ 2 ^ (w + fuel)) : k ≤ 2 ^ widthFrom fuel w k := by
  induction fuel generalizing w with
  | zero => exact h
  | succ fuel ih =>
    rw [widthFrom]
    split
    · assumption
    · exact ih (by rwa [Nat.succ_add_eq_add_succ])

theorem le_two_pow_width (k : Nat) : k ≤ 2 ^ width k := by
  have hfuel : k ≤ 2 ^ (1 + k) := Nat.lt_two_pow_self.le.trans (Nat.pow_le_pow_right (by decide) (by omega))
  exact le_two_pow_widthFrom hfuel

/-- Settles O21: the search begins at 1, has fuel enough to succeed, and passes no width that is enough. -/
theorem widthIsLeast : Obligations.WidthIsLeast := fun k =>
  ⟨one_le_width k, le_two_pow_width k, fun _ => width_le⟩

theorem bits_eq (t : Text) : bits t = t.length * width t.toFinset.card := by
  rw [bits, distinct, List.card_toFinset]

/-- Settles O22, by the two completions. -/
theorem ratioRegisters : Obligations.RatioRegisters := by
  intro i s t h
  obtain ⟨k, rfl⟩ | ⟨out, -, -, rfl⟩ := exec_completion h
  case inl => exact ⟨fun _ hok => absurd hok (kind_ne_ok k), fun _ => ⟨rfl, rfl⟩⟩
  case inr =>
    cases i.direction with
    | encode => simp [bits_eq]
    | decode => simp

/-! #### The empty text (rule R104) -/

theorem rleEncode_nil : rleEncode [] = .error .invalidArgument := rfl

theorem huffEncode_nil (r : Nat) : huffEncode r [] = .error .invalidArgument := rfl

theorem bwtEncode_nil (B : Nat) : bwtEncode B [] = .error .invalidArgument := rfl

/-- Of the encode operations only LZ78_ENC has a result for the empty text. -/
theorem eq_lz78Enc_of_encode_nil {i : Instr} {s : State} {out : Text} (hdir : i.direction = .encode)
    (hin : inputText s = []) (h : familyResult s i = .ok out) : ∃ radix, i = .lz78Enc radix := by
  cases i with
  | lz78Enc radix => exact ⟨radix, rfl⟩
  | rleEnc => simp [familyResult, hin, rleEncode_nil] at h
  | huffEnc => simp [familyResult, hin, huffEncode_nil] at h
  | bwtEnc => simp [familyResult, hin, bwtEncode_nil] at h
  | rleDec => cases hdir
  | lz78Dec => cases hdir
  | huffDec => cases hdir
  | bwtDec => cases hdir

theorem five_le_length_huffEncode {r : Nat} {src out : Text} (h : huffEncode r src = .ok out) :
    5 ≤ out.length := by
  rw [huffEncode] at h
  split at h
  · cases h
  · next hne =>
    cases h
    rw [List.length_append]
    exact (five_le_length_ser (freq_ne_nil hne)).trans (Nat.le_add_left _ _)

/-- An encode writes at least one item of its wire grammar, whatever the build: where BWT_ENC could write none it
stops (log 13). -/
theorem five_le_length_of_encode {i : Instr} {s t : State} {out : Text} (hexec : exec i s = .next t)
    (hdir : i.direction = .encode) (h : familyResult s i = .ok out) : 5 ≤ out.length := by
  have hany (text : Text) : ∀ c ∈ text, True := fun _ _ => trivial
  cases i with
  | rleEnc => exact (rleEncode_output (fun _ _ => trivial) (hany _) h).2
  | lz78Enc => exact (lz78Encode_output (fun _ _ => trivial) trivial (hany _) h).2
  | huffEnc radix =>
    rw [familyResult] at h
    split at h
    · exact five_le_length_huffEncode h
    · cases h
  | bwtEnc radix =>
    have hne : inputText s ≠ [] := fun hin => by
      simp [familyResult, hin, bwtEncode_nil] at h
    have hB : s.build.bwtBlock ≠ 0 := fun hB => by
      cases hexec.symm.trans (exec_bwtEnc_fault radix ⟨hne, hB⟩)
    exact (bwtEncode_output (fun _ _ => trivial) (Nat.one_le_iff_ne_zero.2 hB) (hany _) h).2
  | rleDec => cases hdir
  | lz78Dec => cases hdir
  | huffDec => cases hdir
  | bwtDec => cases hdir

/-- Settles O23: the size of a text is at least its length. -/
theorem encodedTextNeverEmpty : Obligations.EncodedTextNeverEmpty := by
  intro i s t h hdir hok
  obtain ⟨k, rfl⟩ | ⟨out, hresult, -, rfl⟩ := exec_completion h
  case inl => exact absurd hok (kind_ne_ok k)
  case inr =>
    have hlen := five_le_length_of_encode h hdir hresult
    rw [hdir]
    refine ⟨hlen, hlen.trans (length_le_bits out), fun hratio => ?numerator⟩
    case numerator =>
      have hin : inputText s = [] :=
        List.eq_nil_of_length_eq_zero (Nat.le_zero.1 ((length_le_bits _).trans hratio.le))
      exact ⟨eq_lz78Enc_of_encode_nil hdir hin hresult, hin⟩

theorem lz78Encode_nil (sentinel : Character) :
    lz78Encode sentinel [] = .ok [lparen, 0x30, comma, sentinel, rparen] := if_neg List.not_mem_nil

theorem rleDecode_nil (numMax : Option Nat) : rleDecode numMax [] = .error .formatError := rfl

theorem lz78Decode_nil (numMax : Option Nat) (sentinel : Character) :
    lz78Decode numMax sentinel [] = .error .formatError := rfl

theorem huffDecode_nil (numMax : Option Nat) (r : Nat) : huffDecode numMax r [] = .error .formatError := rfl

theorem bwtDecode_nil (numMax : Option Nat) (B : Nat) : bwtDecode numMax B [] = .error .formatError := rfl

/-- Settles O24, by the result of each family function on the empty text. -/
theorem emptyInputResults : Obligations.EmptyInputResults := by
  intro s radix hb hlen
  have hin : inputText s = [] := List.eq_nil_of_length_eq_zero ((inputText_length s).trans hlen)
  refine ⟨exec_fails hb (k := .invalidArgument) ?rleEnc, exec_fails hb (k := .invalidArgument) ?huffEnc,
    exec_fails hb (k := .invalidArgument) ?bwtEnc, fun hfit => exec_succeeds hb ?lz78Enc hfit,
    exec_fails hb (k := .formatError) ?rleDec, exec_fails hb (k := .formatError) ?lz78Dec,
    exec_fails hb (k := .formatError) ?bwtDec, fun h2 h10 => exec_fails hb (k := .formatError) ?huffDec,
    fun hrange => ?illegal⟩
  case rleEnc => rw [familyResult, hin, rleEncode_nil]
  case huffEnc => rw [familyResult, hin, huffEncode_nil, ite_self]
  case bwtEnc => rw [familyResult, hin, bwtEncode_nil]
  case lz78Enc => rw [familyResult, hin, lz78Encode_nil]
  case rleDec => rw [familyResult, hin, rleDecode_nil]
  case lz78Dec => rw [familyResult, hin, lz78Decode_nil]
  case bwtDec => rw [familyResult, hin, bwtDecode_nil]
  case huffDec => rw [familyResult, if_pos ((radixLegal_iff hb radix).2 ⟨h2, h10⟩), hin, huffDecode_nil]
  case illegal =>
    obtain ⟨-, hillegal, -⟩ := Encoding.radixOperand
    obtain ⟨-, hdec⟩ := hillegal s radix hb hrange
    exact hdec

/-! ### What the completion values depend on (40_common.md rule R117) -/

/-- Two completions with the same error kind and the same result. -/
structure SameResult (t t' : State) : Prop where
  err : t.err = t'.err
  outLen : t.outLen = t'.outLen
  outBuf : t.outBuf = t'.outBuf
  ratioSrc : t.ratioSrc = t'.ratioSrc
  ratioEnc : t.ratioEnc = t'.ratioEnc

theorem sameResult_failWith (k : Raise) (s s' : State) : SameResult (failWith k s) (failWith k s') :=
  ⟨rfl, rfl, rfl, rfl, rfl⟩

theorem sameResult_completeOk (d : Direction) (src out : Text) (s s' : State) :
    SameResult (completeOk d src out s) (completeOk d src out s') := ⟨rfl, rfl, rfl, rfl, rfl⟩

/-- Of the state a completion reads `MAX_OUT` alone. -/
theorem sameResult_complete {s s' : State} (hcap : s.build.maxOut = s'.build.maxOut) (d : Direction) (src : Text)
    (r : Except Raise Text) : SameResult (complete d src r s) (complete d src r s') := by
  cases r with
  | error k => exact sameResult_failWith k s s'
  | ok out =>
    simp only [complete, hcap]
    split
    · exact sameResult_completeOk d src out s s'
    · exact sameResult_failWith _ s s'

theorem radixLegal_with_bwtWorkers (b : Build) (workers : Nat) (radix : BitVec 4) :
    radixLegal { b with bwtWorkers := workers } radix = radixLegal b radix := rfl

/-- A family function reads the input text and the build, but for `BWT_WORKERS` (44_bwt.md rule R197). -/
theorem familyResult_congr {s s' : State} {workers : Nat} (hbuild : s'.build = { s.build with bwtWorkers := workers })
    (htext : inputText s' = inputText s) (i : Instr) : familyResult s' i = familyResult s i := by
  cases i <;> simp only [familyResult, htext, hbuild, radixLegal_with_bwtWorkers]

/-- Settles O27: both steps complete the same operation, or both fail on the same reserved word. -/
theorem resultDependsOnInputOnly : Obligations.ResultDependsOnInputOnly := by
  intro s s' t t' hbusy hbusy' hturn hturn' hbuild hcmd htext hstep hstep'
  have hsame : SameResult t t' := by
    cases hdecode : decodeWord s.cmd with
    | ok i =>
      rw [stepRunsTheCommand s i hbusy hturn hdecode] at hstep
      rw [stepRunsTheCommand s' i hbusy' hturn' (hcmd ▸ hdecode)] at hstep'
      have hcap : s.build.maxOut = s'.build.maxOut := by rw [← hbuild]
      rw [eq_complete_of_exec hstep, eq_complete_of_exec hstep', popTurn_inputText, popTurn_inputText, htext,
        familyResult_congr (s := popTurn s) (s' := popTurn s') hbuild.symm htext.symm]
      exact sameResult_complete (s := popTurn s) (s' := popTurn s') hcap _ _ _
    | error e =>
      rw [step_of_busy_block hbusy hturn, runCommand_of_rejected (s := popTurn s) hdecode] at hstep
      rw [step_of_busy_block hbusy' hturn', runCommand_of_rejected (s := popTurn s') (hcmd ▸ hdecode)] at hstep'
      rw [← Host.Outcome.next.inj hstep, ← Host.Outcome.next.inj hstep']
      exact sameResult_failWith _ _ _
  exact ⟨hsame.err, hsame.outLen, hsame.outBuf, hsame.ratioSrc, hsame.ratioEnc⟩

end Sys2Proof.Machine

namespace Sys2Proof.Machine

/-! ### Frequency tables (40_common.md rule R110)

A table and a buffer's memory are the same ascending list of pairs, so the laws of a write and a read carry over. -/

theorem FreqTable.set_eq_write (f : FreqTable) (c : Character) (n : Nat) : f.set c n = Memory.write f c n := by
  induction f with
  | nil => rfl
  | cons e f ih => rw [FreqTable.set, Memory.write, ih]

theorem FreqTable.count_eq_read (f : FreqTable) (c : Character) : f.count c = (Memory.read f c).getD 0 := by
  induction f with
  | nil => rfl
  | cons e f ih =>
    rw [FreqTable.count, Memory.read, ih]
    split <;> rfl

theorem FreqTable.count_set (f : FreqTable) (c d : Character) (n : Nat) :
    (f.set c n).count d = if d = c then n else f.count d := by
  rw [FreqTable.set_eq_write, FreqTable.count_eq_read, FreqTable.count_eq_read]
  split
  · next h => rw [h, Memory.read_write_same, Option.getD_some]
  · next h => rw [Memory.read_write_other _ _ _ _ h]

theorem FreqTable.wf_set {f : FreqTable} (hf : f.wf) (c : Character) {n : Nat} (hn : 1 ≤ n) : (f.set c n).wf := by
  obtain ⟨hsorted, hpos⟩ := hf
  refine ⟨FreqTable.set_eq_write f c n ▸ Memory.write_wf hsorted c n, fun e he => ?_⟩
  obtain rfl | he := mem_freqTable_set he
  · exact hn
  · exact hpos e he

theorem FreqTable.has_iff {f : FreqTable} {c : Character} : f.has c = true ↔ c ∈ f.map Prod.fst := by
  simp [FreqTable.has]

theorem FreqTable.has_cons {f : FreqTable} {e : Character × Nat} {c : Character} :
    FreqTable.has (e :: f) c = true ↔ c = e.1 ∨ f.has c = true := by
  rw [FreqTable.has_iff, FreqTable.has_iff, List.map_cons, List.mem_cons]

theorem FreqTable.has_set {f : FreqTable} {c d : Character} {n : Nat} :
    (f.set c n).has d = true ↔ d = c ∨ f.has d = true := by
  induction f with
  | nil => exact FreqTable.has_cons
  | cons e f ih =>
    rw [FreqTable.set]
    split
    · exact FreqTable.has_cons
    · split
      · next hc => simp only [FreqTable.has_cons, hc, or_self_left]
      · rw [FreqTable.has_cons, FreqTable.has_cons, ih, or_left_comm]

theorem FreqTable.nodup_keys {f : FreqTable} (hf : f.wf) : (f.map Prod.fst).Nodup :=
  List.pairwise_map.2 (hf.1.imp ne_of_lt)

/-- A symbol without an entry gets one of its own. -/
theorem FreqTable.perm_set {f : FreqTable} {c : Character} (hc : f.has c = false) (n : Nat) :
    (f.set c n).Perm ((c, n) :: f) := by
  induction f with
  | nil => exact .refl _
  | cons e f ih =>
    obtain ⟨hne, hcf⟩ := not_or.1 (FreqTable.has_cons.not.1 (Bool.eq_false_iff.1 hc))
    rw [FreqTable.set, if_neg hne]
    split
    · exact .refl _
    · exact ((ih (Bool.eq_false_iff.2 hcf)).cons e).trans (.swap _ _ _)

/-- Equal mappings are equal tables (log 16). -/
theorem FreqTable.eq_of_perm {f g : FreqTable} (hf : f.wf) (hg : g.wf) (h : f.Perm g) : f = g :=
  h.eq_of_pairwise (fun _ _ _ _ hab hba => absurd hab hba.asymm) hf.1 hg.1

/-- The count of a symbol is that of its one entry. -/
theorem FreqTable.count_of_mem {f : FreqTable} (hf : f.wf) {e : Character × Nat} (he : e ∈ f) :
    f.count e.1 = e.2 := by
  have hkeys := FreqTable.nodup_keys hf
  clear hf
  induction f with
  | nil => cases he
  | cons a f ih =>
    obtain ⟨ha, hkeys⟩ := List.nodup_cons.1 hkeys
    obtain rfl | he := List.mem_cons.1 he
    · exact if_pos rfl
    · have hne : a.1 ≠ e.1 := fun h => ha (h ▸ List.mem_map_of_mem he)
      exact (if_neg hne).trans (ih he hkeys)

theorem FreqTable.count_freq (t : Text) (c : Character) : (freq t).count c = t.count c := by
  induction t with
  | nil => rfl
  | cons d t ih =>
    rw [freq, FreqTable.count_set]
    split
    · next h =>
      subst h
      rw [List.count_cons_self, ih]
    · next h => rw [List.count_cons_of_ne (Ne.symm h), ih]

theorem FreqTable.wf_freq (t : Text) : (freq t).wf := by
  induction t with
  | nil => exact ⟨.nil, nofun⟩
  | cons c t ih => exact FreqTable.wf_set ih c (Nat.le_add_left 1 _)

theorem FreqTable.has_freq {t : Text} {c : Character} : (freq t).has c = true ↔ c ∈ t := by
  induction t with
  | nil => simp [freq, FreqTable.has]
  | cons d t ih => rw [freq, FreqTable.has_set, ih, List.mem_cons]

/-- The symbols of the table are the different characters of the text. -/
theorem FreqTable.keys_freq_perm (t : Text) : ((freq t).map Prod.fst).Perm t.dedup :=
  (List.perm_ext_iff_of_nodup (FreqTable.nodup_keys (FreqTable.wf_freq t)) t.nodup_dedup).2 fun c => by
    rw [← FreqTable.has_iff, FreqTable.has_freq, List.mem_dedup]

theorem FreqTable.length_freq (t : Text) : (freq t).length = t.toFinset.card := by
  rw [List.card_toFinset, ← (FreqTable.keys_freq_perm t).length_eq, List.length_map]

theorem FreqTable.total_freq (t : Text) : (freq t).total = t.length := by
  have hcounts : (freq t).map Prod.snd = ((freq t).map Prod.fst).map t.count := by
    rw [List.map_map]
    refine List.map_congr_left fun e he => ?_
    rw [Function.comp_apply, ← FreqTable.count_freq, FreqTable.count_of_mem (FreqTable.wf_freq t) he]
  calc (freq t).total = (((freq t).map Prod.fst).map t.count).sum := by rw [FreqTable.total, hcounts]
    _ = (t.dedup.map t.count).sum := ((FreqTable.keys_freq_perm t).map _).sum_eq
    _ = t.length := t.sum_map_count_dedup_eq_length

/-- Settles O39: length and sum follow from the symbols being the different characters of the text. -/
theorem frequencyTableCounts : Obligations.FrequencyTableCounts := fun t =>
  ⟨FreqTable.wf_freq t, FreqTable.count_freq t, fun _ => FreqTable.has_freq, FreqTable.length_freq t,
    FreqTable.total_freq t⟩

/-! ### Dictionary texts (40_common.md rules R111, R112) -/

theorem literal_ok_iff {t rest : Text} {c : Character} (hc : isDigit c = false) {n : Nat} :
    literal t = .ok (n, c :: rest) ↔ ∃ ds, IsLiteral ds ∧ n = val ds ∧ t = ds ++ c :: rest := by
  refine ⟨fun h => ?_, ?_⟩
  · obtain ⟨ds, hne, hds, ht, hn, -⟩ := literal_ok h
    exact ⟨ds, ⟨hne, hds⟩, hn, ht⟩
  · rintro ⟨ds, ⟨hne, hds⟩, rfl, rfl⟩
    exact literal_append ds c rest hne hds hc

/-- A character and a count between delimiters, the count as written. -/
def writtenItem (l m r : Character) (e : Character × Text) : Text := [l, e.1, m] ++ e.2 ++ [r]

/-- The reader of such an item succeeds on exactly the texts that begin with a written one. -/
theorem readCountItem_ok_iff {l m r : Character} (hr : isDigit r = false) {t rest : Text} {p : Character × Nat} :
    readCountItem l m r t = .ok (p, rest) ↔
      ∃ ds, IsLiteral ds ∧ p.2 = val ds ∧ t = writtenItem l m r (p.1, ds) ++ rest := by
  obtain ⟨c, n⟩ := p
  simp only [readCountItem, bind_eq_ok_iff, Prod.exists, expect_ok, anyChar_ok]
  constructor
  · rintro ⟨-, u, rfl, d, -, rfl, -, v, rfl, k, w, hlit, -, x, rfl, hres⟩
    cases hres
    obtain ⟨ds, hds, hn, rfl⟩ := (literal_ok_iff hr).1 hlit
    exact ⟨ds, hds, hn, by simp [writtenItem]⟩
  · rintro ⟨ds, hds, hn, rfl⟩
    refine ⟨(), _, ?_, c, _, rfl, (), _, rfl, n, _, (literal_ok_iff hr).2 ⟨ds, hds, hn, rfl⟩, (), rest, rfl, rfl⟩
    simp [writtenItem]

/-- The entries of a dictionary text, each count as written. -/
def entriesText (es : List (Character × Text)) : Text := es.flatMap (writtenItem lbracket hyphen rbracket)

theorem dictText_eq (es : List (Character × Text)) : dictText es = lbrace :: (entriesText es ++ [rbrace]) := rfl

theorem readEntry_ok_iff {t rest : Text} {p : Character × Nat} :
    readEntry t = .ok (p, rest) ↔
      ∃ ds, IsLiteral ds ∧ p.2 = val ds ∧ t = writtenItem lbracket hyphen rbracket (p.1, ds) ++ rest := by
  rw [readEntry_eq]
  exact readCountItem_ok_iff (by decide)

/-- The entries `es` carry the table `g` of the entries before them on to the table `f`. -/
structure Extends (g f : FreqTable) (es : List (Character × Text)) : Prop where
  wf : f.wf
  literals : ∀ e ∈ es, IsLiteral e.2
  perm : ((es.map fun e => (e.1, val e.2)) ++ g).Perm f

theorem dictOf_iff {f : FreqTable} {es : List (Character × Text)} :
    DictOf f es ↔ es ≠ [] ∧ Extends [] f es := by
  constructor
  · rintro ⟨hne, hwf, hlit, hperm⟩
    exact ⟨hne, hwf, hlit, by rwa [List.append_nil]⟩
  · rintro ⟨hne, hwf, hlit, hperm⟩
    exact ⟨hne, hwf, hlit, by rwa [List.append_nil] at hperm⟩

theorem extends_nil_iff {g f : FreqTable} (hg : g.wf) : Extends g f [] ↔ f = g := by
  constructor
  · rintro ⟨hwf, -, hperm⟩
    exact FreqTable.eq_of_perm hwf hg hperm.symm
  · rintro rfl
    exact ⟨hg, nofun, .refl _⟩

/-- The first entry has a positive count and a symbol that is new (rule R112). -/
theorem Extends.head_legal {g f : FreqTable} {c : Character} {ds : Text} {es : List (Character × Text)}
    (h : Extends g f ((c, ds) :: es)) : val ds ≠ 0 ∧ g.has c = false := by
  obtain ⟨hwf, -, hperm⟩ := h
  have hmem : (c, val ds) ∈ f := hperm.subset List.mem_cons_self
  have hkeys : (c :: (es.map Prod.fst ++ g.map Prod.fst)).Nodup := by
    simpa only [List.map_append, List.map_map, List.map_cons, List.cons_append, Function.comp_def] using
      (hperm.map Prod.fst).nodup_iff.2 (FreqTable.nodup_keys hwf)
  refine ⟨Nat.one_le_iff_ne_zero.1 (hwf.2 _ hmem), Bool.eq_false_iff.2 fun hhas => ?_⟩
  exact (List.nodup_cons.1 hkeys).1 (List.mem_append_right _ (FreqTable.has_iff.1 hhas))

/-- A new entry is set in the table, and the entries behind it carry that table on. -/
theorem extends_cons_iff {g f : FreqTable} {c : Character} {ds : Text} {es : List (Character × Text)}
    (hc : g.has c = false) :
    Extends g f ((c, ds) :: es) ↔ IsLiteral ds ∧ Extends (g.set c (val ds)) f es := by
  have hperm : (((c, ds) :: es).map fun e => (e.1, val e.2)) ++ g |>.Perm
      ((es.map fun e => (e.1, val e.2)) ++ g.set c (val ds)) :=
    List.perm_middle.symm.trans ((FreqTable.perm_set hc _).symm.append_left _)
  constructor
  · rintro ⟨hwf, hlit, h⟩
    obtain ⟨hds, hlit⟩ := List.forall_mem_cons.1 hlit
    exact ⟨hds, hwf, hlit, hperm.symm.trans h⟩
  · rintro ⟨hds, hwf, hlit, h⟩
    exact ⟨hwf, List.forall_mem_cons.2 ⟨hds, hlit⟩, hperm.trans h⟩

/-- Nothing is read from a text that does not begin with an entry. -/
theorem parseEntries_of_head?_ne {t : Text} (h : t.head? ≠ some lbracket) (fuel : Nat) (g : FreqTable) :
    parseEntries fuel g t = .error .formatError := by
  cases fuel with
  | zero => rfl
  | succ fuel =>
    cases t with
    | nil => rfl
    | cons c t =>
      have hc : c ≠ lbracket := fun hc => h (congrArg some hc)
      simp [parseEntries, readEntry, expect, hc, bind, Except.bind]

/-- A round of the loop of `parse_dict` that does not fail has read a legal entry. -/
theorem readEntry_of_parseEntries {fuel : Nat} {g f : FreqTable} {t : Text}
    (h : parseEntries (fuel + 1) g t = .ok f) :
    ∃ c n rest, readEntry t = .ok ((c, n), rest) ∧ n ≠ 0 ∧ g.has c = false := by
  rw [parseEntries] at h
  split at h
  · cases h
  · next c n rest hread =>
    split at h
    · cases h
    · next hn =>
      split at h
      · cases h
      · next hc => exact ⟨c, n, rest, hread, hn, Bool.eq_false_iff.2 hc⟩

/-- The round that reads the last entry. -/
theorem parseEntries_last {fuel : Nat} {g : FreqTable} {t : Text} {c : Character} {n : Nat}
    (hread : readEntry t = .ok ((c, n), [rbrace])) (hn : n ≠ 0) (hc : g.has c = false) :
    parseEntries (fuel + 1) g t = .ok (g.set c n) := by
  simp [parseEntries, hread, hn, hc]

/-- A round that reads an entry before the last. -/
theorem parseEntries_more {fuel : Nat} {g : FreqTable} {t rest : Text} {c : Character} {n : Nat}
    (hread : readEntry t = .ok ((c, n), rest)) (hn : n ≠ 0) (hc : g.has c = false) (hrest : rest ≠ [rbrace]) :
    parseEntries (fuel + 1) g t = parseEntries fuel (g.set c n) rest := by
  cases rest with
  | nil =>
    rw [parseEntries_of_head?_ne (t := []) nofun]
    simp [parseEntries, hread, hn, hc]
  | cons q after =>
    by_cases hq : q = rbrace
    · subst hq
      have hafter : after ≠ [] := fun h => hrest (h ▸ rfl)
      rw [parseEntries_of_head?_ne (t := rbrace :: after) (by simp [rbrace, lbracket])]
      simp [parseEntries, hread, hn, hc, hafter]
    · simp [parseEntries, hread, hn, hc, hq]

theorem entriesText_append_ne {es : List (Character × Text)} (hes : es ≠ []) :
    entriesText es ++ [rbrace] ≠ [rbrace] := by
  obtain ⟨e, es, rfl⟩ := List.exists_cons_of_ne_nil hes
  simp [entriesText, writtenItem]

/-- What the loop accepts is entries that carry on the table read so far, closed by the brace. -/
theorem extends_of_parseEntries {fuel : Nat} {g f : FreqTable} {t : Text} (hg : g.wf)
    (h : parseEntries fuel g t = .ok f) :
    ∃ es, t = entriesText es ++ [rbrace] ∧ es ≠ [] ∧ Extends g f es := by
  induction fuel generalizing g t with
  | zero => cases h
  | succ fuel ih =>
    obtain ⟨c, n, rest, hread, hn, hc⟩ := readEntry_of_parseEntries h
    obtain ⟨ds, hds, hnds, ht⟩ := readEntry_ok_iff.1 hread
    obtain rfl : n = val ds := hnds
    have hset : (g.set c (val ds)).wf := FreqTable.wf_set hg c (Nat.one_le_iff_ne_zero.2 hn)
    obtain ⟨es, rfl, hext⟩ : ∃ es, rest = entriesText es ++ [rbrace] ∧ Extends (g.set c (val ds)) f es := by
      by_cases hrest : rest = [rbrace]
      · rw [parseEntries_last (hrest ▸ hread) hn hc] at h
        exact ⟨[], hrest, (extends_nil_iff hset).2 (Except.ok.inj h).symm⟩
      · rw [parseEntries_more hread hn hc hrest] at h
        obtain ⟨es, hrest, -, hext⟩ := ih hset h
        exact ⟨es, hrest, hext⟩
    exact ⟨(c, ds) :: es, by simp [ht, entriesText], List.cons_ne_nil _ _, (extends_cons_iff hc).2 ⟨hds, hext⟩⟩

/-- It accepts every such text, given a round of fuel for each entry. -/
theorem parseEntries_of_extends {fuel : Nat} {g f : FreqTable} {es : List (Character × Text)} (hg : g.wf)
    (hne : es ≠ []) (hfuel : es.length ≤ fuel) (h : Extends g f es) :
    parseEntries fuel g (entriesText es ++ [rbrace]) = .ok f := by
  induction es generalizing fuel g with
  | nil => exact absurd rfl hne
  | cons e es ih =>
    obtain ⟨c, ds⟩ := e
    obtain ⟨fuel, rfl⟩ := Nat.exists_eq_add_one_of_ne_zero (Nat.ne_zero_of_lt hfuel)
    obtain ⟨hn, hc⟩ := h.head_legal
    obtain ⟨hds, h⟩ := (extends_cons_iff hc).1 h
    have hset : (g.set c (val ds)).wf := FreqTable.wf_set hg c (Nat.one_le_iff_ne_zero.2 hn)
    have hread : readEntry (entriesText ((c, ds) :: es) ++ [rbrace]) =
        .ok ((c, val ds), entriesText es ++ [rbrace]) :=
      readEntry_ok_iff.2 ⟨ds, hds, rfl, by simp [entriesText]⟩
    obtain rfl | hes := eq_or_ne es []
    · rw [parseEntries_last hread hn hc, (extends_nil_iff hset).1 h]
    · rw [parseEntries_more hread hn hc (entriesText_append_ne hes)]
      exact ih hset hes (Nat.le_of_succ_le_succ hfuel) h

/-- Every entry takes characters, so the length of the text is fuel enough. -/
theorem length_le_entriesText (es : List (Character × Text)) : es.length ≤ (entriesText es).length := by
  induction es with
  | nil => exact le_rfl
  | cons e es ih =>
    simp only [entriesText, List.flatMap_cons, List.length_append, List.length_cons, writtenItem] at ih ⊢
    omega

theorem parseDict_ok_iff {d : Text} {f : FreqTable} :
    parseDict d = .ok f ↔ ∃ es, d = dictText es ∧ DictOf f es := by
  simp only [parseDict, bind_eq_ok_iff, Prod.exists, expect_ok, dictOf_iff, dictText_eq]
  have hempty : FreqTable.wf [] := ⟨.nil, nofun⟩
  constructor
  · rintro ⟨-, t, rfl, h⟩
    obtain ⟨es, rfl, hes⟩ := extends_of_parseEntries hempty h
    exact ⟨es, rfl, hes⟩
  · rintro ⟨es, rfl, hne, hext⟩
    refine ⟨(), _, rfl, parseEntries_of_extends hempty hne ?_ hext⟩
    rw [List.length_append]
    exact (length_le_entriesText es).trans (Nat.le_add_right _ _)

/-- `ser(f)` is the dictionary text with the entries of `f` in order and the shortest counts (rule R111). -/
theorem ser_eq_dictText (f : FreqTable) : ser f = dictText (f.map fun e => (e.1, dec e.2)) := by
  rw [ser, dictText, List.flatMap_map]
  rfl

theorem dictOf_dec {f : FreqTable} (hf : f.wf) (hne : f ≠ []) : DictOf f (f.map fun e => (e.1, dec e.2)) := by
  refine ⟨by simpa using hne, hf, List.forall_mem_map.2 fun e _ => isLiteral_dec e.2, ?_⟩
  simp [val_dec, Function.comp_def]

/-- Settles O40; `ser` writes one of the texts of `parseDict_ok_iff`. -/
theorem dictionaryTexts : Obligations.DictionaryTexts :=
  ⟨fun _ _ => parseDict_ok_iff, fun f hf hne =>
    parseDict_ok_iff.2 ⟨_, ser_eq_dictText f, dictOf_dec hf hne⟩⟩

end Sys2Proof.Machine

namespace Sys2Proof.Machine

/-! ### Reading one or more written items (30_encoding.md rules R77 to R79)

`write` is how an item stands in the text, as it was written, and `value` what the reader makes of it. -/

section Items

variable {α β : Type} {item : Reader α} {write : β → Text} {value : β → α} {Legal : β → Prop}

/-- The reader succeeds on exactly the texts that begin with a legal written item. -/
def Reads (item : Reader α) (write : β → Text) (value : β → α) (Legal : β → Prop) : Prop :=
  ∀ t a rest, item t = .ok (a, rest) ↔ ∃ b, Legal b ∧ a = value b ∧ t = write b ++ rest

theorem items_of_readAll (hitem : Reads item write value Legal) {fuel : Nat} {t : Text} {as : List α}
    (h : readAll item fuel t = .ok as) :
    ∃ bs : List β, (∀ b ∈ bs, Legal b) ∧ as = bs.map value ∧ t = bs.flatMap write := by
  induction fuel generalizing t as with
  | zero =>
    cases t with
    | nil => cases h; exact ⟨[], by simp⟩
    | cons => cases h
  | succ fuel ih =>
    cases t with
    | nil => cases h; exact ⟨[], by simp⟩
    | cons c t =>
      simp only [readAll] at h
      split at h
      · cases h
      · next a rest hread =>
        split at h
        · cases h
        · next as hall =>
          cases h
          obtain ⟨b, hb, rfl, ht⟩ := (hitem _ _ _).1 hread
          obtain ⟨bs, hbs, rfl, rfl⟩ := ih hall
          exact ⟨b :: bs, List.forall_mem_cons.2 ⟨hb, hbs⟩, rfl, ht⟩

theorem readAll_items (hitem : Reads item write value Legal) (hne : ∀ b, write b ≠ []) {bs : List β}
    (hbs : ∀ b ∈ bs, Legal b) {fuel : Nat} (hfuel : (bs.flatMap write).length ≤ fuel) :
    readAll item fuel (bs.flatMap write) = .ok (bs.map value) := by
  induction bs generalizing fuel with
  | nil => cases fuel <;> rfl
  | cons b bs ih =>
    obtain ⟨hb, hbs⟩ := List.forall_mem_cons.1 hbs
    have hread : item (write b ++ bs.flatMap write) = .ok (value b, bs.flatMap write) :=
      (hitem _ _ _).2 ⟨b, hb, rfl, rfl⟩
    obtain ⟨c, u, hcu⟩ := List.exists_cons_of_ne_nil (hne b)
    simp only [List.flatMap_cons, hcu, List.cons_append, List.length_cons, List.length_append] at hfuel hread ⊢
    obtain ⟨fuel, rfl⟩ := Nat.exists_eq_add_one_of_ne_zero (Nat.ne_zero_of_lt hfuel)
    have hrest := ih hbs (fuel := fuel) (by omega)
    simp [readAll, hread, hrest]

/-- `( item )+` over the whole text succeeds on exactly the texts of one or more legal items. -/
theorem readSome_ok_iff (hitem : Reads item write value Legal) (hne : ∀ b, write b ≠ []) {t : Text}
    {as : List α} :
    readSome item t = .ok as ↔
      ∃ bs : List β, bs ≠ [] ∧ (∀ b ∈ bs, Legal b) ∧ as = bs.map value ∧ t = bs.flatMap write := by
  constructor
  · intro h
    rw [readSome] at h
    split at h
    · cases h
    · next ht =>
      obtain ⟨bs, hbs, has, htext⟩ := items_of_readAll hitem h
      refine ⟨bs, ?_, hbs, has, htext⟩
      rintro rfl
      exact ht htext
  · rintro ⟨bs, hbsne, hbs, rfl, rfl⟩
    have ht : bs.flatMap write ≠ [] := by
      obtain ⟨b, bs, rfl⟩ := List.exists_cons_of_ne_nil hbsne
      simp [hne b]
    rw [readSome, if_neg ht]
    exact readAll_items hitem hne hbs le_rfl

end Items

/-! ### The one error of the readers (60_exceptions.md rule R222) -/

/-- If it fails, then with FormatError. -/
def OnlyFormatError {α : Type} (x : Except Raise α) : Prop := ∀ k, x = .error k → k = .formatError

theorem onlyFormatError_ok {α : Type} (a : α) : OnlyFormatError (.ok a) := nofun

theorem onlyFormatError_formatError {α : Type} : OnlyFormatError (.error .formatError : Except Raise α) :=
  fun _ h => (Except.error.inj h).symm

theorem OnlyFormatError.bind {α β : Type} {x : Except Raise α} {f : α → Except Raise β}
    (hx : OnlyFormatError x) (hf : ∀ a, OnlyFormatError (f a)) : OnlyFormatError (x >>= f) := by
  cases x with
  | error k =>
    obtain rfl := hx k rfl
    exact onlyFormatError_formatError
  | ok a => exact hf a

theorem expect_onlyFormatError (c : Character) (t : Text) : OnlyFormatError (expect c t) := by
  cases t with
  | nil => exact onlyFormatError_formatError
  | cons d t =>
    rw [expect]
    split
    · exact onlyFormatError_ok _
    · exact onlyFormatError_formatError

theorem anyChar_onlyFormatError (t : Text) : OnlyFormatError (anyChar t) := by
  cases t with
  | nil => exact onlyFormatError_formatError
  | cons c t => exact onlyFormatError_ok _

theorem literal_onlyFormatError (t : Text) : OnlyFormatError (literal t) := by
  rw [literal]
  split
  · exact onlyFormatError_formatError
  · exact onlyFormatError_ok _

theorem readAll_onlyFormatError {α : Type} {item : Reader α} (hitem : ∀ t, OnlyFormatError (item t))
    (fuel : Nat) (t : Text) : OnlyFormatError (readAll item fuel t) := by
  induction fuel generalizing t with
  | zero =>
    cases t with
    | nil => exact onlyFormatError_ok _
    | cons => exact onlyFormatError_formatError
  | succ fuel ih =>
    cases t with
    | nil => exact onlyFormatError_ok _
    | cons c t =>
      rw [readAll]
      split
      · next k hk =>
        obtain rfl := hitem _ k hk
        exact onlyFormatError_formatError
      · next a rest _ =>
        split
        · next k hk =>
          obtain rfl := ih rest k hk
          exact onlyFormatError_formatError
        · exact onlyFormatError_ok _

theorem readSome_onlyFormatError {α : Type} {item : Reader α} (hitem : ∀ t, OnlyFormatError (item t))
    (t : Text) : OnlyFormatError (readSome item t) := by
  rw [readSome]
  split
  · exact onlyFormatError_formatError
  · exact readAll_onlyFormatError hitem _ t

theorem readCountItem_onlyFormatError (l m r : Character) (t : Text) :
    OnlyFormatError (readCountItem l m r t) :=
  (expect_onlyFormatError l t).bind fun _ =>
  (anyChar_onlyFormatError _).bind fun _ =>
  (expect_onlyFormatError m _).bind fun _ =>
  (literal_onlyFormatError _).bind fun _ =>
  (expect_onlyFormatError r _).bind fun _ => onlyFormatError_ok _

/-! ### What a host reads after a completion (40_common.md rules R107, R108) -/

theorem complete_ok_of_fits {s : State} {out : Text} (hfit : withinCap s.build.maxOut out.length = true)
    (d : Direction) (src : Text) : complete d src (.ok out) s = completeOk d src out s := if_pos hfit

theorem complete_ok_of_overflows {s : State} {out : Text} (h : withinCap s.build.maxOut out.length = false)
    (d : Direction) (src : Text) : complete d src (.ok out) s = failWith .capacityError s := by
  simp [complete, h]

/-- An operation that ends with OK has its family function's text as its result. -/
theorem familyResult_of_exec_ok {i : Instr} {s t : State} (h : exec i s = .next t) (hok : t.err = .ok) :
    familyResult s i = .ok (outputText t) ∧ t.build = s.build := by
  obtain ⟨k, rfl⟩ | ⟨out, hresult, -, rfl⟩ := exec_completion h
  · exact absurd hok (kind_ne_ok k)
  · exact ⟨by rw [outputText_completeOk, hresult], rfl⟩

/-! ### RLE_ENC (41_rle.md rules R121, R122) -/

theorem exec_rleEnc (radix : BitVec 4) (s : State) :
    exec (.rleEnc radix) s = .next (complete .encode (inputText s) (rleEncode (inputText s)) s) := rfl

theorem rleEncode_of_ne_nil {x : Text} (hx : x ≠ []) : rleEncode x = .ok ((runs x).flatMap rlePairText) :=
  if_neg hx

theorem rleEncode_ok_iff {x e : Text} : rleEncode x = .ok e ↔ x ≠ [] ∧ e = (runs x).flatMap rlePairText := by
  by_cases hx : x = []
  · simp [hx, rleEncode_nil]
  · simp [rleEncode_of_ne_nil hx, hx, eq_comm]

/-- A symbol in front of a text lengthens the first run, when it is the run's symbol, or is a run of its own. -/
theorem isRunList_runs (x : Text) : IsRunList (runs x) x := by
  induction x with
  | nil => exact ⟨nofun, .nil, rfl⟩
  | cons c x ih =>
    obtain ⟨hcount, hchain, htext⟩ := ih
    rw [runs]
    split
    · next hruns =>
      rw [hruns] at htext
      subst htext
      exact ⟨by simp, .singleton _, rfl⟩
    · next d n rest hruns =>
      rw [hruns] at hcount hchain htext
      obtain ⟨hn, hrest⟩ := List.forall_mem_cons.1 hcount
      split
      · next hdc =>
        subst hdc
        exact ⟨List.forall_mem_cons.2 ⟨Nat.le_add_left 1 n, hrest⟩,
          List.isChain_cons.2 (List.isChain_cons.1 hchain), by rw [← htext]; rfl⟩
      · next hdc =>
        exact ⟨List.forall_mem_cons.2 ⟨le_rfl, hcount⟩, hchain.cons_cons (Ne.symm hdc), by rw [← htext]; rfl⟩

/-- A run is no longer than the text. -/
theorem count_le_of_isRunList {ps : List (Character × Nat)} {x : Text} (h : IsRunList ps x) {p : Character × Nat}
    (hp : p ∈ ps) : p.2 ≤ x.length := by
  obtain ⟨-, -, rfl⟩ := h
  have hsub : List.Sublist (List.replicate p.2 p.1) (ps.flatMap fun p => List.replicate p.2 p.1) :=
    List.sublist_flatten_of_mem (List.mem_map_of_mem hp)
  simpa using hsub.length_le

/-- Settles O33: the pairs are those of `runs`, and the completion is by `MAX_OUT`. -/
theorem rleEncWritesMaximalRuns : Obligations.RleEncWritesMaximalRuns := by
  intro s radix hne
  have hexec := exec_rleEnc radix s
  rw [rleEncode_of_ne_nil hne] at hexec
  refine ⟨runs (inputText s), isRunList_runs _, fun hfit => ?fits, fun hover => ?overflows⟩
  case fits =>
    rw [complete_ok_of_fits (out := (runs (inputText s)).flatMap rlePairText) hfit] at hexec
    exact ⟨_, hexec, rfl, outputText_completeOk ..⟩
  case overflows =>
    rw [complete_ok_of_overflows (out := (runs (inputText s)).flatMap rlePairText) hover] at hexec
    exact ⟨_, hexec, rfl⟩

/-! ### RLE_DEC (41_rle.md rules R124, R125) -/

theorem exec_rleDec (radix : BitVec 4) (s : State) :
    exec (.rleDec radix) s =
      .next (complete .decode (inputText s) (rleDecode s.build.numMax (inputText s)) s) := rfl

theorem readRlePair_reads :
    Reads readRlePair (writtenItem lparen comma rparen) (fun p => (p.1, val p.2)) (fun p => IsLiteral p.2) := by
  intro t a rest
  rw [readRlePair_eq, readCountItem_ok_iff (by decide)]
  constructor
  · rintro ⟨ds, hds, hval, ht⟩
    exact ⟨(a.1, ds), hds, Prod.ext rfl hval, ht⟩
  · rintro ⟨⟨c, ds⟩, hds, rfl, ht⟩
    exact ⟨ds, hds, rfl, ht⟩

theorem readSome_readRlePair_ok_iff {enc : Text} {as : List (Character × Nat)} :
    readSome readRlePair enc = .ok as ↔ ∃ ps, RleGrammar ps enc ∧ as = ps.map fun p => (p.1, val p.2) := by
  rw [readSome_ok_iff readRlePair_reads (by simp [writtenItem])]
  constructor
  · rintro ⟨ps, hne, hlit, has, henc⟩
    exact ⟨ps, ⟨hne, hlit, henc⟩, has⟩
  · rintro ⟨ps, ⟨hne, hlit, henc⟩, has⟩
    exact ⟨ps, hne, hlit, has, henc⟩

/-- Once the input is parsed, `rle_decode` repeats each symbol, unless a count is above `NUM_MAX`. -/
theorem rleDecode_of_grammar {ps : List (Character × Text)} {enc : Text} (h : RleGrammar ps enc)
    (numMax : Option Nat) :
    rleDecode numMax enc =
      if ∀ p ∈ ps, withinCap numMax (val p.2) = true then
        .ok (ps.flatMap fun p => List.replicate (val p.2) p.1)
      else .error .capacityError := by
  have hread := readSome_readRlePair_ok_iff.2 ⟨ps, h, rfl⟩
  simp only [rleDecode, hread, bind, Except.bind, List.flatMap_map, List.all_eq_true, List.forall_mem_map]

theorem rleDecode_of_counts_fit {ps : List (Character × Text)} {enc : Text} (h : RleGrammar ps enc)
    {numMax : Option Nat} (hcounts : ∀ p ∈ ps, withinCap numMax (val p.2) = true) :
    rleDecode numMax enc = .ok (ps.flatMap fun p => List.replicate (val p.2) p.1) := by
  rw [rleDecode_of_grammar h, if_pos hcounts]

theorem rleDecode_of_no_grammar {enc : Text} (h : ¬ ∃ ps, RleGrammar ps enc) (numMax : Option Nat) :
    rleDecode numMax enc = .error .formatError := by
  cases hread : readSome readRlePair enc with
  | ok as =>
    obtain ⟨ps, hps, -⟩ := readSome_readRlePair_ok_iff.1 hread
    exact absurd ⟨ps, hps⟩ h
  | error k =>
    obtain rfl := readSome_onlyFormatError (readCountItem_onlyFormatError lparen comma rparen) enc k hread
    rw [rleDecode, hread]
    rfl

/-- Settles O34, by the result of `rle_decode` on the texts of the grammar and on all others. -/
theorem rleDecAcceptsTheGrammar : Obligations.RleDecAcceptsTheGrammar := by
  intro s radix
  have hexec := exec_rleDec radix s
  refine ⟨fun ps hps => ⟨?fits, ?overflows⟩, fun hnone => ?malformed⟩
  case fits =>
    rintro ⟨hcounts, hfit⟩
    rw [rleDecode_of_counts_fit hps hcounts, complete_ok_of_fits hfit] at hexec
    exact ⟨_, hexec, rfl, outputText_completeOk ..⟩
  case overflows =>
    intro hover
    rw [rleDecode_of_grammar hps] at hexec
    split at hexec
    · next hcounts =>
      have hlong := hover.resolve_left (by simpa using hcounts)
      rw [complete_ok_of_overflows hlong] at hexec
      exact ⟨_, hexec, rfl⟩
    · exact ⟨_, hexec, rfl⟩
  case malformed =>
    rw [rleDecode_of_no_grammar hnone] at hexec
    exact ⟨_, hexec, rfl⟩

/-! ### The round trip (41_rle.md rule R126) -/

theorem withinCap_of_le {cap : Option Nat} {m n : Nat} (hle : m ≤ n) (hn : withinCap cap n = true) :
    withinCap cap m = true := by
  cases cap with
  | none => rfl
  | some k => exact withinCap_some_iff.2 (hle.trans (withinCap_some_iff.1 hn))

/-- No count of an input text exceeds `NUM_MAX` (00_scope.md Table P1: `NUM_MAX >= MAX_IN`). -/
theorem withinCap_numMax {b : Build} (hb : b.ok = true) {n : Nat} (hn : withinCap b.maxIn n = true) :
    withinCap b.numMax n = true := by
  simp only [Build.ok, Bool.and_eq_true] at hb
  obtain ⟨⟨⟨⟨⟨⟨-, hcaps⟩, -⟩, -⟩, -⟩, -⟩, -⟩ := hb
  cases hnum : b.numMax with
  | none => rfl
  | some k =>
    cases hin : b.maxIn with
    | none => simp [hnum, hin] at hcaps
    | some m =>
      have hmk : m ≤ k := by simpa [hnum, hin] using hcaps
      exact withinCap_some_iff.2 ((withinCap_some_iff.1 (hin ▸ hn)).trans hmk)

/-- What `rle_encode` writes is a text of the grammar, with the runs' counts as shortest literals. -/
theorem rleGrammar_runs {x : Text} (hx : x ≠ []) :
    RleGrammar ((runs x).map fun p => (p.1, dec p.2)) ((runs x).flatMap rlePairText) := by
  refine ⟨by simpa using runs_ne_nil hx, List.forall_mem_map.2 fun p _ => isLiteral_dec p.2, ?_⟩
  rw [List.flatMap_map]
  rfl

/-- Decoding is possible as soon as a count as long as the text is within `NUM_MAX`. -/
theorem rleDecode_of_rleEncode {x e : Text} (h : rleEncode x = .ok e) {numMax : Option Nat}
    (hcap : withinCap numMax x.length = true) : rleDecode numMax e = .ok x := by
  obtain ⟨hx, rfl⟩ := rleEncode_ok_iff.1 h
  have hruns := isRunList_runs x
  have hcounts : ∀ p ∈ (runs x).map fun p => (p.1, dec p.2), withinCap numMax (val p.2) = true :=
    List.forall_mem_map.2 fun p hp => by
      rw [val_dec]
      exact withinCap_of_le (count_le_of_isRunList hruns hp) hcap
  obtain ⟨-, -, htext⟩ := hruns
  simpa [List.flatMap_map, val_dec, htext] using rleDecode_of_counts_fit (rleGrammar_runs hx) hcounts

/-- Settles O35: on the machine the counts are within `NUM_MAX`, since the input text is within `MAX_IN`. -/
theorem rleRoundTrip : Obligations.RleRoundTrip := by
  refine ⟨fun x hx => ⟨_, rleEncode_of_ne_nil hx, rleDecode_of_rleEncode (rleEncode_of_ne_nil hx) rfl⟩, ?_⟩
  intro s t u p q hb hin hexec hok hmoved hout
  obtain ⟨hubuild, hutext⟩ := hmoved
  obtain ⟨henc, htbuild⟩ := familyResult_of_exec_ok hexec hok
  have hbuild : u.build = s.build := hubuild.trans htbuild
  have hdec : familyResult u (.rleDec q) = .ok (inputText s) := by
    rw [familyResult, hbuild, hutext]
    refine rleDecode_of_rleEncode henc ?_
    rw [inputText_length]
    exact withinCap_numMax hb hin
  exact exec_succeeds (hbuild ▸ hb) hdec (by rwa [hbuild, inputText_length])

end Sys2Proof.Machine

namespace Sys2Proof.Machine

/-! ### What LZ78 pairs stand for (42_lz78.md rules R140, R144)

The dictionary and the text of a list of pairs grow with its last pair, as the encoder and the decoder make them. -/

@[simp] theorem lzDict_nil : lzDict [] = [[]] := rfl

theorem lzDict_concat (ns : List (Nat × Character)) (p : Nat × Character) :
    lzDict (ns ++ [p]) = lzDict ns ++ [(lzDict ns).getD p.1 [] ++ [p.2]] := List.foldl_concat _ _ _ _

@[simp] theorem length_lzDict (ns : List (Nat × Character)) : (lzDict ns).length = ns.length + 1 := by
  induction ns using List.reverseRecOn with
  | nil => rfl
  | append_singleton ns p ih => rw [lzDict_concat, List.length_append, ih, List.length_append]; rfl

/-- Entry 0 of the dictionary is the empty phrase. -/
theorem head?_lzDict (ns : List (Nat × Character)) : (lzDict ns).head? = some [] := by
  induction ns using List.reverseRecOn with
  | nil => rfl
  | append_singleton ns p ih => rw [lzDict_concat, List.head?_append, ih, Option.some_or]

@[simp] theorem lzMeaning_nil (sentinel : Character) : lzMeaning sentinel [] = [] := rfl

theorem lzMeaning_concat (sentinel : Character) (ns : List (Nat × Character)) (p : Nat × Character) :
    lzMeaning sentinel (ns ++ [p]) =
      lzMeaning sentinel ns ++ ((lzDict ns).getD p.1 [] ++ if p.2 = sentinel then [] else [p.2]) := by
  rw [lzMeaning, List.length_append, List.length_singleton, List.range_succ, List.flatMap_append]
  congr 1
  · refine List.flatMap_congr fun k hk => ?_
    have hk := List.mem_range.1 hk
    rw [List.getElem?_append_left hk, List.take_append_of_le_length hk.le]
  · simp

/-- More pairs add to the text at its end. -/
theorem lzMeaning_prefix (sentinel : Character) (pre ns : List (Nat × Character)) :
    lzMeaning sentinel pre <+: lzMeaning sentinel (pre ++ ns) := by
  induction ns using List.reverseRecOn with
  | nil => rw [List.append_nil]
  | append_singleton ns p ih =>
    rw [← List.append_assoc, lzMeaning_concat]
    exact ih.trans (List.prefix_append _ _)

/-! ### Legal pairs (42_lz78.md rules R144, R146) -/

/-- Pairs that more pairs can follow: every index names an earlier phrase and no symbol is the terminator. -/
def LzOrdinary (sentinel : Character) (ns : List (Nat × Character)) : Prop :=
  ∀ (k n : Nat) (c : Character), ns[k]? = some (n, c) → n ≤ k ∧ c ≠ sentinel

theorem lzOrdinary_nil (sentinel : Character) : LzOrdinary sentinel [] := fun _ _ _ => nofun

section Ordinary

variable {sentinel c : Character} {n : Nat} {pre rest : List (Nat × Character)}

theorem LzOrdinary.legal (h : LzOrdinary sentinel pre) : LzLegal sentinel pre := fun k n c hk =>
  (h k n c hk).imp_right fun hc heq => absurd heq hc

theorem LzOrdinary.ne_sentinel (h : LzOrdinary sentinel pre) {p : Nat × Character} (hp : p ∈ pre) :
    p.2 ≠ sentinel := by
  obtain ⟨k, hk⟩ := List.mem_iff_getElem?.1 hp
  exact (h k p.1 p.2 hk).2

/-- A pair of a list with one pair more is one of the list or the last. -/
theorem getElem?_concat_cases {α : Type} {as : List α} {a b : α} {k : Nat} (h : (as ++ [a])[k]? = some b) :
    as[k]? = some b ∨ k = as.length ∧ b = a := by
  obtain hk | hk := Nat.lt_or_ge k as.length
  · exact .inl (by rwa [List.getElem?_append_left hk] at h)
  · rw [List.getElem?_append_right hk, List.getElem?_singleton] at h
    split at h
    · next h0 => exact .inr ⟨by omega, (Option.some.inj h).symm⟩
    · cases h

theorem LzOrdinary.concat (h : LzOrdinary sentinel pre) (hn : n ≤ pre.length) (hc : c ≠ sentinel) :
    LzOrdinary sentinel (pre ++ [(n, c)]) := by
  intro k m d hk
  obtain hk | ⟨rfl, heq⟩ := getElem?_concat_cases hk
  · exact h k m d hk
  · cases heq
    exact ⟨hn, hc⟩

/-- Whatever the symbol of the last pair is, the terminator included. -/
theorem LzOrdinary.legal_concat (h : LzOrdinary sentinel pre) (hn : n ≤ pre.length) :
    LzLegal sentinel (pre ++ [(n, c)]) := by
  intro k m d hk
  obtain hk | ⟨rfl, heq⟩ := getElem?_concat_cases hk
  · exact (h k m d hk).imp_right fun hd heq => absurd heq hd
  · cases heq
    exact ⟨hn, fun _ => by simp⟩

theorem index_le_of_lzLegal (h : LzLegal sentinel (pre ++ (n, c) :: rest)) : n ≤ pre.length :=
  (h pre.length n c (by simp)).1

/-- Nothing follows the terminator. -/
theorem eq_nil_of_lzLegal (h : LzLegal sentinel (pre ++ (n, sentinel) :: rest)) : rest = [] := by
  have hlast : pre.length + 1 = (pre ++ (n, sentinel) :: rest).length := (h pre.length n sentinel (by simp)).2 rfl
  simpa using hlast

end Ordinary

/-! ### The encoder (42_lz78.md rules R141 to R144) -/

/-- What holds of the encoder's structures when it has taken the characters of `src`: the phrase list is the
dictionary of the pairs, its phrases are all different, the buffer is one of them, and the pairs and the
buffer stand for the characters taken. -/
structure LzEncoderInv (sentinel : Character) (src : Text) (e : LzEncoder) : Prop where
  ordinary : LzOrdinary sentinel e.pairs
  dict_eq : e.dict = lzDict e.pairs
  nodup : e.dict.Nodup
  buf_mem : e.buf ∈ e.dict
  text : lzMeaning sentinel e.pairs ++ e.buf = src
  length_le : e.pairs.length ≤ src.length

theorem lzEncoderInv_start (sentinel : Character) : LzEncoderInv sentinel [] lzEncoderStart :=
  ⟨lzOrdinary_nil sentinel, rfl, List.nodup_singleton _, List.mem_singleton_self _, rfl, le_rfl⟩

section Encoder

variable {sentinel ch : Character} {src : Text} {e : LzEncoder}

/-- The index that the encoder writes for its buffer names the buffer. -/
theorem LzEncoderInv.getD_idxOf (h : LzEncoderInv sentinel src e) :
    (lzDict e.pairs).getD (e.dict.idxOf e.buf) [] = e.buf := by
  rw [← h.dict_eq, List.getD_eq_getElem?_getD, List.getElem?_idxOf h.buf_mem, Option.getD_some]

theorem LzEncoderInv.idxOf_le (h : LzEncoderInv sentinel src e) : e.dict.idxOf e.buf ≤ e.pairs.length := by
  have hlt := List.idxOf_lt_length_iff.2 h.buf_mem
  rw [h.dict_eq, length_lzDict, ← h.dict_eq] at hlt
  exact Nat.le_of_lt_succ hlt

/-- One character lengthens the buffer when that is a known phrase, and makes a new phrase and a pair otherwise. -/
theorem LzEncoderInv.step (h : LzEncoderInv sentinel src e) (hch : ch ≠ sentinel) :
    LzEncoderInv sentinel (src ++ [ch]) (lzEncoderStep e ch) := by
  have htext := h.text
  rw [lzEncoderStep]
  split
  · next hknown =>
    exact { h with
      buf_mem := hknown
      text := by rw [← htext, List.append_assoc]
      length_le := h.length_le.trans (by simp) }
  · next hnew =>
    exact {
      ordinary := h.ordinary.concat h.idxOf_le hch
      dict_eq := by rw [lzDict_concat, h.getD_idxOf, h.dict_eq]
      nodup := List.nodup_append_comm.1 (List.nodup_cons.2 ⟨hnew, h.nodup⟩)
      buf_mem := by simp [h.dict_eq, List.mem_of_mem_head? (head?_lzDict e.pairs)]
      text := by rw [lzMeaning_concat, h.getD_idxOf, if_neg hch, List.append_nil, ← List.append_assoc, htext]
      length_le := by simpa using h.length_le }

theorem lzEncoderInv_foldl (h : sentinel ∉ src) :
    LzEncoderInv sentinel src (src.foldl lzEncoderStep lzEncoderStart) := by
  induction src using List.reverseRecOn with
  | nil => exact lzEncoderInv_start sentinel
  | append_singleton src ch ih =>
    obtain ⟨hsrc, hch⟩ : sentinel ∉ src ∧ sentinel ≠ ch := by simpa using h
    rw [List.foldl_concat]
    exact (ih hsrc).step hch.symm

/-- The pairs written are the encoder's own, when no character is left in its buffer, or those and a final pair,
which has an empty buffer for the empty text only (rule R143). -/
theorem lzPairs_cases (h : sentinel ∉ src) :
    ∃ e, LzEncoderInv sentinel src e ∧
      (lzPairs sentinel src = e.pairs ∧ e.buf = [] ∨
        lzPairs sentinel src = e.pairs ++ [(e.dict.idxOf e.buf, sentinel)] ∧ (e.buf = [] → src = [])) := by
  have hinv := lzEncoderInv_foldl h
  refine ⟨_, hinv, ?_⟩
  rw [lzPairs, lzEncoderFinish]
  split
  · next hfinal =>
    refine .inr ⟨rfl, fun hbuf => ?_⟩
    have hpairs := hfinal.resolve_left (not_not_intro hbuf)
    rw [← hinv.text, hpairs, hbuf, lzMeaning_nil, List.append_nil]
  · next hfinal => exact .inl ⟨rfl, not_not.1 (not_or.1 hfinal).1⟩

theorem lzLegal_lzPairs (h : sentinel ∉ src) : LzLegal sentinel (lzPairs sentinel src) := by
  obtain ⟨e, hinv, ⟨hpairs, -⟩ | ⟨hpairs, -⟩⟩ := lzPairs_cases h
  · exact hpairs ▸ hinv.ordinary.legal
  · exact hpairs ▸ hinv.ordinary.legal_concat hinv.idxOf_le

theorem lzMeaning_lzPairs (h : sentinel ∉ src) : lzMeaning sentinel (lzPairs sentinel src) = src := by
  obtain ⟨e, hinv, ⟨hpairs, hbuf⟩ | ⟨hpairs, -⟩⟩ := lzPairs_cases h
  · simpa [hpairs, hbuf] using hinv.text
  · rw [hpairs, lzMeaning_concat, hinv.getD_idxOf, if_pos rfl, List.append_nil, hinv.text]

/-- Leaving out the final pair leaves the encoder's own pairs. -/
theorem filter_lzPairs (h : sentinel ∉ src) :
    ∃ e, LzEncoderInv sentinel src e ∧ (lzPairs sentinel src).filter (fun p => p.2 != sentinel) = e.pairs := by
  obtain ⟨e, hinv, hpairs⟩ := lzPairs_cases h
  have hown : e.pairs.filter (fun p => p.2 != sentinel) = e.pairs :=
    List.filter_eq_self.2 fun p hp => bne_iff_ne.2 (hinv.ordinary.ne_sentinel hp)
  refine ⟨e, hinv, ?_⟩
  obtain ⟨hpairs, -⟩ | ⟨hpairs, -⟩ := hpairs
  · rw [hpairs, hown]
  · simp [hpairs, hown]

/-- The phrases are all different (rule R144). -/
theorem nodup_lzDict_lzPairs (h : sentinel ∉ src) :
    (lzDict ((lzPairs sentinel src).filter fun p => p.2 != sentinel)).Nodup := by
  obtain ⟨e, hinv, hfilter⟩ := filter_lzPairs h
  rw [hfilter, ← hinv.dict_eq]
  exact hinv.nodup

/-- Index 0 names the empty phrase, which a residual buffer is not. -/
theorem eq_nil_of_getLast?_lzPairs (h : sentinel ∉ src)
    (hlast : (lzPairs sentinel src).getLast? = some (0, sentinel)) : src = [] := by
  obtain ⟨e, hinv, ⟨hpairs, -⟩ | ⟨hpairs, hempty⟩⟩ := lzPairs_cases h
  · rw [hpairs] at hlast
    exact absurd rfl (hinv.ordinary.ne_sentinel (List.mem_of_getLast? hlast))
  · rw [hpairs, List.getLast?_concat] at hlast
    have hidx : e.dict.idxOf e.buf = 0 := congrArg Prod.fst (Option.some.inj hlast)
    have hbuf := hinv.getD_idxOf
    rw [hidx, List.getD_eq_getElem?_getD, ← List.head?_eq_getElem?, head?_lzDict] at hbuf
    exact hempty hbuf.symm

/-- Every pair but the last takes a character of the source. -/
theorem length_lzPairs_le (h : sentinel ∉ src) : (lzPairs sentinel src).length ≤ src.length + 1 := by
  obtain ⟨e, hinv, ⟨hpairs, -⟩ | ⟨hpairs, -⟩⟩ := lzPairs_cases h
  · exact hpairs ▸ Nat.le_succ_of_le hinv.length_le
  · simpa [hpairs] using hinv.length_le

theorem index_le_length_of_mem_lzPairs (h : sentinel ∉ src) {p : Nat × Character} (hp : p ∈ lzPairs sentinel src) :
    p.1 ≤ src.length := by
  obtain ⟨k, hk⟩ := List.mem_iff_getElem?.1 hp
  have hindex : p.1 ≤ k := (lzLegal_lzPairs h k p.1 p.2 hk).1
  have hlt : k < (lzPairs sentinel src).length := (List.getElem?_eq_some_iff.1 hk).1
  have hlen := length_lzPairs_le h
  omega

theorem lz78Encode_of_not_mem (h : sentinel ∉ src) :
    lz78Encode sentinel src = .ok ((lzPairs sentinel src).flatMap lzPairText) := if_neg h

theorem lz78Encode_ok_iff {out : Text} :
    lz78Encode sentinel src = .ok out ↔ sentinel ∉ src ∧ out = (lzPairs sentinel src).flatMap lzPairText := by
  by_cases h : sentinel ∈ src
  · simp [lz78Encode, h]
  · simp [lz78Encode_of_not_mem h, h, eq_comm]

end Encoder

/-! ### The decoder (42_lz78.md rules R146, R147, 30_encoding.md rule R79) -/

/-- A pair as it stands in the text, the index as written. -/
def writtenLzPair (p : Text × Character) : Text := [lparen] ++ p.1 ++ [comma, p.2, rparen]

theorem readLzPair_reads :
    Reads readLzPair writtenLzPair (fun p => (val p.1, p.2)) (fun p => IsLiteral p.1) := by
  intro t p rest
  simp only [readLzPair, bind_eq_ok_iff, Prod.exists, expect_ok, anyChar_ok]
  constructor
  · rintro ⟨-, u, rfl, n, v, hlit, -, w, rfl, c, -, rfl, -, x, rfl, hres⟩
    cases hres
    obtain ⟨ds, hds, rfl, rfl⟩ := (literal_ok_iff (by decide)).1 hlit
    exact ⟨ds, c, hds, rfl, by simp [writtenLzPair]⟩
  · rintro ⟨ds, c, hds, rfl, rfl⟩
    refine ⟨(), _, ?_, val ds, _, (literal_ok_iff (c := comma) (by decide)).2 ⟨ds, hds, rfl, rfl⟩, (), _, rfl, c, _,
      rfl, (), rest, rfl, rfl⟩
    simp [writtenLzPair]

theorem readSome_readLzPair_ok_iff {enc : Text} {ns : List (Nat × Character)} :
    readSome readLzPair enc = .ok ns ↔ ∃ ps, LzGrammar ps enc ∧ ns = ps.map fun p => (val p.1, p.2) := by
  rw [readSome_ok_iff readLzPair_reads (by simp [writtenLzPair])]
  constructor
  · rintro ⟨ps, hne, hlit, hns, henc⟩
    exact ⟨ps, ⟨hne, hlit, henc⟩, hns⟩
  · rintro ⟨ps, ⟨hne, hlit, henc⟩, hns⟩
    exact ⟨ps, hne, hlit, hns, henc⟩

theorem readLzPair_onlyFormatError (t : Text) : OnlyFormatError (readLzPair t) :=
  (expect_onlyFormatError lparen t).bind fun _ =>
  (literal_onlyFormatError _).bind fun _ =>
  (expect_onlyFormatError comma _).bind fun _ =>
  (anyChar_onlyFormatError _).bind fun _ =>
  (expect_onlyFormatError rparen _).bind fun _ => onlyFormatError_ok _

theorem lzRebuild_onlyFormatError (sentinel : Character) (dict : List Text) (ns : List (Nat × Character)) :
    OnlyFormatError (lzRebuild sentinel dict ns) := by
  induction ns generalizing dict with
  | nil => exact onlyFormatError_ok _
  | cons p rest ih =>
    obtain ⟨n, c⟩ := p
    rw [lzRebuild]
    split
    · exact onlyFormatError_formatError
    · next phrase _ =>
      split
      · split
        · exact onlyFormatError_ok _
        · exact onlyFormatError_formatError
      · split
        · next k hk =>
          obtain rfl := ih _ k hk
          exact onlyFormatError_formatError
        · exact onlyFormatError_ok _

/-! One round of pass 2 of `lz78_decode`, after the ordinary pairs `pre`. -/

section Rebuild

variable {sentinel c : Character} {n : Nat} {pre rest : List (Nat × Character)}

theorem lzRebuild_of_index_gt (h : pre.length < n) :
    lzRebuild sentinel (lzDict pre) ((n, c) :: rest) = .error .formatError := by
  have hnone : (lzDict pre)[n]? = none := List.getElem?_eq_none (by rw [length_lzDict]; exact h)
  simp [lzRebuild, hnone]

theorem getElem?_lzDict (h : n ≤ pre.length) : (lzDict pre)[n]? = some ((lzDict pre).getD n []) := by
  have hlt : n < (lzDict pre).length := by rw [length_lzDict]; exact Nat.lt_succ_of_le h
  rw [List.getD_eq_getElem _ _ hlt, List.getElem?_eq_getElem hlt]

theorem lzRebuild_sentinel (h : n ≤ pre.length) :
    lzRebuild sentinel (lzDict pre) ((n, sentinel) :: rest) =
      if rest = [] then .ok ((lzDict pre).getD n []) else .error .formatError := by
  simp only [lzRebuild, getElem?_lzDict h, if_true]

theorem lzRebuild_ordinary (h : n ≤ pre.length) (hc : c ≠ sentinel) {out : Text} :
    lzRebuild sentinel (lzDict pre) ((n, c) :: rest) = .ok out ↔
      ∃ tail, lzRebuild sentinel (lzDict (pre ++ [(n, c)])) rest = .ok tail ∧
        (lzDict pre).getD n [] ++ [c] ++ tail = out := by
  rw [lzDict_concat]
  simp only [lzRebuild, getElem?_lzDict h, if_neg hc]
  cases lzRebuild sentinel (lzDict pre ++ [(lzDict pre).getD n [] ++ [c]]) rest <;> simp

/-- After ordinary pairs, pass 2 of `lz78_decode` succeeds on exactly the pairs that are legal behind them, and
gives what they add to the text. -/
theorem lzRebuild_lzDict_ok_iff {ns : List (Nat × Character)} {out : Text} (hpre : LzOrdinary sentinel pre) :
    lzRebuild sentinel (lzDict pre) ns = .ok out ↔
      LzLegal sentinel (pre ++ ns) ∧ lzMeaning sentinel (pre ++ ns) = lzMeaning sentinel pre ++ out := by
  induction ns generalizing pre out with
  | nil => simp [lzRebuild, hpre.legal, eq_comm]
  | cons p rest ih =>
    obtain ⟨n, c⟩ := p
    obtain hn | hn := Nat.lt_or_ge pre.length n
    · rw [lzRebuild_of_index_gt hn]
      exact ⟨nofun, fun ⟨hlegal, _⟩ => absurd (index_le_of_lzLegal hlegal) hn.not_ge⟩
    · obtain rfl | hc := eq_or_ne c sentinel
      · rw [lzRebuild_sentinel hn]
        split
        · next hrest =>
          subst hrest
          simp [hpre.legal_concat hn, lzMeaning_concat]
        · next hrest => exact ⟨nofun, fun ⟨hlegal, _⟩ => absurd (eq_nil_of_lzLegal hlegal) hrest⟩
      · obtain ⟨added, hadded⟩ := lzMeaning_prefix sentinel (pre ++ [(n, c)]) rest
        have htail (tail : Text) : lzRebuild sentinel (lzDict (pre ++ [(n, c)])) rest = .ok tail ↔
            LzLegal sentinel (pre ++ (n, c) :: rest) ∧ added = tail := by
          rw [ih (hpre.concat hn hc), ← hadded, List.append_right_inj, ← List.append_cons]
        have hmeaning : lzMeaning sentinel (pre ++ (n, c) :: rest) =
            lzMeaning sentinel pre ++ ((lzDict pre).getD n [] ++ [c] ++ added) := by
          rw [List.append_cons, ← hadded, lzMeaning_concat, if_neg hc, List.append_assoc]
        simp only [lzRebuild_ordinary hn hc, htail, hmeaning, and_assoc, exists_and_left, exists_eq_left',
          List.append_right_inj]

end Rebuild

theorem lzRebuild_ok_iff {sentinel : Character} {ns : List (Nat × Character)} {out : Text} :
    lzRebuild sentinel [[]] ns = .ok out ↔ LzLegal sentinel ns ∧ lzMeaning sentinel ns = out := by
  simpa using lzRebuild_lzDict_ok_iff (ns := ns) (out := out) (lzOrdinary_nil sentinel)

section Decoder

variable {sentinel : Character} {enc : Text}

/-- Once the input is parsed and rebuilt, `lz78_decode` gives the text, unless an index is above `NUM_MAX`. -/
theorem lz78Decode_of_grammar {ps : List (Text × Character)} (h : LzGrammar ps enc)
    (hlegal : LzLegal sentinel (ps.map fun p => (val p.1, p.2))) (numMax : Option Nat) :
    lz78Decode numMax sentinel enc =
      if ∀ p ∈ ps, withinCap numMax (val p.1) = true then
        .ok (lzMeaning sentinel (ps.map fun p => (val p.1, p.2)))
      else .error .capacityError := by
  have hread := readSome_readLzPair_ok_iff.2 ⟨ps, h, rfl⟩
  have hrebuild := lzRebuild_ok_iff.2 ⟨hlegal, rfl⟩
  simp only [lz78Decode, hread, hrebuild, bind, Except.bind, List.all_eq_true, List.forall_mem_map]

theorem lz78Decode_of_illegal
    (h : ¬ ∃ ps, LzGrammar ps enc ∧ LzLegal sentinel (ps.map fun p => (val p.1, p.2))) (numMax : Option Nat) :
    lz78Decode numMax sentinel enc = .error .formatError := by
  cases hread : readSome readLzPair enc with
  | error k =>
    obtain rfl := readSome_onlyFormatError readLzPair_onlyFormatError enc k hread
    rw [lz78Decode, hread]
    rfl
  | ok ns =>
    cases hrebuild : lzRebuild sentinel [[]] ns with
    | error k =>
      obtain rfl := lzRebuild_onlyFormatError sentinel [[]] ns k hrebuild
      simp [lz78Decode, hread, hrebuild, bind, Except.bind]
    | ok out =>
      obtain ⟨ps, hps, rfl⟩ := readSome_readLzPair_ok_iff.1 hread
      obtain ⟨hlegal, -⟩ := lzRebuild_ok_iff.1 hrebuild
      exact absurd ⟨ps, hps, hlegal⟩ h

end Decoder

/-! ### The round trip (42_lz78.md rule R148) -/

/-- What `lz78_encode` writes is a text of the grammar, with the indices as shortest literals. -/
theorem lzGrammar_lzPairs (sentinel : Character) (x : Text) :
    LzGrammar ((lzPairs sentinel x).map fun p => (dec p.1, p.2)) ((lzPairs sentinel x).flatMap lzPairText) := by
  refine ⟨by simpa using lzPairs_ne_nil sentinel x, List.forall_mem_map.2 fun p _ => isLiteral_dec p.1, ?_⟩
  rw [List.flatMap_map]
  rfl

/-- Decoding is possible as soon as an index as large as the text is long is within `NUM_MAX`. -/
theorem lz78Decode_of_lz78Encode {sentinel : Character} {x e : Text} (h : lz78Encode sentinel x = .ok e)
    {numMax : Option Nat} (hcap : withinCap numMax x.length = true) : lz78Decode numMax sentinel e = .ok x := by
  obtain ⟨hx, rfl⟩ := lz78Encode_ok_iff.1 h
  have hvalues : ((lzPairs sentinel x).map fun p => (dec p.1, p.2)).map (fun p => (val p.1, p.2)) =
      lzPairs sentinel x := by
    simp [val_dec, Function.comp_def]
  have hindices : ∀ p ∈ (lzPairs sentinel x).map fun p => (dec p.1, p.2), withinCap numMax (val p.1) = true :=
    List.forall_mem_map.2 fun p hp => by
      rw [val_dec]
      exact withinCap_of_le (index_le_length_of_mem_lzPairs hx hp) hcap
  rw [lz78Decode_of_grammar (lzGrammar_lzPairs sentinel x) (hvalues.symm ▸ lzLegal_lzPairs hx), if_pos hindices, hvalues,
    lzMeaning_lzPairs hx]

/-- A round trip on the machine: it is enough that the decoder's family function, in the same build, gives the text
back from the encoder's result. -/
theorem roundTrip_of_familyResult {i j : Instr} {s t u : State} (hb : s.build.ok = true)
    (hexec : exec i s = .next t) (hok : t.err = .ok) (hmoved : Moved t u)
    (hout : withinCap s.build.maxOut s.inLen = true)
    (hdec : u.build = s.build → familyResult s i = .ok (inputText u) → familyResult u j = .ok (inputText s)) :
    ∃ v, exec j u = .next v ∧ v.err = .ok ∧ outputText v = inputText s := by
  obtain ⟨hubuild, hutext⟩ := hmoved
  obtain ⟨henc, htbuild⟩ := familyResult_of_exec_ok hexec hok
  have hbuild : u.build = s.build := hubuild.trans htbuild
  exact exec_succeeds (hbuild ▸ hb) (hdec hbuild (hutext.symm ▸ henc)) (by rwa [hbuild, inputText_length])

/-- Settles O38: on the machine the indices are within `NUM_MAX`, since the input text is within `MAX_IN`. -/
theorem lzRoundTrip : Obligations.LzRoundTrip := by
  refine ⟨fun sentinel x hx => ?functions, fun s t u p q hb hin hexec hok hmoved hout => ?machine⟩
  case functions =>
    have henc := lz78Encode_of_not_mem hx
    exact ⟨_, henc, lz78Decode_of_lz78Encode henc rfl⟩
  case machine =>
    refine roundTrip_of_familyResult hb hexec hok hmoved hout fun hbuild henc => ?_
    rw [familyResult, hbuild]
    exact lz78Decode_of_lz78Encode henc (withinCap_numMax hb (by rwa [inputText_length]))

/-! ### LZ78_ENC and LZ78_DEC -/

theorem exec_lz78Enc (radix : BitVec 4) (s : State) : exec (.lz78Enc radix) s =
    .next (complete .encode (inputText s) (lz78Encode s.build.lzSentinel (inputText s)) s) := rfl

theorem exec_lz78Dec (radix : BitVec 4) (s : State) : exec (.lz78Dec radix) s =
    .next (complete .decode (inputText s) (lz78Decode s.build.numMax s.build.lzSentinel (inputText s)) s) := rfl

/-- An operation whose family function gives a text completes with it or with CapacityError, by `MAX_OUT`. -/
theorem completion_by_maxOut {i : Instr} {s : State} {d : Direction} {src out : Text}
    (h : exec i s = .next (complete d src (.ok out) s)) :
    (withinCap s.build.maxOut out.length = true → ∃ t, exec i s = .next t ∧ t.err = .ok ∧ outputText t = out) ∧
      (withinCap s.build.maxOut out.length = false → ∃ t, exec i s = .next t ∧ t.err = .capacityError) := by
  refine ⟨fun hfit => ?_, fun hover => ?_⟩
  · rw [complete_ok_of_fits hfit] at h
    exact ⟨_, h, rfl, outputText_completeOk ..⟩
  · rw [complete_ok_of_overflows hover] at h
    exact ⟨_, h, rfl⟩

/-- Settles O36: the pairs are those of `lzPairs`, and the completion is by `MAX_OUT`. -/
theorem lzEncWritesNewPhrases : Obligations.LzEncWritesNewPhrases := by
  intro s radix hsrc
  have hexec := exec_lz78Enc radix s
  rw [lz78Encode_of_not_mem hsrc] at hexec
  exact ⟨lzPairs s.build.lzSentinel (inputText s), lzPairs_ne_nil _ _, lzLegal_lzPairs hsrc,
    nodup_lzDict_lzPairs hsrc, lzMeaning_lzPairs hsrc, eq_nil_of_getLast?_lzPairs hsrc, completion_by_maxOut hexec⟩

/-- Settles O37, by the result of `lz78_decode` on the legal texts of the grammar and on all others. -/
theorem lzDecAcceptsTheGrammar : Obligations.LzDecAcceptsTheGrammar := by
  intro s radix
  have hexec := exec_lz78Dec radix s
  refine ⟨fun ps hps hlegal => ?legal, fun hnone => ?malformed⟩
  case legal =>
    rw [lz78Decode_of_grammar hps hlegal] at hexec
    split at hexec
    · next hindices =>
      obtain ⟨hfits, hoverflows⟩ := completion_by_maxOut hexec
      exact ⟨fun h => hfits h.2, fun hover => hoverflows (hover.resolve_left (by simpa using hindices))⟩
    · next hindices => exact ⟨fun h => absurd h.1 hindices, fun _ => ⟨_, hexec, rfl⟩⟩
  case malformed =>
    rw [lz78Decode_of_illegal hnone] at hexec
    exact ⟨_, hexec, rfl⟩

end Sys2Proof.Machine

namespace Sys2Proof.Machine

/-! ### The size of a Huffman merge (43_huffman.md rule R163) -/

/-- A merge of `k` nodes out of `m`, all later ones being of `r`, ends in one node. -/
structure MergeFits (r k m : Nat) : Prop where
  two_le : 2 ≤ k
  le : k ≤ m
  rest : r - 1 ∣ m - k

theorem mergeFits_firstMerge {m r : Nat} (hm : 2 ≤ m) : MergeFits r (firstMerge m r) m where
  two_le := Nat.le_add_right 2 _
  le := by
    have := Nat.mod_le (m - 2) (r - 1)
    rw [firstMerge]
    omega
  rest := by
    rw [firstMerge, Nat.sub_add_eq]
    exact Nat.dvd_sub_mod _

/-- Unless a merge leaves its own node alone, it leaves a number of nodes that suits a merge of `r`. -/
theorem MergeFits.next {r k m : Nat} (hr : 2 ≤ r) (h : MergeFits r k m) (hmore : 1 < m - k + 1) :
    MergeFits r r (m - k + 1) := by
  obtain ⟨-, -, hrest⟩ := h
  have hle : r - 1 ≤ m - k := Nat.le_of_dvd (by omega) hrest
  refine ⟨hr, by omega, ?_⟩
  rw [show m - k + 1 - r = m - k - (r - 1) by omega]
  exact Nat.dvd_sub hrest dvd_rfl

theorem firstMerge_of_le {m r : Nat} (hm : 2 ≤ m) (hmr : m ≤ r) : firstMerge m r = m := by
  rw [firstMerge, Nat.mod_eq_of_lt (by omega)]
  omega

/-- When `r - 1` divides `m - r`, the remainder of `m - 2 = (m - r) + (r - 2)` is `r - 2`. -/
theorem firstMerge_of_dvd {m r : Nat} (hr : 2 ≤ r) (hmr : r < m) (hdvd : (m - r) % (r - 1) = 0) :
    firstMerge m r = r := by
  rw [firstMerge, show m - 2 = m - r + (r - 2) by omega, Nat.add_mod, hdvd, Nat.zero_add, Nat.mod_mod,
    Nat.mod_eq_of_lt (by omega)]
  omega

/-- Settles O41, by the remainder of `m - 2` modulo `r - 1`. -/
theorem firstMergeSize : Obligations.FirstMergeSize := by
  intro m r hm hr
  obtain ⟨htwo, hle, hrest⟩ := mergeFits_firstMerge (r := r) hm
  exact ⟨htwo, firstMerge_le m hr, hle, firstMerge_of_le hm, firstMerge_of_dvd hr,
    Nat.mod_eq_zero_of_dvd hrest, by rw [firstMerge, Nat.mod_one]⟩

/-! ### The node order (43_huffman.md rule R164) -/

/-- The key of a node, in a type whose order is lexicographic. -/
def Node.rank (n : Node) : ℕ ×ₗ ℕ ×ₗ ℕ := toLex (n.key.1, toLex n.key.2)

theorem keyLe_iff {a b : Node} : keyLe a.key b.key = true ↔ a.rank ≤ b.rank := by
  simp [keyLe, Node.rank, Prod.Lex.toLex_le_toLex]

theorem nodeBefore_iff {a b : Node} : NodeBefore a b ↔ a.rank < b.rank := by
  cases a <;> cases b <;> simp [NodeBefore, Node.rank, Node.key, Node.weight, Prod.Lex.toLex_lt_toLex]

/-- The node order as the library's sorting takes it: ranks compared. -/
abbrev RankLe : Node → Node → Prop := Node.rank ⁻¹'o (· ≤ ·)

theorem insertNode_eq_orderedInsert (n : Node) (ns : List Node) :
    insertNode n ns = ns.orderedInsert RankLe n := by
  induction ns with
  | nil => rfl
  | cons m ns ih =>
    simp only [insertNode, keyLe_iff, ih, List.orderedInsert, Order.Preimage]

theorem sortNodes_eq_insertionSort (ns : List Node) : sortNodes ns = ns.insertionSort RankLe := by
  induction ns with
  | nil => rfl
  | cons n ns ih => rw [sortNodes, ih, insertNode_eq_orderedInsert, List.insertionSort_cons]

theorem sortNodes_perm (ns : List Node) : (sortNodes ns).Perm ns :=
  sortNodes_eq_insertionSort ns ▸ List.perm_insertionSort RankLe ns

/-- Sorting puts nodes of different ranks into the node order. -/
theorem pairwise_sortNodes {ns : List Node} (h : (ns.map Node.rank).Nodup) :
    (sortNodes ns).Pairwise NodeBefore := by
  have hle : (sortNodes ns).Pairwise RankLe :=
    sortNodes_eq_insertionSort ns ▸ List.pairwise_insertionSort RankLe ns
  have hne : (sortNodes ns).Pairwise fun a b => a.rank ≠ b.rank :=
    List.pairwise_map.1 (((sortNodes_perm ns).map Node.rank).nodup_iff.2 h)
  exact hle.imp₂ (fun _ _ hab hne => nodeBefore_iff.2 (lt_of_le_of_ne hab hne)) hne

/-- There is one way to put nodes into the node order. -/
theorem eq_of_perm_of_pairwise_nodeBefore {as bs : List Node} (h : as.Perm bs) (ha : as.Pairwise NodeBefore)
    (hb : bs.Pairwise NodeBefore) : as = bs :=
  h.eq_of_pairwise (fun _ _ _ _ hab hba => absurd (nodeBefore_iff.1 hba) (nodeBefore_iff.1 hab).asymm) ha hb

/-! ### The merges (43_huffman.md rules R163 to R165) -/

/-- An internal node made before the one with number `seq`; a leaf is there from the start. -/
def Node.MadeBefore (seq : Nat) : Node → Prop
  | .leaf _ _ => True
  | .internal _ _ i => i < seq

/-- Nodes that the node order tells apart, before internal node `seq` is made. -/
structure Mergeable (seq : Nat) (ns : List Node) : Prop where
  madeBefore : ∀ n ∈ ns, n.MadeBefore seq
  ranks : (ns.map Node.rank).Nodup

theorem Mergeable.perm {seq : Nat} {ns ns' : List Node} (h : Mergeable seq ns) (hperm : ns.Perm ns') :
    Mergeable seq ns' :=
  ⟨fun n hn => h.madeBefore n (hperm.symm.subset hn), (hperm.map Node.rank).nodup_iff.1 h.ranks⟩

/-- The next internal node differs in rank from every node made before. -/
theorem rank_internal_ne {seq : Nat} {n : Node} (h : n.MadeBefore seq) (children : List Node) (w : Nat) :
    n.rank ≠ (Node.internal children w seq).rank := by
  cases n with
  | leaf c v => simp [Node.rank, Node.key]
  | internal cs v i =>
    have hi : i < seq := h
    simp [Node.rank, Node.key, hi.ne]

theorem Node.MadeBefore.succ {seq : Nat} {n : Node} (h : n.MadeBefore seq) : n.MadeBefore (seq + 1) := by
  cases n with
  | leaf => trivial
  | internal => exact Nat.lt_succ_of_lt h

/-- What a merge leaves can be merged on. -/
theorem Mergeable.merge {seq : Nat} {sel rest : List Node} (h : Mergeable seq (sel ++ rest)) (w : Nat) :
    Mergeable (seq + 1) (.internal sel w seq :: rest) := by
  obtain ⟨hmade, hranks⟩ := h
  have hrest := fun n hn => hmade n (List.mem_append_right sel hn)
  refine ⟨List.forall_mem_cons.2 ⟨Nat.lt_succ_self seq, fun n hn => (hrest n hn).succ⟩,
    List.nodup_cons.2 ⟨?_, ?_⟩⟩
  · rw [List.mem_map]
    rintro ⟨n, hn, heq⟩
    exact rank_internal_ne (hrest n hn) sel w heq
  · rw [List.map_append] at hranks
    exact hranks.of_append_right

theorem mergeable_leaves {f : FreqTable} (hf : f.wf) (seq : Nat) :
    Mergeable seq (f.map fun e => .leaf e.1 e.2) := by
  refine ⟨List.forall_mem_map.2 fun _ _ => trivial, ?_⟩
  rw [List.map_map]
  refine List.pairwise_map.2 (hf.1.imp fun hlt heq => ?_)
  obtain ⟨-, hsymbol⟩ : _ ∧ _ := by simpa [Node.rank, Node.key] using heq
  exact hlt.ne hsymbol

/-- The order in which the nodes are given does not matter (rule R164). -/
theorem mergesTo_of_perm {r k seq : Nat} {ns ns' : List Node} {root : Node} (h : MergesTo r k seq ns root)
    (hperm : ns.Perm ns') : MergesTo r k seq ns' root := by
  cases h with
  | root => exact List.singleton_perm.1 hperm ▸ .root k seq root
  | merge _ _ _ sel rest _ hmore hsel hk hsorted hbefore hnext =>
    exact .merge _ _ _ sel rest _ (hperm.length_eq ▸ hmore) (hperm.symm.trans hsel) hk hsorted hbefore hnext

/-- The `k` smallest nodes, in the node order (rule R164). -/
theorem Mergeable.exists_smallest {seq k : Nat} {ns : List Node} (h : Mergeable seq ns) (hk : k ≤ ns.length) :
    ∃ sel rest, ns.Perm (sel ++ rest) ∧ sel.length = k ∧ sel.Pairwise NodeBefore ∧
      ∀ a ∈ sel, ∀ b ∈ rest, NodeBefore a b := by
  have hperm := sortNodes_perm ns
  have hsorted := pairwise_sortNodes h.ranks
  rw [← List.take_append_drop k (sortNodes ns)] at hperm hsorted
  obtain ⟨hsel, -, hbefore⟩ := List.pairwise_append.1 hsorted
  exact ⟨_, _, hperm.symm, by rw [List.length_take, (sortNodes_perm ns).length_eq, min_eq_left hk], hsel, hbefore⟩

/-- Nodes whose number suits the merges can be merged to a root. -/
theorem exists_mergesTo {r k seq : Nat} {ns : List Node} (hr : 2 ≤ r) (hns : Mergeable seq ns)
    (hfits : ns.length = 1 ∨ MergeFits r k ns.length) : ∃ root, MergesTo r k seq ns root := by
  induction hm : ns.length using Nat.strong_induction_on generalizing k seq ns with
  | h m ih =>
  subst hm
  obtain hone | hfits := hfits
  · obtain ⟨n, rfl⟩ := List.length_eq_one_iff.1 hone
    exact ⟨n, .root k seq n⟩
  · have htwo := hfits.two_le
    have hle := hfits.le
    obtain ⟨sel, rest, hperm, hk, hsel, hbefore⟩ := hns.exists_smallest hle
    have hlen : rest.length = ns.length - k := by
      rw [hperm.length_eq, List.length_append, hk, Nat.add_sub_cancel_left]
    have hnext : rest.length + 1 = 1 ∨ MergeFits r r (rest.length + 1) := by
      rw [hlen]
      exact (Nat.lt_or_ge 1 _).symm.imp (fun h => by omega) (hfits.next hr)
    obtain ⟨root, hroot⟩ := ih (rest.length + 1) (by omega) ((hns.perm hperm).merge _) hnext rfl
    exact ⟨root, .merge k seq ns sel rest root (by omega) hperm hk hsel hbefore hroot⟩

/-- Sorting begins with the nodes a merge selects. -/
theorem sortNodes_eq_append {ns sel rest : List Node} (hranks : (ns.map Node.rank).Nodup)
    (hperm : ns.Perm (sel ++ rest)) (hsel : sel.Pairwise NodeBefore)
    (hbefore : ∀ a ∈ sel, ∀ b ∈ rest, NodeBefore a b) : sortNodes ns = sel ++ sortNodes rest := by
  have hrest : (rest.map Node.rank).Nodup := by
    have h := (hperm.map Node.rank).nodup_iff.1 hranks
    rw [List.map_append] at h
    exact h.of_append_right
  refine eq_of_perm_of_pairwise_nodeBefore ?_ (pairwise_sortNodes hranks)
    (List.pairwise_append.2 ⟨hsel, pairwise_sortNodes hrest, fun a ha b hb => ?_⟩)
  · exact (sortNodes_perm ns).trans (hperm.trans ((sortNodes_perm rest).symm.append_left sel))
  · exact hbefore a ha b ((sortNodes_perm rest).subset hb)

theorem mergeAll_of_length_le_one {ns : List Node} (h : ns.length ≤ 1) (r fuel k seq : Nat) :
    mergeAll r fuel k seq ns = ns := by
  cases fuel with
  | zero => rfl
  | succ fuel => exact if_pos h

/-- One round of the loop of `build_code` over sorted nodes. -/
theorem mergeAll_merge {r fuel k seq : Nat} {sel rest : List Node} (hk : sel.length = k)
    (hmore : 1 < (sel ++ sortNodes rest).length) :
    mergeAll r (fuel + 1) k seq (sel ++ sortNodes rest) =
      mergeAll r fuel r (seq + 1) (sortNodes (.internal sel (totalWeight sel) seq :: rest)) := by
  rw [mergeAll, if_neg hmore.not_ge, List.take_left' hk, List.drop_left' hk, sortNodes]

/-- Every merge to a root is the one the loop of `build_code` makes, so there is one root (rule R165). -/
theorem mergeAll_of_mergesTo {r k seq fuel : Nat} {ns : List Node} {root : Node} (h : MergesTo r k seq ns root)
    (hns : Mergeable seq ns) (hr : 2 ≤ r) (hk : 2 ≤ k) (hfuel : ns.length ≤ fuel) :
    mergeAll r fuel k seq (sortNodes ns) = [root] := by
  induction h generalizing fuel with
  | root k seq n => exact mergeAll_of_length_le_one le_rfl r fuel k seq
  | merge k seq ns sel rest root hmore hperm hlen hsel hbefore _ ih =>
    have hcount : ns.length = k + rest.length := by rw [hperm.length_eq, List.length_append, hlen]
    obtain ⟨fuel, rfl⟩ := Nat.exists_eq_add_one_of_ne_zero (show fuel ≠ 0 by omega)
    have hsorted := sortNodes_eq_append hns.ranks hperm hsel hbefore
    rw [hsorted, mergeAll_merge hlen (by rwa [← hsorted, (sortNodes_perm ns).length_eq])]
    exact ih ((hns.perm hperm).merge _) hr (by rw [List.length_cons]; omega)

/-- Settles O43: a root exists by counting the nodes, and every root is the one `mergeAll` ends in. -/
theorem mergesTakeTheSmallest : Obligations.MergesTakeTheSmallest := by
  intro f r leaves hf hlen hr hperm
  have hleaves := mergeable_leaves hf 0
  have hcount : (f.map fun e => Node.leaf e.1 e.2).length = f.length := List.length_map _
  have hfits : MergeFits r (firstMerge f.length r) f.length := mergeFits_firstMerge hlen
  have hall : ∀ root, MergesTo r (firstMerge f.length r) 0 leaves root →
      mergeAll r f.length (firstMerge f.length r) 0 (sortNodes (f.map fun e => .leaf e.1 e.2)) = [root] :=
    fun root h => mergeAll_of_mergesTo (mergesTo_of_perm h hperm) hleaves hr hfits.two_le hcount.le
  obtain ⟨root, hroot⟩ := exists_mergesTo hr (hleaves.perm hperm.symm) (.inr (by rwa [hperm.length_eq, hcount]))
  refine ⟨root, hroot, fun other hother => ?_, hall root hroot⟩
  exact List.head_eq_of_cons_eq ((hall other hother).symm.trans (hall root hroot))

end Sys2Proof.Machine

namespace Sys2Proof.Machine

/-! ### The tree the merges end in (43_huffman.md rules R162, R163) -/

theorem nodeShapes_iff {k0 r : Nat} {ns : List Node} : NodeShapes k0 r ns ↔ ∀ n ∈ ns, NodeShape k0 r n := by
  induction ns with
  | nil => simp [NodeShapes]
  | cons n ns ih => rw [NodeShapes, ih, List.forall_mem_cons]

theorem nodesLeaves_eq_flatMap (ns : List Node) : nodesLeaves ns = ns.flatMap nodeLeaves := by
  induction ns with
  | nil => rfl
  | cons n ns ih => rw [nodesLeaves, ih, List.flatMap_cons]

section Tree

variable {r k seq : Nat} {ns : List Node} {root : Node}

theorem nodeShape_of_mergesTo {k0 : Nat} (h : MergesTo r k seq ns root) (hk : k = if seq = 0 then k0 else r)
    (hns : ∀ n ∈ ns, NodeShape k0 r n) : NodeShape k0 r root := by
  induction h with
  | root k seq n => exact hns n List.mem_cons_self
  | merge k seq ns sel rest root _ hperm hlen _ _ _ ih =>
    obtain ⟨hsel, hrest⟩ := List.forall_mem_append.1 fun n hn => hns n (hperm.symm.subset hn)
    refine ih (if_neg (Nat.succ_ne_zero seq)).symm (List.forall_mem_cons.2 ⟨?_, hrest⟩)
    rw [NodeShape, nodeShapes_iff]
    exact ⟨hlen.trans hk, rfl, hsel⟩

theorem nodeLeaves_perm_of_mergesTo (h : MergesTo r k seq ns root) :
    (nodeLeaves root).Perm (ns.flatMap nodeLeaves) := by
  induction h with
  | root k seq n => rw [List.flatMap_singleton]
  | merge k seq ns sel rest root _ hperm _ _ _ _ ih =>
    rw [List.flatMap_cons, nodeLeaves, nodesLeaves_eq_flatMap, ← List.flatMap_append] at ih
    exact ih.trans (hperm.symm.flatMap_right nodeLeaves)

theorem weight_of_mergesTo (h : MergesTo r k seq ns root) : root.weight = (ns.map Node.weight).sum := by
  induction h with
  | root k seq n => rw [List.map_singleton, List.sum_singleton]
  | merge k seq ns sel rest root _ hperm _ _ _ _ ih =>
    rw [ih, (hperm.map Node.weight).sum_eq, List.map_append, List.sum_append, List.map_cons, List.sum_cons,
      Node.weight]

end Tree

/-- What the tree of a table of two or more symbols is made of, for radix `r`. -/
structure IsPrefixTree (f : FreqTable) (r : Nat) (root : Node) : Prop where
  two_le_length : 2 ≤ f.length
  shape : NodeShape (firstMerge f.length r) r root
  leaves : (nodeLeaves root).Perm f
  weight : root.weight = f.total

theorem isPrefixTree_of_mergesTo {f : FreqTable} {r : Nat} {root : Node} (hlen : 2 ≤ f.length)
    (h : MergesTo r (firstMerge f.length r) 0 (f.map fun e => .leaf e.1 e.2) root) : IsPrefixTree f r root where
  two_le_length := hlen
  shape := nodeShape_of_mergesTo h (if_pos rfl).symm (List.forall_mem_map.2 fun _ _ => by rw [NodeShape]; trivial)
  leaves := by simpa [List.flatMap_map, nodeLeaves] using nodeLeaves_perm_of_mergesTo h
  weight := by rw [weight_of_mergesTo h, List.map_map, FreqTable.total]; rfl

/-- Settles O42: each merge keeps the shape, the leaves and the weight of the nodes it takes. -/
theorem prefixTreeShape : Obligations.PrefixTreeShape := by
  intro f r hf hlen hr
  obtain ⟨root, hmerges, -, hmergeAll⟩ := mergesTakeTheSmallest f r _ hf hlen hr (.refl _)
  obtain ⟨-, hshape, hleaves, hweight⟩ := isPrefixTree_of_mergesTo hlen hmerges
  exact ⟨root, hmergeAll, hshape, hleaves, hweight⟩

/-! ### Code words and paths (43_huffman.md rules R165, R167) -/

mutual
theorem mem_assign {c : Character} {w : Text} : ∀ (n : Node) (pre : Text),
    (c, w) ∈ assign n pre ↔ ∃ path m, NodeAt n path (.leaf c m) ∧ w = pre ++ path.map digit
  | .leaf d m, pre => by
    rw [assign, List.mem_singleton]
    constructor
    · rintro ⟨⟩
      exact ⟨[], m, .here _, (List.append_nil _).symm⟩
    · rintro ⟨path, n, ⟨⟩, rfl⟩
      rw [List.map_nil, List.append_nil]
  | .internal children v seq, pre => by
    rw [assign, mem_assignFrom children 0 pre]
    constructor
    · rintro ⟨j, n, hn, path, m, hpath, rfl⟩
      exact ⟨j :: path, m, .child _ _ _ _ _ _ _ hn hpath, by rw [Nat.zero_add, List.map_cons]⟩
    · rintro ⟨path, m, hpath, rfl⟩
      cases hpath with
      | child _ _ _ j n _ path hn hpath => exact ⟨j, n, hn, path, m, hpath, by rw [Nat.zero_add, List.map_cons]⟩
theorem mem_assignFrom {c : Character} {w : Text} : ∀ (ns : List Node) (j : Nat) (pre : Text),
    (c, w) ∈ assignFrom ns j pre ↔ ∃ i n, ns[i]? = some n ∧
      ∃ path m, NodeAt n path (.leaf c m) ∧ w = pre ++ digit (j + i) :: path.map digit
  | [], j, pre => by simp [assignFrom]
  | n :: ns, j, pre => by
    rw [assignFrom, List.mem_append, mem_assign n, mem_assignFrom ns]
    constructor
    · rintro (⟨path, m, hpath, rfl⟩ | ⟨i, n', hn', path, m, hpath, rfl⟩)
      · exact ⟨0, n, rfl, path, m, hpath, by simp⟩
      · exact ⟨i + 1, n', hn', path, m, hpath, by rw [Nat.add_right_comm, Nat.add_assoc]⟩
    · rintro ⟨i, n', hn', path, m, hpath, rfl⟩
      cases i with
      | zero =>
        cases hn'
        exact .inl ⟨path, m, hpath, by simp⟩
      | succ i => exact .inr ⟨i, n', hn', path, m, hpath, by rw [Nat.add_right_comm, Nat.add_assoc]⟩
end

mutual
/-- The symbols get their code words in the order of the leaves. -/
theorem symbols_assign : ∀ (n : Node) (pre : Text), (assign n pre).map Prod.fst = (nodeLeaves n).map Prod.fst
  | .leaf _ _, _ => by rw [assign, nodeLeaves]; rfl
  | .internal children _ _, pre => by rw [assign, nodeLeaves, symbols_assignFrom children 0 pre]
theorem symbols_assignFrom : ∀ (ns : List Node) (j : Nat) (pre : Text),
    (assignFrom ns j pre).map Prod.fst = (nodesLeaves ns).map Prod.fst
  | [], _, _ => by rw [assignFrom, nodesLeaves]; rfl
  | n :: ns, j, pre => by
    rw [assignFrom, nodesLeaves, List.map_append, List.map_append, symbols_assign n, symbols_assignFrom ns]
end

theorem mem_nodeLeaves_of_nodeAt {root n : Node} {path : List Nat} {c : Character} {m : Nat}
    (h : NodeAt root path n) (hn : n = .leaf c m) : (c, m) ∈ nodeLeaves root := by
  induction h with
  | here => rw [hn, nodeLeaves]; exact List.mem_cons_self
  | child children w seq j node _ path hnode _ ih =>
    rw [nodeLeaves, nodesLeaves_eq_flatMap]
    exact List.mem_flatMap.2 ⟨node, List.mem_of_getElem? hnode, ih hn⟩

/-- A path leads on from a leaf no further (symbols are leaves only, rule R168). -/
theorem eq_nil_of_nodeAt_leaf {root l n : Node} {path rest : List Nat} {c : Character} {m : Nat}
    (h : NodeAt root path l) (hl : l = .leaf c m) (hrest : NodeAt root (path ++ rest) n) : rest = [] ∧ n = l := by
  induction h with
  | here =>
    subst hl
    cases hrest
    exact ⟨rfl, rfl⟩
  | child children w seq j node _ path hnode _ ih =>
    cases hrest with
    | child _ _ _ _ node' _ _ hnode' hrest =>
      cases hnode.symm.trans hnode'
      exact ih hl hrest

/-- No node has more than `r` children, so every position on a path is below `r`. -/
theorem lt_of_mem_path {k0 r : Nat} (hk0 : k0 ≤ r) {root n : Node} {path : List Nat} (h : NodeAt root path n)
    (hshape : NodeShape k0 r root) : ∀ j ∈ path, j < r := by
  induction h with
  | here => exact nofun
  | child children w seq j node _ path hnode _ ih =>
    rw [NodeShape, nodeShapes_iff] at hshape
    obtain ⟨hcount, -, hchildren⟩ := hshape
    have hj : j < children.length := (List.getElem?_eq_some_iff.1 hnode).1
    have hr : children.length ≤ r := by
      rw [hcount]
      split
      · exact hk0
      · exact le_rfl
    exact List.forall_mem_cons.2 ⟨hj.trans_le hr, ih (hchildren node (List.mem_of_getElem? hnode))⟩

theorem digit_injective : Function.Injective digit := fun _ _ h => Nat.add_left_cancel h

end Sys2Proof.Machine

namespace Sys2Proof.Machine

/-! ### The code of a table (43_huffman.md rules R165 to R168) -/

theorem codeWord_mem {code : Code} {c : Character} (h : c ∈ code.map Prod.fst) : (c, codeWord code c) ∈ code := by
  induction code with
  | nil => cases h
  | cons e code ih =>
    rw [codeWord]
    split
    · next hc =>
      subst hc
      exact List.mem_cons_self
    · next hc => exact List.mem_cons_of_mem _ (ih ((List.mem_cons.1 h).resolve_left (Ne.symm hc)))

/-- The code word of a symbol is that of its one entry. -/
theorem codeWord_of_mem {code : Code} (hcode : (code.map Prod.fst).Nodup) {c : Character} {w : Text}
    (h : (c, w) ∈ code) : codeWord code c = w :=
  congrArg Prod.snd (List.inj_on_of_nodup_map hcode (codeWord_mem (List.mem_map_of_mem h)) h rfl)

theorem buildCode_eq_flatMap {f : FreqTable} (hlen : 2 ≤ f.length) (r : Nat) :
    buildCode f r = (mergeAll r f.length (firstMerge f.length r) 0
      (sortNodes (f.map fun e => .leaf e.1 e.2))).flatMap fun root => assign root [] := by
  match f with
  | [] | [_] => simp at hlen
  | _ :: _ :: _ => rfl

theorem buildCode_of_mergesTo {f : FreqTable} {r : Nat} {root : Node} (hf : f.wf) (hlen : 2 ≤ f.length)
    (hr : 2 ≤ r) (h : MergesTo r (firstMerge f.length r) 0 (f.map fun e => .leaf e.1 e.2) root) :
    buildCode f r = assign root [] := by
  obtain ⟨_, -, hunique, hmergeAll⟩ := mergesTakeTheSmallest f r _ hf hlen hr (.refl _)
  rw [buildCode_eq_flatMap hlen, hmergeAll, ← hunique root h, List.flatMap_singleton]

section PrefixTree

variable {f : FreqTable} {r : Nat} {root : Node}

theorem IsPrefixTree.symbols (h : IsPrefixTree f r root) :
    ((assign root []).map Prod.fst).Perm (f.map Prod.fst) :=
  symbols_assign root [] ▸ h.leaves.map Prod.fst

/-- With two symbols or more the root is no leaf, so no path to a leaf is empty. -/
theorem IsPrefixTree.path_ne_nil (h : IsPrefixTree f r root) {path : List Nat} {c : Character} {n : Nat}
    (hpath : NodeAt root path (.leaf c n)) : path ≠ [] := by
  rintro rfl
  cases hpath
  have hone := h.leaves.length_eq
  have htwo := h.two_le_length
  rw [nodeLeaves, List.length_singleton] at hone
  omega

theorem mem_assign_root {c : Character} {w : Text} :
    (c, w) ∈ assign root [] ↔ ∃ path n, NodeAt root path (.leaf c n) ∧ w = path.map digit :=
  mem_assign root []

theorem IsPrefixTree.isPrefixCode (h : IsPrefixTree f r root) (hr : 2 ≤ r) :
    IsPrefixCode (assign root []) f r where
  symbols := h.symbols
  nonempty := by
    rintro ⟨c, w⟩ he
    obtain ⟨path, n, hpath, rfl⟩ := mem_assign_root.1 he
    simpa using h.path_ne_nil hpath
  digits := by
    rintro ⟨c, w⟩ he d hd
    obtain ⟨path, n, hpath, rfl⟩ := mem_assign_root.1 he
    obtain ⟨j, hj, rfl⟩ := List.mem_map.1 hd
    exact ⟨j, lt_of_mem_path (firstMerge_le _ hr) hpath h.shape j hj, rfl⟩
  prefix_free := by
    rintro ⟨c, w⟩ ha ⟨d, v⟩ hb hprefix
    obtain ⟨path, n, hpath, rfl⟩ := mem_assign_root.1 ha
    obtain ⟨path', m, hpath', rfl⟩ := mem_assign_root.1 hb
    obtain ⟨rest, rfl⟩ := (List.prefix_map_iff_of_injective digit_injective).1 hprefix
    obtain ⟨rfl, hleaf⟩ := eq_nil_of_nodeAt_leaf hpath rfl hpath'
    cases hleaf
    rw [List.append_nil]

end PrefixTree

/-- Settles O44: `assign` writes down the paths, and the leaves are the table's entries. -/
theorem codeWordsAreTheDigitPaths : Obligations.CodeWordsAreTheDigitPaths := by
  refine ⟨fun f r root hf hlen hr hmerges => ?_, fun _ _ _ => rfl⟩
  have htree := isPrefixTree_of_mergesTo hlen hmerges
  have hkeys : ((assign root []).map Prod.fst).Nodup := htree.symbols.nodup_iff.2 (FreqTable.nodup_keys hf)
  rw [buildCode_of_mergesTo hf hlen hr hmerges]
  refine ⟨fun c w => mem_assign_root, fun c path n hpath => ⟨?count, ?word⟩⟩
  case count => exact FreqTable.count_of_mem hf (htree.leaves.subset (mem_nodeLeaves_of_nodeAt hpath rfl))
  case word => exact codeWord_of_mem hkeys (mem_assign_root.2 ⟨path, n, hpath, rfl⟩)

/-- The code of a table of one symbol (rule R166). -/
theorem isPrefixCode_singleton (e : Character × Nat) {r : Nat} (hr : 0 < r) :
    IsPrefixCode [(e.1, [digit 0])] [e] r where
  symbols := .refl _
  nonempty := by simp
  digits := by simpa using ⟨0, hr, rfl⟩
  prefix_free := by simp

theorem isPrefixCode_buildCode {f : FreqTable} {r : Nat} (hf : f.wf) (hne : f ≠ []) (hr : 2 ≤ r) :
    IsPrefixCode (buildCode f r) f r := by
  obtain hone | hlen := Nat.eq_or_lt_of_le (List.length_pos_iff.2 hne)
  · obtain ⟨e, rfl⟩ := List.length_eq_one_iff.1 hone.symm
    exact isPrefixCode_singleton e (by omega)
  · obtain ⟨root, hmerges, -⟩ := mergesTakeTheSmallest f r _ hf hlen hr (.refl _)
    rw [buildCode_of_mergesTo hf hlen hr hmerges]
    exact (isPrefixTree_of_mergesTo hlen hmerges).isPrefixCode hr

/-! ### Reading a code stream (43_huffman.md rules R174, R175) -/

theorem mem_of_symbolOf {code : Code} {buf : Text} {c : Character} (h : symbolOf code buf = some c) :
    (c, buf) ∈ code := by
  induction code with
  | nil => cases h
  | cons e code ih =>
    rw [symbolOf] at h
    split at h
    · next hw =>
      cases h
      exact hw ▸ List.mem_cons_self
    · exact List.mem_cons_of_mem _ (ih h)

theorem symbolOf_ne_none {code : Code} {buf : Text} {c : Character} (h : (c, buf) ∈ code) :
    symbolOf code buf ≠ none := by
  induction code with
  | nil => cases h
  | cons e code ih =>
    rw [symbolOf]
    split
    · nofun
    · next hw => exact ih ((List.mem_cons.1 h).resolve_left fun he => hw (he ▸ rfl))

section Stream

variable {f : FreqTable} {r : Nat} {code : Code}

theorem nodup_symbols (hcode : IsPrefixCode code f r) (hf : f.wf) : (code.map Prod.fst).Nodup :=
  hcode.symbols.nodup_iff.2 (FreqTable.nodup_keys hf)

theorem codeWord_mem_of_has (hcode : IsPrefixCode code f r) {c : Character} (hc : f.has c = true) :
    (c, codeWord code c) ∈ code :=
  codeWord_mem (hcode.symbols.symm.subset (FreqTable.has_iff.1 hc))

/-- A code word stands for its own symbol. -/
theorem symbolOf_of_mem (hcode : IsPrefixCode code f r) {c : Character} {w : Text} (h : (c, w) ∈ code) :
    symbolOf code w = some c := by
  obtain ⟨d, hd⟩ := Option.ne_none_iff_exists'.1 (symbolOf_ne_none h)
  cases hcode.prefix_free _ (mem_of_symbolOf hd) _ h (List.prefix_refl w)
  exact hd

/-- The beginning of a code word, without all of it, stands for no symbol. -/
theorem symbolOf_of_prefix (hcode : IsPrefixCode code f r) {c : Character} {buf rest : Text}
    (h : (c, buf ++ rest) ∈ code) (hrest : rest ≠ []) : symbolOf code buf = none := by
  cases hsymbol : symbolOf code buf with
  | none => rfl
  | some d =>
    have heq := hcode.prefix_free _ (mem_of_symbolOf hsymbol) _ h (List.prefix_append buf rest)
    exact absurd (List.self_eq_append_right.1 (congrArg Prod.snd heq)) hrest

/-- A stream that goes on with what is left of a code word gives its symbol, then the rest. -/
theorem matchStream_codeWord (hcode : IsPrefixCode code f r) {c : Character} {buf w ds out : Text} (hw : w ≠ [])
    (h : (c, buf ++ w) ∈ code) (hds : matchStream code [] ds = .ok out) :
    matchStream code buf (w ++ ds) = .ok (c :: out) := by
  induction w generalizing buf with
  | nil => exact absurd rfl hw
  | cons d w ih =>
    rw [List.cons_append, matchStream]
    rw [List.append_cons] at h
    obtain rfl | hne := eq_or_ne w []
    · rw [List.append_nil] at h
      rw [symbolOf_of_mem hcode h, List.nil_append, hds]
    · rw [symbolOf_of_prefix hcode h hne]
      exact ih hne h

theorem matchStream_flatMap (hcode : IsPrefixCode code f r) {xs : Text} (hxs : ∀ x ∈ xs, f.has x = true) :
    matchStream code [] (xs.flatMap (codeWord code)) = .ok xs := by
  induction xs with
  | nil => rfl
  | cons x xs ih =>
    obtain ⟨hx, hxs⟩ := List.forall_mem_cons.1 hxs
    have hmem := codeWord_mem_of_has hcode hx
    exact matchStream_codeWord hcode (hcode.nonempty _ hmem) hmem (ih hxs)

/-- A stream that is accepted goes on from `buf` with the code words of the symbols read. -/
theorem eq_flatMap_of_matchStream (hcode : IsPrefixCode code f r) (hf : f.wf) {buf ds out : Text}
    (h : matchStream code buf ds = .ok out) :
    (∀ x ∈ out, f.has x = true) ∧ buf ++ ds = out.flatMap (codeWord code) := by
  induction ds generalizing buf out with
  | nil =>
    rw [matchStream] at h
    split at h
    · next hbuf =>
      cases h
      exact ⟨nofun, by rw [hbuf]; rfl⟩
    · cases h
  | cons d ds ih =>
    rw [matchStream] at h
    split at h
    · rw [List.append_cons]
      exact ih h
    · next c hsymbol =>
      split at h
      · cases h
      · next rest hrest =>
        cases h
        obtain ⟨hhas, hds⟩ := ih hrest
        have hmem := mem_of_symbolOf hsymbol
        have hc : f.has c = true := FreqTable.has_iff.2 (hcode.symbols.subset (List.mem_map_of_mem hmem))
        refine ⟨List.forall_mem_cons.2 ⟨hc, hhas⟩, ?_⟩
        rw [List.flatMap_cons, codeWord_of_mem (nodup_symbols hcode hf) hmem, ← hds, List.append_cons,
          List.nil_append]

theorem OnlyFormatError.ite {α : Type} {p : Prop} [Decidable p] {x y : Except Raise α} (hx : OnlyFormatError x)
    (hy : OnlyFormatError y) : OnlyFormatError (if p then x else y) := by
  split
  · exact hx
  · exact hy

theorem matchStream_onlyFormatError (code : Code) (buf ds : Text) : OnlyFormatError (matchStream code buf ds) := by
  induction ds generalizing buf with
  | nil =>
    rw [matchStream]
    exact (onlyFormatError_ok _).ite onlyFormatError_formatError
  | cons d ds ih =>
    rw [matchStream]
    split
    · exact ih _
    · split
      · next k hk =>
        obtain rfl := ih [] k hk
        exact onlyFormatError_formatError
      · exact onlyFormatError_ok _

end Stream

/-- Settles O45: both texts are what the one code stream is read as. -/
theorem codeIsPrefixFree : Obligations.CodeIsPrefixFree := by
  intro f r hf hne hr _
  have hcode := isPrefixCode_buildCode hf hne hr
  refine ⟨hcode, fun xs ys hxs hys heq => ?_⟩
  have hread := matchStream_flatMap hcode hxs
  rw [heq, matchStream_flatMap hcode hys] at hread
  exact (Except.ok.inj hread).symm

/-! ### Huffman texts (43_huffman.md rules R171, R174 to R177) -/

/-- A code stream of radix at most 10 is digits, so the first opening brace begins what follows it
(30_encoding.md rule R82). -/
theorem ne_lbrace_of_mem_stream {f : FreqTable} {r : Nat} (hr2 : 2 ≤ r) (hr10 : r ≤ 10) (xs : Text) :
    ∀ d ∈ xs.flatMap (codeWord (buildCode f r)), (d != lbrace) = true := by
  refine forall_mem_flatMap fun x _ d hd => ?_
  have hdigit : isDigit d = true :=
    isDigit_of_mem_codeWord (buildCode_chars (P := fun _ => True) hr2 hr10 fun _ _ => trivial) hd
  rw [bne_iff_ne]
  rintro rfl
  cases hdigit

theorem takeWhile_append_dictText {stream : Text} (h : ∀ d ∈ stream, (d != lbrace) = true)
    (es : List (Character × Text)) : (stream ++ dictText es).takeWhile (· != lbrace) = stream := by
  rw [List.takeWhile_append_of_pos h, dictText_eq, List.takeWhile_cons_of_neg (by simp), List.append_nil]

theorem dropWhile_append_dictText {stream : Text} (h : ∀ d ∈ stream, (d != lbrace) = true)
    (es : List (Character × Text)) : (stream ++ dictText es).dropWhile (· != lbrace) = dictText es := by
  rw [List.dropWhile_append_of_pos h, dictText_eq, List.dropWhile_cons_of_neg (by simp)]

/-- The table of a dictionary has a code. -/
theorem isPrefixCode_of_dictOf {f : FreqTable} {es : List (Character × Text)} (h : DictOf f es) {r : Nat}
    (hr : 2 ≤ r) : f.wf ∧ IsPrefixCode (buildCode f r) f r := by
  obtain ⟨hne, hf, -, hperm⟩ := h
  refine ⟨hf, isPrefixCode_buildCode hf ?_ hr⟩
  rintro rfl
  exact hne (List.map_eq_nil_iff.1 hperm.eq_nil)

/-- Once the dictionary and the stream are read, `huff_decode` gives the symbols, unless a count or the sum is above
`NUM_MAX`. -/
theorem huffDecode_of_grammar {r : Nat} (hr2 : 2 ≤ r) (hr10 : r ≤ 10) {f : FreqTable}
    {es : List (Character × Text)} {xs enc : Text} (h : HuffGrammar r f es xs enc) (numMax : Option Nat) :
    huffDecode numMax r enc = if countsWithin numMax f then .ok xs else .error .capacityError := by
  obtain ⟨hdict, hxs, rfl⟩ := h
  have hstream := ne_lbrace_of_mem_stream (f := f) hr2 hr10 xs
  have hparse : parseDict (dictText es) = .ok f := parseDict_ok_iff.2 ⟨es, rfl, hdict⟩
  obtain ⟨-, hcode⟩ := isPrefixCode_of_dictOf hdict hr2
  have hmatch := matchStream_flatMap hcode hxs
  rw [huffDecode, takeWhile_append_dictText hstream, dropWhile_append_dictText hstream, hparse]
  simp only [bind, Except.bind, hmatch]

/-- A text whose dictionary and stream are read is a Huffman text. -/
theorem huffGrammar_of_read {r : Nat} (hr : 2 ≤ r) {f : FreqTable} {xs enc : Text}
    (hparse : parseDict (enc.dropWhile (· != lbrace)) = .ok f)
    (hmatch : matchStream (buildCode f r) [] (enc.takeWhile (· != lbrace)) = .ok xs) :
    ∃ es, HuffGrammar r f es xs enc := by
  obtain ⟨es, hes, hdict⟩ := parseDict_ok_iff.1 hparse
  obtain ⟨hf, hcode⟩ := isPrefixCode_of_dictOf hdict hr
  obtain ⟨hxs, hstream⟩ := eq_flatMap_of_matchStream hcode hf hmatch
  refine ⟨es, hdict, hxs, ?_⟩
  rw [← hstream, ← hes, List.nil_append, List.takeWhile_append_dropWhile]

theorem parseEntries_onlyFormatError (fuel : Nat) (f : FreqTable) (t : Text) :
    OnlyFormatError (parseEntries fuel f t) := by
  induction fuel generalizing f t with
  | zero => exact onlyFormatError_formatError
  | succ fuel ih =>
    rw [parseEntries]
    split
    · next k hk =>
      rw [readEntry_eq] at hk
      obtain rfl := readCountItem_onlyFormatError _ _ _ t k hk
      exact onlyFormatError_formatError
    · refine onlyFormatError_formatError.ite (onlyFormatError_formatError.ite ?_)
      split
      · exact onlyFormatError_formatError
      · exact ((onlyFormatError_ok _).ite onlyFormatError_formatError).ite (ih _ _)

theorem parseDict_onlyFormatError (d : Text) : OnlyFormatError (parseDict d) :=
  (expect_onlyFormatError lbrace d).bind fun _ => parseEntries_onlyFormatError _ _ _

theorem huffDecode_of_no_grammar {r : Nat} (hr : 2 ≤ r) {enc : Text} (h : ¬ ∃ f es xs, HuffGrammar r f es xs enc)
    (numMax : Option Nat) : huffDecode numMax r enc = .error .formatError := by
  cases hparse : parseDict (enc.dropWhile (· != lbrace)) with
  | error k =>
    obtain rfl := parseDict_onlyFormatError _ k hparse
    rw [huffDecode, hparse]
    rfl
  | ok f =>
    cases hmatch : matchStream (buildCode f r) [] (enc.takeWhile (· != lbrace)) with
    | error k =>
      obtain rfl := matchStream_onlyFormatError _ _ _ k hmatch
      simp [huffDecode, hparse, hmatch, bind, Except.bind]
    | ok xs =>
      obtain ⟨es, hgrammar⟩ := huffGrammar_of_read hr hparse hmatch
      exact absurd ⟨f, es, xs, hgrammar⟩ h

theorem countsWithin_iff {numMax : Option Nat} {f : FreqTable} : countsWithin numMax f = true ↔
    (∀ e ∈ f, withinCap numMax e.2 = true) ∧ withinCap numMax f.total = true := by
  rw [countsWithin, Bool.and_eq_true, List.all_eq_true]

/-- The counts of a text and their sum are within a capacity as soon as its length is. -/
theorem countsWithin_freq {numMax : Option Nat} {x : Text} (h : withinCap numMax x.length = true) :
    countsWithin numMax (freq x) = true := by
  rw [← FreqTable.total_freq] at h
  exact countsWithin_iff.2
    ⟨fun e he => withinCap_of_le (List.single_le_sum (fun _ _ => Nat.zero_le _) _ (List.mem_map_of_mem he)) h, h⟩

theorem huffEncode_ok_iff {r : Nat} {x e : Text} : huffEncode r x = .ok e ↔
    x ≠ [] ∧ e = x.flatMap (codeWord (buildCode (freq x) r)) ++ ser (freq x) := by
  rw [huffEncode]
  split
  · next hx => simp [hx]
  · next hx => simp [hx, eq_comm]

/-- What `huff_encode` writes is a text of the grammar, with the dictionary of its own table. -/
theorem huffGrammar_of_huffEncode {r : Nat} {x e : Text} (h : huffEncode r x = .ok e) :
    HuffGrammar r (freq x) ((freq x).map fun e => (e.1, dec e.2)) x e := by
  obtain ⟨hx, rfl⟩ := huffEncode_ok_iff.1 h
  exact ⟨dictOf_dec (FreqTable.wf_freq x) (freq_ne_nil hx), fun _ => FreqTable.has_freq.2, by rw [ser_eq_dictText]⟩

/-- Decoding is possible as soon as the length of the text is within `NUM_MAX`. -/
theorem huffDecode_of_huffEncode {r : Nat} (hr2 : 2 ≤ r) (hr10 : r ≤ 10) {x e : Text} (h : huffEncode r x = .ok e)
    {numMax : Option Nat} (hcap : withinCap numMax x.length = true) : huffDecode numMax r e = .ok x := by
  rw [huffDecode_of_grammar hr2 hr10 (huffGrammar_of_huffEncode h), if_pos (countsWithin_freq hcap)]

/-- Settles O48: on the machine the counts are within `NUM_MAX`, since the input text is within `MAX_IN`. -/
theorem huffRoundTrip : Obligations.HuffRoundTrip := by
  refine ⟨fun x r hx hr2 hr10 => ?functions, fun s t u radix hb hin hexec hok hmoved hout => ?machine⟩
  case functions =>
    have henc := (huffEncode_ok_iff (r := r)).2 ⟨hx, rfl⟩
    exact ⟨_, henc, huffDecode_of_huffEncode hr2 hr10 henc rfl⟩
  case machine =>
    refine roundTrip_of_familyResult hb hexec hok hmoved hout fun hbuild henc => ?_
    rw [familyResult] at henc
    split at henc
    · next hlegal =>
      obtain ⟨hr2, hr10⟩ := (radixLegal_iff hb radix).1 hlegal
      rw [familyResult, hbuild, if_pos hlegal]
      exact huffDecode_of_huffEncode hr2 hr10 henc (withinCap_numMax hb (by rwa [inputText_length]))
    · cases henc

/-! ### HUFF_ENC and HUFF_DEC -/

theorem exec_huffEnc {s : State} (hb : s.build.ok = true) {radix : BitVec 4} (hr2 : 2 ≤ radix.toNat)
    (hr10 : radix.toNat ≤ 10) : exec (.huffEnc radix) s =
      .next (complete .encode (inputText s) (huffEncode radix.toNat (inputText s)) s) :=
  congrArg Host.Outcome.next (if_pos ((radixLegal_iff hb radix).2 ⟨hr2, hr10⟩))

theorem exec_huffDec {s : State} (hb : s.build.ok = true) {radix : BitVec 4} (hr2 : 2 ≤ radix.toNat)
    (hr10 : radix.toNat ≤ 10) : exec (.huffDec radix) s =
      .next (complete .decode (inputText s) (huffDecode s.build.numMax radix.toNat (inputText s)) s) :=
  congrArg Host.Outcome.next (if_pos ((radixLegal_iff hb radix).2 ⟨hr2, hr10⟩))

/-- A text written symbol by symbol is as long as the symbols' counts and pieces say. -/
theorem length_flatMap_eq_sum_freq (x : Text) (write : Character → Text) :
    (x.flatMap write).length = ((freq x).map fun e => e.2 * (write e.1).length).sum := by
  have hsymbols : ((freq x).map Prod.fst).toFinset = x.toFinset := by
    ext c
    rw [List.mem_toFinset, List.mem_toFinset, ← FreqTable.has_iff, FreqTable.has_freq]
  have hcount : ∀ e ∈ freq x, e.2 * (write e.1).length = x.count e.1 * (write e.1).length := fun e he => by
    rw [← FreqTable.count_freq, FreqTable.count_of_mem (FreqTable.wf_freq x) he]
  calc (x.flatMap write).length = (x.map fun c => (write c).length).sum := List.length_flatMap
    _ = ∑ c ∈ x.toFinset, x.count c * (write c).length := Finset.sum_list_map_count x _
    _ = (((freq x).map Prod.fst).map fun c => x.count c * (write c).length).sum := by
      rw [← hsymbols, List.sum_toFinset _ (FreqTable.nodup_keys (FreqTable.wf_freq x))]
    _ = ((freq x).map fun e => e.2 * (write e.1).length).sum := by
      rw [List.map_map, List.map_congr_left hcount]
      rfl

/-- Settles O46: every symbol of the text has a code word of digits in the code of the text's own table. -/
theorem huffEncWritesStreamAndDictionary : Obligations.HuffEncWritesStreamAndDictionary := by
  intro s radix hb hr2 hr10 hne
  have hcode := isPrefixCode_buildCode (FreqTable.wf_freq (inputText s)) (freq_ne_nil hne) hr2
  have hword : ∀ c ∈ inputText s, (c, codeWord _ c) ∈ buildCode (freq (inputText s)) radix.toNat :=
    fun c hc => codeWord_mem_of_has hcode (FreqTable.has_freq.2 hc)
  have hexec := exec_huffEnc hb hr2 hr10
  rw [huffEncode_ok_iff.2 ⟨hne, rfl⟩] at hexec
  refine ⟨?nonempty, ?digits, length_flatMap_eq_sum_freq _ _, ?dictionary, completion_by_maxOut hexec⟩
  case nonempty =>
    obtain ⟨c, hc⟩ := List.exists_mem_of_ne_nil _ hne
    exact fun hnil => hcode.nonempty _ (hword c hc) (List.flatMap_eq_nil_iff.1 hnil c hc)
  case digits => exact forall_mem_flatMap fun c hc => hcode.digits _ (hword c hc)
  case dictionary =>
    rw [ser_eq_dictText]
    exact dropWhile_append_dictText (ne_lbrace_of_mem_stream hr2 hr10 _) _

/-- Settles O47, by the result of `huff_decode` on the texts of the grammar and on all others. -/
theorem huffDecAcceptsTheGrammar : Obligations.HuffDecAcceptsTheGrammar := by
  intro s radix hb hr2 hr10
  have hexec := exec_huffDec hb hr2 hr10
  refine ⟨fun f es xs hgrammar => ?legal, fun hnone => ?malformed⟩
  case legal =>
    rw [huffDecode_of_grammar hr2 hr10 hgrammar] at hexec
    split at hexec
    · next hcounts =>
      obtain ⟨hfits, hoverflows⟩ := completion_by_maxOut hexec
      obtain ⟨hcount, htotal⟩ := countsWithin_iff.1 hcounts
      refine ⟨fun ⟨_, _, hfit⟩ => hfits hfit, ?_⟩
      rintro (⟨e, he, hover⟩ | hover | hover)
      · cases (hcount e he).symm.trans hover
      · cases htotal.symm.trans hover
      · exact hoverflows hover
    · next hcounts =>
      exact ⟨fun ⟨hcount, htotal, _⟩ => absurd (countsWithin_iff.2 ⟨hcount, htotal⟩) hcounts,
        fun _ => ⟨_, hexec, rfl⟩⟩
  case malformed =>
    rw [huffDecode_of_no_grammar hr2 hnone] at hexec
    exact ⟨_, hexec, rfl⟩

end Sys2Proof.Machine

namespace Sys2Proof.Machine

/-! ### The sorted matrix of a block (44_bwt.md rules R192, R193) -/

/-- A row as the sorted matrix compares it: its content, then its offset. -/
def rowRank (t : Text) (i : Nat) : Text ×ₗ ℕ := toLex (rot t i, i)

theorem rowLe_iff {t : Text} {i j : Nat} : rowLe t i j = true ↔ rowRank t i ≤ rowRank t j := by
  simp [rowLe, rowRank, Prod.Lex.toLex_le_toLex]

theorem rowRank_lt_iff {t : Text} {i j : Nat} :
    rowRank t i < rowRank t j ↔ rot t i < rot t j ∨ (rot t i = rot t j ∧ i < j) := by
  simp [rowRank, Prod.Lex.toLex_lt_toLex]

/-- The order of the rows as the library's sorting takes it: ranks compared. -/
abbrev RowLe (t : Text) : Nat → Nat → Prop := rowRank t ⁻¹'o (· ≤ ·)

theorem insertRow_eq_orderedInsert (t : Text) (i : Nat) (rows : List Nat) :
    insertRow t i rows = rows.orderedInsert (RowLe t) i := by
  induction rows with
  | nil => rfl
  | cons j rows ih => simp only [insertRow, rowLe_iff, ih, List.orderedInsert, Order.Preimage]

theorem sortRows_eq_insertionSort (t : Text) (rows : List Nat) :
    sortRows t rows = rows.insertionSort (RowLe t) := by
  induction rows with
  | nil => rfl
  | cons i rows ih => rw [sortRows, ih, insertRow_eq_orderedInsert, List.insertionSort_cons]

theorem rowOrder_perm (t : Text) : (rowOrder t).Perm (List.range t.length) := by
  rw [rowOrder, sortRows_eq_insertionSort]
  exact List.perm_insertionSort (RowLe t) _

theorem length_rowOrder (t : Text) : (rowOrder t).length = t.length := by
  rw [(rowOrder_perm t).length_eq, List.length_range]

theorem lt_of_mem_rowOrder {t : Text} {o : Nat} (h : o ∈ rowOrder t) : o < t.length :=
  List.mem_range.1 ((rowOrder_perm t).subset h)

/-- The offset is part of the rank, so no two rows have the same rank. -/
theorem pairwise_rowOrder (t : Text) : (rowOrder t).Pairwise fun i j => rowRank t i < rowRank t j := by
  have hle : (rowOrder t).Pairwise (RowLe t) := by
    rw [rowOrder, sortRows_eq_insertionSort]
    exact List.pairwise_insertionSort (RowLe t) _
  have hne : (rowOrder t).Pairwise (· ≠ ·) := (rowOrder_perm t).nodup_iff.2 List.nodup_range
  refine hle.imp₂ (fun i j hij hne => lt_of_le_of_ne hij fun heq => hne ?_) hne
  exact congrArg (fun rank => (ofLex rank).2) heq

theorem rot_zero (t : Text) : rot t 0 = t := List.append_nil t

theorem rot_eq_rotate {t : Text} {o : Nat} (h : o ≤ t.length) : rot t o = t.rotate o :=
  (List.rotate_eq_drop_append_take h).symm

theorem length_rot {t : Text} {o : Nat} (h : o ≤ t.length) : (rot t o).length = t.length := by
  rw [rot_eq_rotate h, List.length_rotate]

/-- The offset of the row that is row `o` turned right by one place. -/
def prevOffset (t : Text) (o : Nat) : Nat := (o + t.length - 1) % t.length

/-- The last character of row `o`, the first of the row turned right (44_bwt.md rule R193). -/
def lastOf (t : Text) (o : Nat) : Character := t.getD (prevOffset t o) 0

theorem bwtBlock_column (t : Text) : (bwtBlock t).1 = (rowOrder t).map (lastOf t) := rfl

theorem bwtBlock_index (t : Text) : (bwtBlock t).2 = (rowOrder t).idxOf 0 := rfl

theorem prevOffset_lt {t : Text} {o : Nat} (ho : o < t.length) : prevOffset t o < t.length :=
  Nat.mod_lt _ (Nat.zero_lt_of_lt ho)

theorem prevOffset_add_one_mod {t : Text} {o : Nat} (ho : o < t.length) :
    (prevOffset t o + 1) % t.length = o := by
  rw [prevOffset, Nat.mod_add_mod, show o + t.length - 1 + 1 = o + t.length by omega, Nat.add_mod_right,
    Nat.mod_eq_of_lt ho]

/-- Turning row `o` right moves its last character to the front. -/
theorem rot_prevOffset {t : Text} {o : Nat} (ho : o < t.length) :
    ∃ w, rot t o = w ++ [lastOf t o] ∧ rot t (prevOffset t o) = lastOf t o :: w := by
  have hp := prevOffset_lt ho
  have hcons : rot t (prevOffset t o) =
      lastOf t o :: (t.drop (prevOffset t o + 1) ++ t.take (prevOffset t o)) := by
    rw [rot, List.drop_eq_getElem_cons hp, lastOf, List.getD_eq_getElem _ _ hp, List.cons_append]
  refine ⟨_, ?_, hcons⟩
  calc rot t o = t.rotate (prevOffset t o + 1) := by
        rw [← List.rotate_mod, prevOffset_add_one_mod ho, rot_eq_rotate ho.le]
    _ = (rot t (prevOffset t o)).rotate 1 := by rw [rot_eq_rotate hp.le, List.rotate_rotate]
    _ = _ := by rw [hcons, List.rotate_cons_succ, List.rotate_zero]

/-- Settles O49, by the ranks of the rows. -/
theorem sortedMatrix : Obligations.SortedMatrix := by
  refine fun t => ⟨rowOrder_perm t, (pairwise_rowOrder t).imp rowRank_lt_iff.1, fun k o hk => ?_⟩
  obtain ⟨w, hrow, -⟩ := rot_prevOffset (lt_of_mem_rowOrder (List.mem_of_getElem? hk))
  rw [bwtBlock_column, List.getElem?_map, hk, hrow, List.getLast?_concat, Option.map_some]

/-! ### The transform of a block (44_bwt.md rule R194) -/

theorem map_getD_range (t : Text) : (List.range t.length).map (t.getD · 0) = t := by
  refine List.ext_getElem (by simp) fun k _ hk => ?_
  simp [hk]

/-- Turning every row right gives every row. -/
theorem map_prevOffset_perm (t : Text) : ((rowOrder t).map (prevOffset t)).Perm (rowOrder t) := by
  have hrange : (List.range t.length).map (prevOffset t) = (List.range t.length).rotate (t.length - 1) := by
    refine List.ext_getElem (by simp) fun k hk _ => ?_
    have hpos : 1 ≤ t.length := by
      rw [List.length_map, List.length_range] at hk
      omega
    simp [List.getElem_rotate, prevOffset, Nat.add_sub_assoc hpos]
  calc (rowOrder t).map (prevOffset t)
    _ |>.Perm ((List.range t.length).map (prevOffset t)) := (rowOrder_perm t).map _
    _ |>.Perm (List.range t.length) := hrange ▸ List.rotate_perm _ _
    _ |>.Perm (rowOrder t) := (rowOrder_perm t).symm

theorem bwtBlock_column_perm (t : Text) : (bwtBlock t).1.Perm t := by
  have hturned : (bwtBlock t).1 = ((rowOrder t).map (prevOffset t)).map (t.getD · 0) := by
    rw [bwtBlock_column, List.map_map]
    rfl
  have hrows : (bwtBlock t).1.Perm ((List.range t.length).map (t.getD · 0)) :=
    hturned ▸ ((map_prevOffset_perm t).trans (rowOrder_perm t)).map _
  rwa [map_getD_range] at hrows

theorem zero_mem_rowOrder {t : Text} (ht : t ≠ []) : 0 ∈ rowOrder t :=
  (rowOrder_perm t).symm.subset (List.mem_range.2 (List.length_pos_of_ne_nil ht))

theorem bwtBlock_index_lt {t : Text} (ht : t ≠ []) : (bwtBlock t).2 < t.length := by
  rw [bwtBlock_index, ← length_rowOrder]
  exact List.idxOf_lt_length_iff.2 (zero_mem_rowOrder ht)

/-- In a strictly ascending list as many elements are smaller than an element as stand before it. -/
theorem idxOf_eq_countP {ι β : Type} [DecidableEq ι] [LinearOrder β] {rank : ι → β} {l : List ι}
    (hl : l.Pairwise fun i j => rank i < rank j) {a : ι} (ha : a ∈ l) :
    l.idxOf a = l.countP fun i => decide (rank i < rank a) := by
  induction l with
  | nil => cases ha
  | cons b l ih =>
    obtain ⟨hb, hl⟩ := List.pairwise_cons.1 hl
    obtain rfl | hne := eq_or_ne a b
    · have hnone : l.countP (fun i => decide (rank i < rank a)) = 0 :=
        List.countP_eq_zero.2 fun i hi => by simpa using (hb i hi).le
      rw [List.idxOf_cons_self, List.countP_cons_of_neg (by simp), hnone]
    · have ha := (List.mem_cons.1 ha).resolve_left hne
      rw [List.idxOf_cons_ne _ hne.symm, List.countP_cons_of_pos (by simpa using hb a ha), ih hl ha]

/-- No offset is below that of the block itself, so the rows before it are those strictly smaller. -/
theorem bwtBlock_index_eq_countP {t : Text} (ht : t ≠ []) :
    (bwtBlock t).2 = (List.range t.length).countP fun i => decide (rot t i < t) := by
  rw [bwtBlock_index, idxOf_eq_countP (pairwise_rowOrder t) (zero_mem_rowOrder ht), (rowOrder_perm t).countP_eq]
  simp [rowRank_lt_iff, rot_zero]

/-- Every rotation of a block of equal characters is the block (44_bwt.md rule R194). -/
theorem bwtBlock_of_forall_eq {t : Text} (ht : t ≠ []) {c : Character} (hc : ∀ d ∈ t, d = c) :
    bwtBlock t = (t, 0) := by
  have hrep : t = List.replicate t.length c := List.eq_replicate_of_mem hc
  have hrot : ∀ i < t.length, rot t i = t := fun i hi => by
    rw [rot_eq_rotate hi.le, hrep, List.rotate_replicate]
  refine Prod.ext ?column ?index
  case column =>
    have hperm := bwtBlock_column_perm t
    rw [hrep, List.perm_replicate, ← hrep] at hperm
    exact hperm
  case index =>
    rw [bwtBlock_index_eq_countP ht, List.countP_eq_zero]
    intro i hi
    simp [hrot i (List.mem_range.1 hi)]

/-- Settles O50: the index is the place of offset 0, whose row is the block. -/
theorem blockTransform : Obligations.BlockTransform := fun t ht =>
  ⟨bwtBlock_column_perm t, bwtBlock_index_lt ht, bwtBlock_index_eq_countP ht, fun _ => bwtBlock_of_forall_eq ht⟩

/-! ### The step of the inverse transform (44_bwt.md rule R198) -/

/-- A predicate that holds of more elements of a list, one of them at least, counts more. -/
theorem countP_lt_countP {ι : Type} {p q : ι → Bool} {l : List ι} (hpq : ∀ i ∈ l, p i = true → q i = true)
    {a : ι} (ha : a ∈ l) (hp : ¬ p a = true) (hq : q a = true) : l.countP p < l.countP q := by
  obtain ⟨s, u, rfl⟩ := List.append_of_mem ha
  have hs : s.countP p ≤ s.countP q := List.countP_mono_left fun i hi => hpq i (by simp [hi])
  have hu : u.countP p ≤ u.countP q := List.countP_mono_left fun i hi => hpq i (by simp [hi])
  rw [List.countP_append, List.countP_append, List.countP_cons_of_neg hp, List.countP_cons_of_pos hq]
  omega

/-- A row of a column: its character, then its place. -/
def columnKey (col : Text) (i : Nat) : ℕ ×ₗ ℕ := toLex (col.getD i 0, i)

theorem columnKey_lt_iff {col : Text} {i j : Nat} : columnKey col i < columnKey col j ↔
    col.getD i 0 < col.getD j 0 ∨ (col.getD i 0 = col.getD j 0 ∧ i < j) := by
  simp [columnKey, Prod.Lex.toLex_lt_toLex]

theorem columnKey_le_iff {col : Text} {i j : Nat} : columnKey col i ≤ columnKey col j ↔
    col.getD i 0 < col.getD j 0 ∨ (col.getD i 0 = col.getD j 0 ∧ i ≤ j) := by
  simp [columnKey, Prod.Lex.toLex_le_toLex]

theorem lessCount_eq_countP (col : Text) (c : Character) :
    lessCount col c = (List.range col.length).countP fun j => decide (col.getD j 0 < c) := by
  conv_lhs => rw [lessCount, ← map_getD_range col, List.countP_map]
  rfl

theorem count_take_eq_countP {col : Text} {i : Nat} (hi : i ≤ col.length) (c : Character) :
    (col.take i).count c = (List.range col.length).countP fun j => decide (col.getD j 0 = c ∧ j < i) := by
  obtain ⟨k, hk⟩ := Nat.exists_eq_add_of_le hi
  conv_lhs =>
    rw [← map_getD_range col, ← List.map_take, List.take_range, Nat.min_eq_left hi, List.count, List.countP_map]
  have hbelow : (List.range i).countP (fun j => decide (col.getD j 0 = c ∧ j < i)) =
      (List.range i).countP ((· == c) ∘ (col.getD · 0)) :=
    List.countP_congr fun j hj => by simp [List.mem_range.1 hj]
  have habove : ((List.range k).map (i + ·)).countP (fun j => decide (col.getD j 0 = c ∧ j < i)) = 0 :=
    List.countP_eq_zero.2 (List.forall_mem_map.2 fun j _ => by simp)
  rw [hk, List.range_add, List.countP_append, hbelow, habove, Nat.add_zero]

/-- The row that a row leads to is the number of rows with a smaller key. -/
theorem nextRow_eq_countP {col : Text} {i : Nat} (hi : i ≤ col.length) : nextRow col i =
    (List.range col.length).countP fun j => decide (columnKey col j < columnKey col i) := by
  rw [nextRow, lessCount_eq_countP, count_take_eq_countP hi]
  conv_rhs => rw [List.countP_eq_countP_filter_add _ _ fun j => decide (col.getD j 0 < col.getD i 0)]
  rw [List.countP_filter, List.countP_filter]
  congr 1
  · refine List.countP_congr fun j _ => ?_
    simp only [columnKey_lt_iff, Bool.and_eq_true, decide_eq_true_eq]
    exact ⟨fun h => ⟨.inl h, h⟩, fun h => h.2⟩
  · refine List.countP_congr fun j _ => ?_
    simp only [columnKey_lt_iff, Bool.and_eq_true, decide_eq_true_eq, Bool.not_eq_true',
      decide_eq_false_iff_not]
    exact ⟨fun h => ⟨.inr h, h.1.not_lt⟩, fun h => h.1.resolve_left h.2⟩

theorem nextRow_lt {col : Text} {i : Nat} (hi : i < col.length) : nextRow col i < col.length := by
  have hlt : nextRow col i < (List.range col.length).countP fun _ => true := by
    rw [nextRow_eq_countP hi.le]
    exact countP_lt_countP (fun _ _ _ => rfl) (List.mem_range.2 hi) (by simp) rfl
  simpa using hlt

theorem nextRow_lt_nextRow {col : Text} {i j : Nat} (hi : i < col.length) (hj : j < col.length)
    (h : columnKey col i < columnKey col j) : nextRow col i < nextRow col j := by
  rw [nextRow_eq_countP hi.le, nextRow_eq_countP hj.le]
  refine countP_lt_countP (fun k _ hk => ?_) (List.mem_range.2 hi) (by simp) (by simpa using h)
  simp only [decide_eq_true_eq] at hk ⊢
  exact hk.trans h

theorem nextRow_injective {col : Text} {i j : Nat} (hi : i < col.length) (hj : j < col.length)
    (h : nextRow col i = nextRow col j) : i = j := by
  obtain hlt | heq | hgt := lt_trichotomy (columnKey col i) (columnKey col j)
  · exact absurd h (nextRow_lt_nextRow hi hj hlt).ne
  · exact congrArg (fun key => (ofLex key).2) heq
  · exact absurd h (nextRow_lt_nextRow hj hi hgt).ne'

/-- Settles O51: the step counts the rows with a smaller key, and the keys of the rows are all different. -/
theorem nextRowPermutes : Obligations.NextRowPermutes := by
  refine fun col => ⟨fun i => nextRow_lt, fun i j => nextRow_injective, fun i j hij hj heq => ?order,
    fun i j a b ha hb hab => ?smaller⟩
  case order =>
    refine nextRow_lt_nextRow (hij.trans hj) hj (columnKey_lt_iff.2 (.inr ⟨?_, hij⟩))
    rw [List.getD_eq_getElem?_getD, List.getD_eq_getElem?_getD, heq]
  case smaller =>
    obtain ⟨hi, -⟩ := List.getElem?_eq_some_iff.1 ha
    obtain ⟨hj, -⟩ := List.getElem?_eq_some_iff.1 hb
    refine nextRow_lt_nextRow hi hj (columnKey_lt_iff.2 (.inl ?_))
    rwa [List.getD_eq_getElem?_getD, List.getD_eq_getElem?_getD, ha, hb]

/-! ### The walk through the sorted matrix (44_bwt.md rules R199, R200) -/

/-- In an ascending list an element stands at each place from the number of smaller elements on, below the number of
elements not larger. -/
theorem getElem?_of_countP_bounds {α : Type} [LinearOrder α] {l : List α} (hl : l.Pairwise (· ≤ ·)) {x : α}
    {m : Nat} (hlow : l.countP (fun y => decide (y < x)) ≤ m) (hhigh : m < l.countP fun y => decide (y ≤ x)) :
    l[m]? = some x := by
  induction l generalizing m with
  | nil => simp at hhigh
  | cons a l ih =>
    obtain ⟨ha, hl⟩ := List.pairwise_cons.1 hl
    have hax : a ≤ x := by
      by_contra hgt
      have hnone : (a :: l).countP (fun y => decide (y ≤ x)) = 0 :=
        List.countP_eq_zero.2 (by
          simpa using ⟨not_le.1 hgt, fun y hy => (not_le.1 hgt).trans_le (ha y hy)⟩)
      exact Nat.not_lt_zero m (hnone ▸ hhigh)
    rw [List.countP_cons_of_pos (by simpa using hax)] at hhigh
    cases m with
    | zero =>
      have hnone : ¬ a < x := by
        simpa using List.countP_eq_zero.1 (Nat.le_zero.1 hlow) a List.mem_cons_self
      rw [List.getElem?_cons_zero, hax.antisymm (not_lt.1 hnone)]
    | succ m =>
      refine ih hl ?_ (Nat.lt_of_succ_lt_succ hhigh)
      obtain rfl | hlt := hax.eq_or_lt
      · rw [List.countP_eq_zero.2 (by simpa using ha)]
        exact Nat.zero_le m
      · rw [List.countP_cons_of_pos (by simpa using hlt)] at hlow
        exact Nat.le_of_succ_le_succ hlow

/-- When values are ascending along keys, the value whose key has `m` smaller ones is at place `m` of the sorted
values. -/
theorem getElem?_countP_key {ι α β : Type} [LinearOrder α] [LinearOrder β] {l : List ι} {sorted : List α}
    {key : ι → β} {value : ι → α} (hsorted : sorted.Pairwise (· ≤ ·)) (hperm : (l.map value).Perm sorted)
    (hmono : ∀ a ∈ l, ∀ b ∈ l, key a ≤ key b → value a ≤ value b) {i : ι} (hi : i ∈ l) :
    sorted[l.countP fun j => decide (key j < key i)]? = some (value i) := by
  refine getElem?_of_countP_bounds hsorted ?low ?high
  case low =>
    rw [← hperm.countP_eq, List.countP_map]
    refine List.countP_mono_left fun j hj hlt => ?_
    simp only [Function.comp_apply, decide_eq_true_eq] at hlt ⊢
    exact lt_of_not_ge fun hge => hlt.not_ge (hmono i hi j hj hge)
  case high =>
    rw [← hperm.countP_eq, List.countP_map]
    calc l.countP (fun j => decide (key j < key i))
      _ < l.countP (fun j => decide (key j ≤ key i)) :=
        countP_lt_countP (fun j _ hlt => by simpa using (of_decide_eq_true hlt).le) hi (by simp) (by simp)
      _ ≤ _ := List.countP_mono_left fun j hj hle => by simpa using hmono j hj i hi (of_decide_eq_true hle)

/-- The rows of the sorted matrix. -/
def sortedRows (t : Text) : List Text := (rowOrder t).map (rot t)

theorem pairwise_sortedRows (t : Text) : (sortedRows t).Pairwise (· ≤ ·) := by
  refine List.pairwise_map.2 ((pairwise_rowOrder t).imp fun hlt => ?_)
  obtain hlt | ⟨heq, -⟩ := rowRank_lt_iff.1 hlt
  · exact hlt.le
  · exact heq.le

theorem append_lt_append_of_length_eq {v w : Text} (hlen : v.length = w.length) (h : v < w) (u : Text) :
    v ++ u < w ++ u := by
  induction v generalizing w with
  | nil =>
    obtain rfl := List.eq_nil_of_length_eq_zero hlen.symm
    exact absurd h (lt_irrefl _)
  | cons a v ih =>
    cases w with
    | nil => cases hlen
    | cons b w =>
      obtain hab | ⟨rfl, hvw⟩ := List.cons_lt_cons_iff.1 h
      · exact List.cons_lt_cons_iff.2 (.inl hab)
      · exact List.cons_lt_cons_iff.2 (.inr ⟨rfl, ih (Nat.succ.inj hlen) hvw⟩)

/-- Rows that end in the same character keep their order when they are turned right. -/
theorem cons_le_cons_of_concat_le {v w : Text} {c : Character} (hlen : v.length = w.length)
    (h : v ++ [c] ≤ w ++ [c]) : c :: v ≤ c :: w := by
  refine List.cons_le_cons c (not_lt.1 fun hlt => ?_)
  exact h.not_gt (append_lt_append_of_length_eq hlen.symm hlt [c])

/-- The offset of row `i` of the sorted matrix. -/
def rowOffset (t : Text) (i : Nat) : Nat := (rowOrder t).getD i 0

theorem getElem?_rowOrder {t : Text} {i : Nat} (hi : i < t.length) : (rowOrder t)[i]? = some (rowOffset t i) := by
  rw [← length_rowOrder t] at hi
  rw [rowOffset, List.getD_eq_getElem _ _ hi, List.getElem?_eq_getElem hi]

theorem rowOffset_lt {t : Text} {i : Nat} (hi : i < t.length) : rowOffset t i < t.length :=
  lt_of_mem_rowOrder (List.mem_of_getElem? (getElem?_rowOrder hi))

theorem map_rowOffset_range (t : Text) : (List.range t.length).map (rowOffset t) = rowOrder t :=
  length_rowOrder t ▸ map_getD_range (rowOrder t)

theorem column_getD {t : Text} {i : Nat} (hi : i < t.length) :
    (bwtBlock t).1.getD i 0 = lastOf t (rowOffset t i) := by
  rw [bwtBlock_column, List.getD_eq_getElem?_getD, List.getElem?_map, getElem?_rowOrder hi]
  rfl

theorem getElem?_sortedRows {t : Text} {i : Nat} (hi : i < t.length) :
    (sortedRows t)[i]? = some (rot t (rowOffset t i)) := by
  rw [sortedRows, List.getElem?_map, getElem?_rowOrder hi, Option.map_some]

theorem length_sortedRows (t : Text) : (sortedRows t).length = t.length := by
  rw [sortedRows, List.length_map, length_rowOrder]

theorem rot_rowOffset_le {t : Text} {i j : Nat} (hij : i ≤ j) (hj : j < t.length) :
    rot t (rowOffset t i) ≤ rot t (rowOffset t j) := by
  have hrow {k : Nat} (hk : k < t.length) : (sortedRows t)[k]'(by rwa [length_sortedRows]) = rot t (rowOffset t k) :=
    List.getElem_eq_iff _ |>.2 (getElem?_sortedRows hk)
  rw [← hrow (hij.trans_lt hj), ← hrow hj]
  exact (pairwise_sortedRows t).sortedLE.getElem_le_getElem_of_le hij

/-- Row `i` of the sorted matrix, turned right by one place. -/
def turnedRow (t : Text) (i : Nat) : Text := rot t (prevOffset t (rowOffset t i))

/-- A row without its last character is the row turned right without its first. -/
theorem turnedRow_eq {t : Text} {i : Nat} (hi : i < t.length) :
    ∃ w, w.length + 1 = t.length ∧ rot t (rowOffset t i) = w ++ [(bwtBlock t).1.getD i 0] ∧
      turnedRow t i = (bwtBlock t).1.getD i 0 :: w := by
  obtain ⟨w, hrow, hturned⟩ := rot_prevOffset (rowOffset_lt hi)
  rw [← column_getD hi] at hrow hturned
  refine ⟨w, ?_, hrow, hturned⟩
  rw [← length_rot (rowOffset_lt hi).le, hrow, List.length_append, List.length_singleton]

/-- The rows turned right are in the order of the keys of the column: by their first characters, and rows with the
same one as the rows themselves. -/
theorem turnedRow_le_of_columnKey_le {t : Text} {i j : Nat} (hi : i < t.length) (hj : j < t.length)
    (h : columnKey (bwtBlock t).1 i ≤ columnKey (bwtBlock t).1 j) : turnedRow t i ≤ turnedRow t j := by
  obtain ⟨v, hlenv, hrowv, hturnedv⟩ := turnedRow_eq hi
  obtain ⟨w, hlenw, hroww, hturnedw⟩ := turnedRow_eq hj
  rw [hturnedv, hturnedw]
  obtain hlt | ⟨heq, hij⟩ := columnKey_le_iff.1 h
  · exact (List.cons_lt_cons_iff.2 (.inl hlt)).le
  · have hle := rot_rowOffset_le hij hj
    rw [hrowv, hroww, heq] at hle
    rw [heq]
    exact cons_le_cons_of_concat_le (Nat.succ.inj (hlenv.trans hlenw.symm)) hle

theorem turnedRows_perm (t : Text) : ((List.range t.length).map (turnedRow t)).Perm (sortedRows t) := by
  have hturned : (List.range t.length).map (turnedRow t) =
      (((List.range t.length).map (rowOffset t)).map (prevOffset t)).map (rot t) := by
    simp [turnedRow, Function.comp_def]
  rw [hturned, map_rowOffset_range]
  exact (map_prevOffset_perm t).map (rot t)

/-- A step of the walk goes from a row to the row with that content turned right by one place. -/
theorem sortedRows_nextRow {t w : Text} {c : Character} {i : Nat} (h : (sortedRows t)[i]? = some (w ++ [c])) :
    (bwtBlock t).1.getD i 0 = c ∧ (sortedRows t)[nextRow (bwtBlock t).1 i]? = some (c :: w) := by
  have hi : i < t.length := length_sortedRows t ▸ (List.getElem?_eq_some_iff.1 h).1
  obtain ⟨v, -, hrow, hturned⟩ := turnedRow_eq hi
  rw [getElem?_sortedRows hi, hrow] at h
  obtain ⟨rfl, hc⟩ := List.append_inj' (Option.some.inj h) rfl
  obtain rfl := List.singleton_inj.1 hc
  refine ⟨rfl, ?_⟩
  rw [nextRow_eq_countP (length_bwtBlock_column t ▸ hi.le), length_bwtBlock_column, ← hturned]
  exact getElem?_countP_key (pairwise_sortedRows t) (turnedRows_perm t)
    (fun a ha b hb => turnedRow_le_of_columnKey_le (List.mem_range.1 ha) (List.mem_range.1 hb)) (List.mem_range.2 hi)

/-- The walk from a row reads the row from its end, as many characters as it takes steps. -/
theorem walk_bwtBlock {t w u : Text} {i : Nat} (h : (sortedRows t)[i]? = some (w ++ u)) :
    walk (bwtBlock t).1 u.length i = u.reverse := by
  induction u using List.reverseRecOn generalizing w i with
  | nil => rfl
  | append_singleton u c ih =>
    rw [← List.append_assoc] at h
    obtain ⟨hc, hnext⟩ := sortedRows_nextRow h
    rw [List.length_append, List.length_singleton, walk, hc, ih (w := c :: w) hnext, List.reverse_concat]

theorem sortedRows_index {t : Text} (ht : t ≠ []) : (sortedRows t)[(bwtBlock t).2]? = some t := by
  rw [sortedRows, bwtBlock_index, List.getElem?_map, List.getElem?_idxOf (zero_mem_rowOrder ht), Option.map_some,
    rot_zero]

theorem ibwt_bwtBlock {t : Text} (ht : t ≠ []) : ibwt (bwtBlock t).1 (bwtBlock t).2 = t := by
  rw [ibwt, length_bwtBlock_column, walk_bwtBlock (t := t) (w := []) (sortedRows_index ht), List.reverse_reverse]

theorem length_walk (col : Text) (n i : Nat) : (walk col n i).length = n := by
  induction n generalizing i with
  | zero => rfl
  | succ n ih => rw [walk, List.length_cons, ih]

/-- The walk never leaves the rows of the column. -/
theorem mem_of_mem_walk {col : Text} {i : Nat} (hi : i < col.length) (n : Nat) : ∀ c ∈ walk col n i, c ∈ col := by
  induction n generalizing i with
  | zero => simp [walk]
  | succ n ih =>
    rw [walk, List.getD_eq_getElem _ _ hi]
    exact List.forall_mem_cons.2 ⟨List.getElem_mem hi, ih (nextRow_lt hi)⟩

theorem length_ibwt (col : Text) (idx : Nat) : (ibwt col idx).length = col.length := by
  rw [ibwt, List.length_reverse, length_walk]

/-- Settles O52: from the row of the block the walk reads the block from its end. -/
theorem inverseTransform : Obligations.InverseTransform :=
  ⟨fun _ => ibwt_bwtBlock, fun col idx hidx =>
    ⟨length_ibwt col idx, fun c hc => mem_of_mem_walk hidx col.length c (List.mem_reverse.1 hc)⟩⟩

end Sys2Proof.Machine

namespace Sys2Proof.Machine

/-! ### The blocks of a source text (44_bwt.md rule R191) -/

section Blocks

variable {B : Nat} {t : Text}

theorem flatten_blocks (hB : 1 ≤ B) {fuel : Nat} (hfuel : t.length ≤ fuel) : (blocks B fuel t).flatten = t := by
  induction fuel generalizing t with
  | zero => exact (List.eq_nil_of_length_eq_zero (Nat.le_zero.1 hfuel)).symm
  | succ fuel ih =>
    rw [blocks]
    split
    · next ht => exact ht.symm
    · next ht =>
      have hpos := List.length_pos_of_ne_nil ht
      rw [List.flatten_cons, ih (by rw [List.length_drop]; omega), List.take_append_drop]

theorem length_le_of_mem_blocks {fuel : Nat} : ∀ b ∈ blocks B fuel t, b.length ≤ B := by
  induction fuel generalizing t with
  | zero => simp [blocks]
  | succ fuel ih =>
    rw [blocks]
    split
    · simp
    · exact List.forall_mem_cons.2 ⟨List.length_take_le _ _, ih⟩

/-- A property of all elements but the last, from the first on. -/
theorem forall_mem_dropLast_cons {α : Type} {P : α → Prop} {a : α} {as : List α} :
    (∀ x ∈ (a :: as).dropLast, P x) ↔ (as ≠ [] → P a) ∧ ∀ x ∈ as.dropLast, P x := by
  cases as with
  | nil => simp
  | cons b as => simp

theorem blocks_nil (B fuel : Nat) : blocks B fuel [] = [] := by
  cases fuel <;> rfl

/-- A block before another one is full. -/
theorem length_of_mem_dropLast_blocks {fuel : Nat} : ∀ b ∈ (blocks B fuel t).dropLast, b.length = B := by
  induction fuel generalizing t with
  | zero => simp [blocks]
  | succ fuel ih =>
    rw [blocks]
    split
    · simp
    · refine forall_mem_dropLast_cons.2 ⟨fun hmore => ?_, ih⟩
      rw [List.length_take, Nat.min_eq_left]
      refine le_of_not_ge fun hshort => hmore ?_
      rw [List.drop_eq_nil_of_le hshort, blocks_nil]

end Blocks

/-! ### BWT_ENC (44_bwt.md rule R195) -/

theorem bwtEncode_ok_iff {B : Nat} {x e : Text} : bwtEncode B x = .ok e ↔
    x ≠ [] ∧ e = (blocks B x.length x).flatMap fun b => blockText (bwtBlock b) := by
  rw [bwtEncode]
  split
  · next hx => simp [hx]
  · next hx => simp [hx, eq_comm]

/-- Settles O53: the blocks are those of `blocks`, and the completion is by `MAX_OUT`. -/
theorem bwtEncWritesBlocks : Obligations.BwtEncWritesBlocks := by
  intro s radix hb hne
  have hB := one_le_bwtBlock hb
  have hexec := exec_bwtEnc_next radix fun hstop : inputText s ≠ [] ∧ s.build.bwtBlock = 0 =>
    Nat.one_le_iff_ne_zero.1 hB hstop.2
  rw [bwtEncode_ok_iff.2 ⟨hne, rfl⟩] at hexec
  exact ⟨blocks s.build.bwtBlock (inputText s).length (inputText s), flatten_blocks hB le_rfl,
    fun b hb => ⟨length_pos_of_mem_blocks hB b hb, length_le_of_mem_blocks b hb⟩, length_of_mem_dropLast_blocks,
    completion_by_maxOut hexec⟩

/-! ### Reading one block (44_bwt.md rule R201) -/

/-- A block as it stands in the text, the index as written. -/
def writtenBlock (b : Text × Text) : Text := [lparen] ++ b.1 ++ [comma] ++ b.2 ++ [rparen]

theorem writtenBlock_append (b : Text × Text) (rest : Text) :
    writtenBlock b ++ rest = lparen :: (b.1 ++ comma :: (b.2 ++ rparen :: rest)) := by
  simp [writtenBlock]

/-- A block whose index is a literal that names a row of its column. -/
structure LegalBlock (b : Text × Text) : Prop where
  literal : IsLiteral b.2
  row : val b.2 < b.1.length

/-- What the decoder makes of a block. -/
def blockValue (b : Text × Text) : Text × Nat := (b.1, val b.2)

theorem rowOfColumn_ok_iff {b b' : Text × Nat} {rest rest' : Text} :
    rowOfColumn b rest = .ok (b', rest') ↔ b.2 < b.1.length ∧ b' = b ∧ rest' = rest := by
  rw [rowOfColumn]
  split
  · next hrow => simp [hrow, eq_comm]
  · next hrow => simp [hrow]

/-- Case (a): the comma stands behind a column of `B` characters. -/
theorem readFullBlock_ok_iff {B : Nat} {u rest : Text} {v : Text × Nat} :
    readFullBlock B u = .ok (v, rest) ↔
      ∃ b, LegalBlock b ∧ b.1.length = B ∧ v = blockValue b ∧ u = b.1 ++ comma :: (b.2 ++ rparen :: rest) := by
  simp only [readFullBlock, bind_eq_ok_iff, Prod.exists, expect_ok, rowOfColumn_ok_iff]
  constructor
  · rintro ⟨-, w, hcomma, n, x, hlit, -, y, rfl, hrow, rfl, rfl⟩
    obtain ⟨ds, hds, rfl, rfl⟩ := (literal_ok_iff (by decide)).1 hlit
    have hlen : B < u.length := by
      have := congrArg List.length hcomma
      rw [List.length_drop, List.length_cons] at this
      omega
    exact ⟨u.take B, ds, ⟨hds, hrow⟩, List.length_take_of_le hlen.le, rfl,
      by rw [← hcomma, List.take_append_drop]⟩
  · rintro ⟨col, ds, ⟨hds, hrow⟩, rfl, rfl, rfl⟩
    refine ⟨(), _, List.drop_left, val ds, _, (literal_ok_iff (c := rparen) (by decide)).2 ⟨ds, hds, rfl, rfl⟩, (),
      rest, rfl, ?_⟩
    simpa [blockValue] using hrow

/-- What is read from the end of a last block: the digits before the closing parenthesis, then the comma. -/
theorem eq_of_dropWhile_reverse {u tail : Text} (hlast : u.getLast? = some rparen)
    (hdrop : u.dropLast.reverse.dropWhile isDigit = comma :: tail) :
    u = tail.reverse ++ comma :: ((u.dropLast.reverse.takeWhile isDigit).reverse ++ [rparen]) := by
  have hbody := congrArg List.reverse (List.takeWhile_append_dropWhile (p := isDigit) (l := u.dropLast.reverse))
  rw [hdrop, List.reverse_reverse, List.reverse_append, List.reverse_cons, ← List.append_cons] at hbody
  rw [← List.cons_append, ← List.append_assoc, hbody]
  exact (List.dropLast_append_getLast? _ hlast).symm

/-- Case (b): the block ends the input, and its index is the digits before the last `)`. -/
theorem readLastBlock_ok_iff {B : Nat} {u rest : Text} {v : Text × Nat} :
    readLastBlock B u = .ok (v, rest) ↔ ∃ b, LegalBlock b ∧ b.1.length ≤ B ∧ rest = [] ∧ v = blockValue b ∧
      u = b.1 ++ comma :: (b.2 ++ [rparen]) := by
  constructor
  · intro h
    simp only [readLastBlock] at h
    split_ifs at h with hend hdigits hcomma hlen
    obtain ⟨hrow, rfl, rfl⟩ := rowOfColumn_ok_iff.1 h
    simp only [not_or, not_not, not_lt] at hend hcomma hlen
    obtain ⟨-, hlast⟩ := hend
    obtain ⟨-, hlen⟩ := hlen
    obtain ⟨tail, hdrop⟩ := List.head?_eq_some_iff.1 hcomma
    rw [hdrop, List.tail_cons] at hrow hlen ⊢
    have hliteral : IsLiteral (u.dropLast.reverse.takeWhile isDigit).reverse :=
      ⟨hdigits, fun c hc => List.mem_takeWhile_imp (List.mem_reverse.1 hc)⟩
    exact ⟨(_, _), ⟨hliteral, hrow⟩, hlen, rfl, rfl, eq_of_dropWhile_reverse hlast hdrop⟩
  · rintro ⟨⟨col, ds⟩, ⟨⟨hne, hds⟩, hrow⟩, hlen, rfl, rfl, rfl⟩
    simp only at hne hds hrow hlen
    have hend : col ++ comma :: (ds ++ [rparen]) = (col ++ comma :: ds) ++ [rparen] := by simp
    have hbody : (col ++ comma :: (ds ++ [rparen])).dropLast.reverse = ds.reverse ++ comma :: col.reverse := by
      rw [hend, List.dropLast_concat, List.reverse_append, List.reverse_cons, ← List.append_cons]
    have htake : (ds.reverse ++ comma :: col.reverse).takeWhile isDigit = ds.reverse := by
      rw [List.takeWhile_append_of_pos (by simpa using hds), List.takeWhile_cons_of_neg (by decide), List.append_nil]
    have hdrop : (ds.reverse ++ comma :: col.reverse).dropWhile isDigit = comma :: col.reverse := by
      rw [List.dropWhile_append_of_pos (by simpa using hds), List.dropWhile_cons_of_neg (by decide)]
    have hpos := List.length_pos_of_ne_nil hne
    simp only [readLastBlock, hbody, htake, hdrop, List.reverse_reverse, List.tail_cons, List.head?_cons]
    rw [if_neg ?nonempty, if_neg hne, if_neg (by simp), if_neg ?size]
    · exact rowOfColumn_ok_iff.2 ⟨hrow, rfl, rfl⟩
    case nonempty =>
      rintro (hshort | hlast)
      · simp only [List.length_append, List.length_cons, List.length_nil] at hshort
        omega
      · exact hlast (hend ▸ List.getLast?_concat)
    case size => omega

/-- Which block may stand before a rest (44_bwt.md rule R201): a full-size one anywhere, a shorter one at the end. -/
def FitsBefore (B : Nat) (b : Text × Text) (rest : Text) : Prop :=
  b.1.length = B ∨ (rest = [] ∧ b.1.length ≤ B)

/-- No comma follows the column of a last, shorter block. -/
theorem getElem?_ne_comma {col ds : Text} (hds : ∀ c ∈ ds, isDigit c = true) {B : Nat} (hB : col.length < B) :
    (col ++ comma :: (ds ++ [rparen]))[B]? ≠ some comma := by
  obtain ⟨k, rfl⟩ := Nat.exists_eq_add_of_lt hB
  rw [List.getElem?_append_right (by omega), show col.length + k + 1 - col.length = k + 1 by omega,
    List.getElem?_cons_succ]
  intro hcomma
  obtain hmem | hmem := List.mem_append.1 (List.mem_of_getElem? hcomma)
  · exact absurd (hds _ hmem) (by decide)
  · exact absurd (List.mem_singleton.1 hmem) (by decide)

/-- The reader of a block succeeds on exactly the texts that begin with a legal block that may stand there. -/
theorem readBlock_ok_iff {B : Nat} {t rest : Text} {v : Text × Nat} :
    readBlock B t = .ok (v, rest) ↔
      ∃ b, LegalBlock b ∧ FitsBefore B b rest ∧ v = blockValue b ∧ t = writtenBlock b ++ rest := by
  simp only [readBlock, bind_eq_ok_iff, Prod.exists, expect_ok, writtenBlock_append]
  constructor
  · rintro ⟨-, u, rfl, h⟩
    split at h
    · obtain ⟨b, hb, hlen, rfl, rfl⟩ := readFullBlock_ok_iff.1 h
      exact ⟨b.1, b.2, hb, .inl hlen, rfl, rfl⟩
    · obtain ⟨b, hb, hlen, rfl, rfl, rfl⟩ := readLastBlock_ok_iff.1 h
      exact ⟨b.1, b.2, hb, .inr ⟨rfl, hlen⟩, rfl, rfl⟩
  · rintro ⟨col, ds, hb, hfits, rfl, rfl⟩
    refine ⟨(), _, rfl, ?_⟩
    by_cases hfull : col.length = B
    · rw [if_pos (by simp [← hfull])]
      exact readFullBlock_ok_iff.2 ⟨(col, ds), hb, hfull, rfl, rfl⟩
    · obtain ⟨rfl, hlen⟩ := hfits.resolve_left hfull
      obtain ⟨-, hdigits⟩ := hb.literal
      rw [if_neg fun h => getElem?_ne_comma hdigits (lt_of_le_of_ne hlen hfull) h.2]
      exact readLastBlock_ok_iff.2 ⟨(col, ds), hb, hlen, rfl, rfl, rfl⟩

theorem readBlock_onlyFormatError (B : Nat) (t : Text) : OnlyFormatError (readBlock B t) := by
  have hrow (b : Text × Nat) (rest : Text) : OnlyFormatError (rowOfColumn b rest) :=
    (onlyFormatError_ok _).ite onlyFormatError_formatError
  have hfull (u : Text) : OnlyFormatError (readFullBlock B u) :=
    (expect_onlyFormatError comma _).bind fun _ =>
    (literal_onlyFormatError _).bind fun _ =>
    (expect_onlyFormatError rparen _).bind fun _ => hrow _ _
  have hlast (u : Text) : OnlyFormatError (readLastBlock B u) :=
    onlyFormatError_formatError.ite <| onlyFormatError_formatError.ite <| onlyFormatError_formatError.ite <|
      onlyFormatError_formatError.ite (hrow _ _)
  exact (expect_onlyFormatError lparen t).bind fun _ => (hfull _).ite (hlast _)

/-! ### Reading the blocks of a text (44_bwt.md rule R203, 30_encoding.md rule R83) -/

/-- Legal blocks of at most `B` characters, exactly `B` but for the last. -/
structure LegalBlocks (B : Nat) (bs : List (Text × Text)) : Prop where
  legal : ∀ b ∈ bs, LegalBlock b
  length_le : ∀ b ∈ bs, b.1.length ≤ B
  full : ∀ b ∈ bs.dropLast, b.1.length = B

/-- The text of some blocks. -/
def blocksText (bs : List (Text × Text)) : Text := bs.flatMap writtenBlock

theorem blocksText_eq_nil_iff {bs : List (Text × Text)} : blocksText bs = [] ↔ bs = [] := by
  cases bs <;> simp [blocksText, writtenBlock]

theorem legalBlocks_nil (B : Nat) : LegalBlocks B [] := ⟨nofun, nofun, nofun⟩

theorem legalBlocks_cons_iff {B : Nat} {b : Text × Text} {bs : List (Text × Text)} :
    LegalBlocks B (b :: bs) ↔ LegalBlock b ∧ FitsBefore B b (blocksText bs) ∧ LegalBlocks B bs := by
  rw [FitsBefore, blocksText_eq_nil_iff]
  constructor
  · rintro ⟨hlegal, hle, hfull⟩
    obtain ⟨hb, hlegal⟩ := List.forall_mem_cons.1 hlegal
    obtain ⟨hbB, hle⟩ := List.forall_mem_cons.1 hle
    obtain ⟨hmore, hfull⟩ := forall_mem_dropLast_cons.1 hfull
    refine ⟨hb, ?_, hlegal, hle, hfull⟩
    obtain hbs | hbs := eq_or_ne bs []
    · exact .inr ⟨hbs, hbB⟩
    · exact .inl (hmore hbs)
  · rintro ⟨hb, hfits, hlegal, hle, hfull⟩
    refine ⟨List.forall_mem_cons.2 ⟨hb, hlegal⟩, List.forall_mem_cons.2 ⟨?_, hle⟩,
      forall_mem_dropLast_cons.2 ⟨fun hbs => hfits.resolve_right fun h => hbs h.1, hfull⟩⟩
    exact hfits.elim le_of_eq And.right

theorem legalBlocks_of_readAll {B fuel : Nat} {t : Text} {vs : List (Text × Nat)}
    (h : readAll (readBlock B) fuel t = .ok vs) :
    ∃ bs, LegalBlocks B bs ∧ vs = bs.map blockValue ∧ t = blocksText bs := by
  induction fuel generalizing t vs with
  | zero =>
    cases t with
    | nil => cases h; exact ⟨[], legalBlocks_nil B, rfl, rfl⟩
    | cons => cases h
  | succ fuel ih =>
    cases t with
    | nil => cases h; exact ⟨[], legalBlocks_nil B, rfl, rfl⟩
    | cons c t =>
      simp only [readAll] at h
      split at h
      · cases h
      · next v rest hread =>
        split at h
        · cases h
        · next vs hall =>
          cases h
          obtain ⟨b, hb, hfits, rfl, ht⟩ := readBlock_ok_iff.1 hread
          obtain ⟨bs, hbs, rfl, rfl⟩ := ih hall
          exact ⟨b :: bs, legalBlocks_cons_iff.2 ⟨hb, hfits, hbs⟩, rfl, ht⟩

theorem readAll_blocksText {B : Nat} {bs : List (Text × Text)} (hbs : LegalBlocks B bs) {fuel : Nat}
    (hfuel : (blocksText bs).length ≤ fuel) :
    readAll (readBlock B) fuel (blocksText bs) = .ok (bs.map blockValue) := by
  induction bs generalizing fuel with
  | nil => cases fuel <;> rfl
  | cons b bs ih =>
    obtain ⟨hb, hfits, hbs⟩ := legalBlocks_cons_iff.1 hbs
    have htext : blocksText (b :: bs) = writtenBlock b ++ blocksText bs := rfl
    have hread := readBlock_ok_iff.2 ⟨b, hb, hfits, rfl, htext⟩
    rw [htext, writtenBlock_append] at hfuel hread ⊢
    simp only [List.length_cons, List.length_append] at hfuel
    obtain ⟨fuel, rfl⟩ := Nat.exists_eq_add_one_of_ne_zero (Nat.ne_zero_of_lt hfuel)
    have hrest := ih hbs (fuel := fuel) (by omega)
    simp [readAll, hread, hrest]

theorem bwtGrammar_and_bwtRows_iff {B : Nat} {bs : List (Text × Text)} {enc : Text} :
    BwtGrammar B bs enc ∧ BwtRows bs ↔ bs ≠ [] ∧ LegalBlocks B bs ∧ enc = blocksText bs := by
  constructor
  · rintro ⟨⟨hne, hshape, hfull, henc⟩, hrows⟩
    refine ⟨hne, ⟨fun b hb => ?legal, fun b hb => ?length_le, hfull⟩, henc⟩
    case legal =>
      obtain ⟨-, -, hliteral⟩ := hshape b hb
      exact ⟨hliteral, hrows b hb⟩
    case length_le =>
      obtain ⟨-, hle, -⟩ := hshape b hb
      exact hle
  · rintro ⟨hne, ⟨hlegal, hle, hfull⟩, henc⟩
    exact ⟨⟨hne, fun b hb => ⟨Nat.one_le_of_lt (hlegal b hb).row, hle b hb, (hlegal b hb).literal⟩, hfull, henc⟩,
      fun b hb => (hlegal b hb).row⟩

theorem readSome_readBlock_ok_iff {B : Nat} {enc : Text} {vs : List (Text × Nat)} :
    readSome (readBlock B) enc = .ok vs ↔ ∃ bs, (BwtGrammar B bs enc ∧ BwtRows bs) ∧ vs = bs.map blockValue := by
  simp only [bwtGrammar_and_bwtRows_iff]
  constructor
  · intro h
    rw [readSome] at h
    split at h
    · cases h
    · next henc =>
      obtain ⟨bs, hbs, rfl, rfl⟩ := legalBlocks_of_readAll h
      exact ⟨bs, ⟨mt blocksText_eq_nil_iff.2 henc, hbs, rfl⟩, rfl⟩
  · rintro ⟨bs, ⟨hne, hbs, rfl⟩, rfl⟩
    rw [readSome, if_neg (mt blocksText_eq_nil_iff.1 hne)]
    exact readAll_blocksText hbs le_rfl

/-! ### BWT_DEC (44_bwt.md rule R203) -/

section Decoder

variable {B : Nat} {enc : Text}

/-- Once the input is parsed, `bwt_decode` walks through each block, unless an index is above `NUM_MAX`. -/
theorem bwtDecode_of_grammar {bs : List (Text × Text)} (h : BwtGrammar B bs enc) (hrows : BwtRows bs)
    (numMax : Option Nat) :
    bwtDecode numMax B enc =
      if ∀ b ∈ bs, withinCap numMax (val b.2) = true then .ok (bs.flatMap fun b => ibwt b.1 (val b.2))
      else .error .capacityError := by
  have hread := readSome_readBlock_ok_iff.2 ⟨bs, ⟨h, hrows⟩, rfl⟩
  simp only [bwtDecode, hread, bind, Except.bind, List.flatMap_map, List.all_eq_true, List.forall_mem_map, blockValue]

theorem bwtDecode_of_no_grammar (h : ¬ ∃ bs, BwtGrammar B bs enc ∧ BwtRows bs) (numMax : Option Nat) :
    bwtDecode numMax B enc = .error .formatError := by
  cases hread : readSome (readBlock B) enc with
  | ok vs =>
    obtain ⟨bs, hbs, -⟩ := readSome_readBlock_ok_iff.1 hread
    exact absurd ⟨bs, hbs⟩ h
  | error k =>
    obtain rfl := readSome_onlyFormatError (readBlock_onlyFormatError B) enc k hread
    rw [bwtDecode, hread]
    rfl

end Decoder

theorem exec_bwtDec (radix : BitVec 4) (s : State) : exec (.bwtDec radix) s =
    .next (complete .decode (inputText s) (bwtDecode s.build.numMax s.build.bwtBlock (inputText s)) s) := rfl

/-- Settles O55, by the result of `bwt_decode` on the texts of the grammar whose indices name rows and on all
others. -/
theorem bwtDecAcceptsTheGrammar : Obligations.BwtDecAcceptsTheGrammar := by
  intro s radix
  have hexec := exec_bwtDec radix s
  refine ⟨fun bs hbs hrows => ?legal, fun hnone => ?malformed⟩
  case legal =>
    rw [bwtDecode_of_grammar hbs hrows] at hexec
    split at hexec
    · next hindices =>
      obtain ⟨hfits, hoverflows⟩ := completion_by_maxOut hexec
      exact ⟨fun h => hfits h.2, fun hover => hoverflows (hover.resolve_left (by simpa using hindices))⟩
    · next hindices => exact ⟨fun h => absurd h.1 hindices, fun _ => ⟨_, hexec, rfl⟩⟩
  case malformed =>
    rw [bwtDecode_of_no_grammar hnone] at hexec
    exact ⟨_, hexec, rfl⟩

/-! ### The round trip (44_bwt.md rule R205) -/

/-- The transform of a block as `bwt_encode` writes it, the index as the shortest literal. -/
def transformed (t : Text) : Text × Text := ((bwtBlock t).1, dec (bwtBlock t).2)

theorem ibwt_transformed {t : Text} (ht : t ≠ []) : ibwt (transformed t).1 (val (transformed t).2) = t := by
  rw [transformed, val_dec, ibwt_bwtBlock ht]

theorem bwtRows_map_transformed {ts : List Text} (hts : ∀ t ∈ ts, t ≠ []) : BwtRows (ts.map transformed) := by
  refine List.forall_mem_map.2 fun t ht => ?_
  rw [transformed, val_dec, length_bwtBlock_column]
  exact bwtBlock_index_lt (hts t ht)

/-- What `bwt_encode` writes is a text of the grammar for its block size. -/
theorem bwtGrammar_blocks {B : Nat} (hB : 1 ≤ B) {x : Text} (hx : x ≠ []) :
    BwtGrammar B ((blocks B x.length x).map transformed)
      ((blocks B x.length x).flatMap fun t => blockText (bwtBlock t)) := by
  refine ⟨by simpa using blocks_ne_nil hx, List.forall_mem_map.2 fun t ht => ?shape, ?full, ?text⟩
  case shape =>
    rw [transformed, length_bwtBlock_column]
    exact ⟨length_pos_of_mem_blocks hB t ht, length_le_of_mem_blocks t ht, isLiteral_dec _⟩
  case full =>
    rw [← List.map_dropLast]
    refine List.forall_mem_map.2 fun t ht => ?_
    rw [transformed, length_bwtBlock_column]
    exact length_of_mem_dropLast_blocks t ht
  case text =>
    rw [List.flatMap_map]
    rfl

/-- Decoding is possible as soon as an index as large as the text is long is within `NUM_MAX`. -/
theorem bwtDecode_of_bwtEncode {B : Nat} (hB : 1 ≤ B) {x e : Text} (h : bwtEncode B x = .ok e) {numMax : Option Nat}
    (hcap : withinCap numMax x.length = true) : bwtDecode numMax B e = .ok x := by
  obtain ⟨hx, rfl⟩ := bwtEncode_ok_iff.1 h
  have hne : ∀ t ∈ blocks B x.length x, t ≠ [] := fun t ht =>
    List.ne_nil_of_length_pos (length_pos_of_mem_blocks hB t ht)
  have hindices : ∀ b ∈ (blocks B x.length x).map transformed, withinCap numMax (val b.2) = true :=
    List.forall_mem_map.2 fun t ht => by
      rw [transformed, val_dec]
      refine withinCap_of_le ?_ hcap
      have hlen := (List.sublist_flatten_of_mem ht).length_le
      rw [flatten_blocks hB le_rfl] at hlen
      exact (bwtBlock_index_lt (hne t ht)).le.trans hlen
  rw [bwtDecode_of_grammar (bwtGrammar_blocks hB hx) (bwtRows_map_transformed hne), if_pos hindices]
  congr 1
  calc ((blocks B x.length x).map transformed).flatMap (fun b => ibwt b.1 (val b.2))
    _ = (blocks B x.length x).flatMap fun t => ibwt (transformed t).1 (val (transformed t).2) := List.flatMap_map ..
    _ = (blocks B x.length x).flatMap id := List.flatMap_congr fun t ht => ibwt_transformed (hne t ht)
    _ = x := by rw [List.flatMap_id, flatten_blocks hB le_rfl]

/-- Settles O56: on the machine the indices are within `NUM_MAX`, since the input text is within `MAX_IN`. -/
theorem bwtRoundTrip : Obligations.BwtRoundTrip := by
  refine ⟨fun x B hx hB => ?functions, fun s t u p q hb hin hexec hok hmoved hout => ?machine⟩
  case functions =>
    have henc := (bwtEncode_ok_iff (B := B)).2 ⟨hx, rfl⟩
    exact ⟨_, henc, bwtDecode_of_bwtEncode hB henc rfl⟩
  case machine =>
    refine roundTrip_of_familyResult hb hexec hok hmoved hout fun hbuild henc => ?_
    rw [familyResult, hbuild]
    exact bwtDecode_of_bwtEncode (one_le_bwtBlock hb) henc (withinCap_numMax hb (by rwa [inputText_length]))

end Sys2Proof.Machine

namespace Sys2Proof.Machine

/-! ### How the block's turn ends a BUSY period (60_exceptions.md rule R227) -/

theorem step_of_block {s : State} (h : nextTurn s = .block) : step s = blockTurn (popTurn s) := by
  rw [step, h]
  rfl

/-- Settles O25: a completion with an error kind is `failWith`, which empties the result registers and `OUT` and
leaves `IN`, `IN_LEN` and `CMD`. -/
theorem failedCompletion : Obligations.FailedCompletion := by
  intro s t hbusy hturn hstep herr
  rw [step_of_block hturn] at hstep
  obtain ⟨k, rfl⟩ | ⟨i, out, -, -, -, rfl⟩ := blockTurn_completion (s := popTurn s) hbusy hstep
  case inl => exact ⟨rfl, rfl, rfl, rfl, Memory.read_nil, rfl, rfl, rfl⟩
  case inr => exact absurd rfl herr

/-! ### The error kind of a completion (40_common.md rules R107 to R109) -/

theorem kind_inj {k k' : Raise} : k.kind = k'.kind ↔ k = k' := by
  cases k <;> cases k' <;> decide

/-- Every error kind but CapacityError, which `MAX_OUT` can raise too, is the family function's own. -/
theorem complete_err_eq_kind_iff {k : Raise} (hk : k ≠ .capacityError) (d : Direction) (src : Text)
    (r : Except Raise Text) (s : State) : (complete d src r s).err = k.kind ↔ r = .error k := by
  obtain ⟨k', rfl, h⟩ | ⟨out, rfl, -, h⟩ | ⟨out, rfl, -, h⟩ := complete_cases d src r s
  · simp [h, kind_inj]
  · simp [h, (kind_ne_ok k).symm]
  · simp [h, kind_inj, hk.symm]

/-! ### The one error a family function raises before any capacity (60_exceptions.md rules R221 to R226) -/

/-- The result `r` of a function beside its result `u` with no capacity: both fail with `k`, the one error of the
function that is no CapacityError, or `u` is a text and `r` is that text or CapacityError. -/
inductive JudgedLast (k : Raise) : (r u : Except Raise Text) → Prop where
  | fails : JudgedLast k (.error k) (.error k)
  | fits (out : Text) : JudgedLast k (.ok out) (.ok out)
  | exceeds (out : Text) : JudgedLast k (.error .capacityError) (.ok out)

theorem JudgedLast.eq_of_error {k k' : Raise} {r u : Except Raise Text} (h : JudgedLast k r u)
    (hr : r = .error k') (hk' : k' ≠ .capacityError) : k' = k := by
  cases h with
  | fails => exact (Except.error.inj hr).symm
  | fits => cases hr
  | exceeds => exact absurd (Except.error.inj hr).symm hk'

/-- A function with no capacity of its own that checks its argument first. -/
theorem judgedLast_of_check {p : Prop} [Decidable p] (k : Raise) (out : Text) :
    JudgedLast k (if p then .error k else .ok out) (if p then .error k else .ok out) := by
  split
  · exact .fails
  · exact .fits out

/-- The last check of a decoder: `within` holds when there is no capacity. -/
theorem judgedLast_of_capacity {within within' : Bool} (h : within' = true) (k : Raise) (out : Text) :
    JudgedLast k (if within then .ok out else .error .capacityError)
      (if within' then .ok out else .error .capacityError) := by
  rw [if_pos h]
  split
  · exact .fits out
  · exact .exceeds out

/-- What is read before a capacity is judged fails in both builds alike. -/
theorem OnlyFormatError.bind_judgedLast {α : Type} {x : Except Raise α} {f g : α → Except Raise Text}
    (hx : OnlyFormatError x) (hfg : ∀ a, JudgedLast .formatError (f a) (g a)) :
    JudgedLast .formatError (x >>= f) (x >>= g) := by
  cases x with
  | error k =>
    obtain rfl := hx k rfl
    exact .fails
  | ok a => exact hfg a

theorem all_withinCap_none {α : Type} (n : α → Nat) (as : List α) :
    (as.all fun a => withinCap none (n a)) = true := List.all_eq_true.2 fun _ _ => rfl

theorem rleDecode_judgedLast (numMax : Option Nat) (enc : Text) :
    JudgedLast .formatError (rleDecode numMax enc) (rleDecode none enc) :=
  (readSome_onlyFormatError (readCountItem_onlyFormatError lparen comma rparen) enc).bind_judgedLast fun _ =>
    judgedLast_of_capacity (all_withinCap_none _ _) _ _

theorem lz78Decode_judgedLast (numMax : Option Nat) (sentinel : Character) (enc : Text) :
    JudgedLast .formatError (lz78Decode numMax sentinel enc) (lz78Decode none sentinel enc) :=
  (readSome_onlyFormatError readLzPair_onlyFormatError enc).bind_judgedLast fun _ =>
  (lzRebuild_onlyFormatError sentinel [[]] _).bind_judgedLast fun _ =>
    judgedLast_of_capacity (all_withinCap_none _ _) _ _

theorem huffDecode_judgedLast (numMax : Option Nat) (r : Nat) (enc : Text) :
    JudgedLast .formatError (huffDecode numMax r enc) (huffDecode none r enc) :=
  (parseDict_onlyFormatError _).bind_judgedLast fun _ =>
  (matchStream_onlyFormatError _ _ _).bind_judgedLast fun _ =>
    judgedLast_of_capacity (countsWithin_iff.2 ⟨fun _ _ => rfl, rfl⟩) _ _

theorem bwtDecode_judgedLast (numMax : Option Nat) (B : Nat) (enc : Text) :
    JudgedLast .formatError (bwtDecode numMax B enc) (bwtDecode none B enc) :=
  (readSome_onlyFormatError (readBlock_onlyFormatError B) enc).bind_judgedLast fun _ =>
    judgedLast_of_capacity (all_withinCap_none _ _) _ _

/-- The state in a block built alike, with `MAX_OUT` and `NUM_MAX` unbounded. -/
def unbounded (s : State) : State := { s with build := { s.build with maxOut := none, numMax := none } }

/-- The error an operation raises for another reason than a capacity: InvalidArgument for an encode and for
illegal operands, FormatError for a decode (60_exceptions.md rules R221, R222). -/
def soleError (b : Build) (i : Instr) : Raise :=
  match i.direction with
  | .encode => .invalidArgument
  | .decode => if i.wellFormed b then .formatError else .invalidArgument

theorem soleError_ne_capacityError (b : Build) (i : Instr) : soleError b i ≠ .capacityError := by
  unfold soleError
  split
  · nofun
  · split <;> nofun

/-- The radix check of the Huffman operations stands before everything else (43_huffman.md rule R161). -/
theorem JudgedLast.after_radixCheck {k : Raise} {r u : Except Raise Text} (h : JudgedLast k r u) (legal : Bool) :
    JudgedLast (if legal then k else .invalidArgument) (if legal then r else .error .invalidArgument)
      (if legal then u else .error .invalidArgument) := by
  cases legal with
  | true => exact h
  | false => exact .fails

/-- Every operation judges the capacities last (60_exceptions.md rule R226). -/
theorem familyResult_judgedLast (s : State) (i : Instr) :
    JudgedLast (soleError s.build i) (familyResult s i) (familyResult (unbounded s) i) := by
  cases i with
  | rleEnc => exact judgedLast_of_check _ _
  | rleDec => exact rleDecode_judgedLast _ _
  | lz78Enc => exact judgedLast_of_check _ _
  | lz78Dec => exact lz78Decode_judgedLast _ _ _
  | huffEnc radix =>
    have hsrc : JudgedLast .invalidArgument (huffEncode (radixOperand radix) (inputText s))
        (huffEncode (radixOperand radix) (inputText s)) := judgedLast_of_check _ _
    have hchecked := hsrc.after_radixCheck (radixLegal s.build radix)
    rw [ite_self] at hchecked
    exact hchecked
  | huffDec radix => exact (huffDecode_judgedLast _ _ _).after_radixCheck (radixLegal s.build radix)
  | bwtEnc => exact judgedLast_of_check _ _
  | bwtDec => exact bwtDecode_judgedLast _ _ _

/-- Settles O29: the one error an encode raises, but for CapacityError, is InvalidArgument. -/
theorem encodersNeverFormatError : Obligations.EncodersNeverFormatError := by
  intro i s t hdir hexec herr
  rw [eq_complete_of_exec hexec] at herr
  have hraised := (complete_err_eq_kind_iff (k := .formatError) nofun _ _ _ _).1 herr
  have hsole := (familyResult_judgedLast s i).eq_of_error hraised nofun
  rw [soleError, hdir] at hsole
  cases hsole

/-- A completion beside the one in the unbounded build (40_common.md rules R108, R109). -/
theorem JudgedLast.complete_beside_unbounded {k : Raise} {r u : Except Raise Text} (h : JudgedLast k r u)
    (hk : k ≠ .capacityError) (d : Direction) (src : Text) (s : State) {t v : State} (ht : t = complete d src r s)
    (hv : v = complete d src u (unbounded s)) :
    v.err ≠ .capacityError ∧ (v.err ≠ .ok → t.err = v.err) ∧
      (v.err = .ok → t.err = .capacityError ∨ (t.err = .ok ∧ outputText t = outputText v)) := by
  cases h with
  | fails =>
    subst ht hv
    exact ⟨fun h => hk (kind_inj.1 h), fun _ => rfl, fun h => absurd h (kind_ne_ok k)⟩
  | fits out =>
    rw [complete_ok_of_fits rfl] at hv
    subst hv
    refine ⟨nofun, fun h => absurd rfl h, fun _ => ?_⟩
    cases hfit : withinCap s.build.maxOut out.length with
    | true =>
      rw [ht, complete_ok_of_fits hfit, outputText_completeOk, outputText_completeOk]
      exact .inr ⟨rfl, rfl⟩
    | false =>
      rw [ht, complete_ok_of_overflows hfit]
      exact .inl rfl
  | exceeds out =>
    rw [complete_ok_of_fits rfl] at hv
    subst ht hv
    exact ⟨nofun, fun h => absurd rfl h, fun _ => .inl rfl⟩

/-- Settles O30: both states complete the same operation, and its family function judges the capacities last. -/
theorem capacityIsJudgedLast : Obligations.CapacityIsJudgedLast := fun i s _ _ ht hv =>
  (familyResult_judgedLast s i).complete_beside_unbounded (soleError_ne_capacityError _ _) i.direction (inputText s) s
    (eq_complete_of_exec ht) (eq_complete_of_exec (s := unbounded s) hv)

/-! ### The causes of InvalidArgument (60_exceptions.md rule R221) -/

/-- When a function that checks its argument first fails. -/
theorem check_eq_error_iff {p : Prop} [Decidable p] {k : Raise} {out : Text} :
    (if p then .error k else .ok out) = (.error k : Except Raise Text) ↔ p := by
  split <;> simp [*]

theorem rleEncode_error_iff {x : Text} : rleEncode x = .error .invalidArgument ↔ x = [] := check_eq_error_iff

theorem huffEncode_error_iff {r : Nat} {x : Text} : huffEncode r x = .error .invalidArgument ↔ x = [] :=
  check_eq_error_iff

theorem bwtEncode_error_iff {B : Nat} {x : Text} : bwtEncode B x = .error .invalidArgument ↔ x = [] :=
  check_eq_error_iff

theorem lz78Encode_error_iff {sentinel : Character} {x : Text} :
    lz78Encode sentinel x = .error .invalidArgument ↔ sentinel ∈ x := check_eq_error_iff

theorem JudgedLast.ne_invalidArgument {r u : Except Raise Text} (h : JudgedLast .formatError r u) :
    r ≠ .error .invalidArgument := fun hr => nomatch h.eq_of_error hr nofun

/-- The causes that lie in the operation and its input; the reserved bit is no operation. -/
theorem familyResult_invalidArgument_iff (s : State) (i : Instr) :
    familyResult s i = .error .invalidArgument ↔
      ((i.op = 4#3 ∨ i.op = 5#3) ∧ ¬ radixLegal s.build i.radix = true) ∨
      ((i.op = 0#3 ∨ i.op = 4#3 ∨ i.op = 6#3) ∧ inputText s = []) ∨
      (i.op = 2#3 ∧ s.build.lzSentinel ∈ inputText s) := by
  cases i with
  | rleEnc => simp [familyResult, Instr.op, rleEncode_error_iff]
  | rleDec => simp [familyResult, Instr.op, (rleDecode_judgedLast _ _).ne_invalidArgument]
  | lz78Enc => simp [familyResult, Instr.op, lz78Encode_error_iff]
  | lz78Dec => simp [familyResult, Instr.op, (lz78Decode_judgedLast _ _ _).ne_invalidArgument]
  | huffEnc radix =>
    by_cases hlegal : radixLegal s.build radix = true
    · simp [familyResult, Instr.op, Instr.radix, hlegal, huffEncode_error_iff]
    · simp [familyResult, Instr.op, Instr.radix, hlegal]
  | huffDec radix =>
    by_cases hlegal : radixLegal s.build radix = true
    · simp [familyResult, Instr.op, Instr.radix, hlegal, (huffDecode_judgedLast _ _ _).ne_invalidArgument]
    · simp [familyResult, Instr.op, Instr.radix, hlegal]
  | bwtEnc => simp [familyResult, Instr.op, bwtEncode_error_iff]
  | bwtDec => simp [familyResult, Instr.op, (bwtDecode_judgedLast _ _ _).ne_invalidArgument]

theorem not_radixLegal_iff {b : Build} (h : b.ok = true) (radix : BitVec 4) :
    ¬ radixLegal b radix = true ↔ radix.toNat < 2 ∨ 10 < radix.toNat := by
  rw [radixLegal_iff h]
  omega

theorem inputText_eq_nil_iff (s : State) : inputText s = [] ↔ s.inLen = 0 := by
  rw [← inputText_length, List.length_eq_zero_iff]

/-- Settles O28: a word with `RSV = 1` fails, and every other runs its operation on its fields. -/
theorem invalidArgumentCauses : Obligations.InvalidArgumentCauses := by
  intro s t hb hbusy hturn hstep
  cases hrsv : s.cmd.getLsbD 7 with
  | true =>
    rw [step_of_busy_block hbusy hturn, runCommand_of_rsv_set (s := popTurn s) hrsv] at hstep
    cases hstep
    exact iff_of_true rfl (.inl rfl)
  | false =>
    rw [stepRunsTheCommand s _ hbusy hturn (decodeWord_of_rsv_clear hrsv)] at hstep
    obtain ⟨hop, hradix⟩ := fields_instrOfOp (opField s.cmd) (radixField s.cmd)
    have hcause := familyResult_invalidArgument_iff (popTurn s) (instrOfOp (opField s.cmd) (radixField s.cmd))
    rw [hop, hradix, popTurn_build, popTurn_inputText, not_radixLegal_iff hb, inputText_eq_nil_iff] at hcause
    rw [eq_complete_of_exec hstep]
    refine (complete_err_eq_kind_iff (k := .invalidArgument) nofun _ _ _ _).trans (hcause.trans ?_)
    exact (or_iff_right Bool.false_ne_true).symm

end Sys2Proof.Machine

namespace Sys2Proof.Machine

/-! ### The state after reset meets the invariant (70_reset_and_hazards.md rules R250, R252) -/

/-- The values left open in the reference instance are one more than a free number, so its constraints hold
whatever they are (00_scope.md Table P1). -/
theorem reference_ok : Build.reference.ok = true := by
  simp [Build.ok, Build.reference, Build.isChar]

/-- The registers are 0, OK and IDLE and no cell is listed, so of the invariant only the build's own
constraints are left. -/
theorem inv_resetOf {b : Build} (hb : b.ok = true) : (State.resetOf b).Inv where
  build_ok := hb
  in_wf := .nil
  in_range := nofun
  in_chars := nofun
  out_chars := nofun
  inLen_legal := withinCap_zero _
  outLen_legal := withinCap_zero _
  out_exact := rfl
  busy_ok := nofun
  idle_reset := fun _ => ⟨rfl, rfl, rfl, rfl, rfl⟩
  failed_empty := fun herr => absurd rfl herr
  ratioSrc_le := fun _ _ => Nat.zero_le _
  ratioEnc_le := fun _ _ => Nat.zero_le _
  decode_ratio := nofun
  encode_size := nofun

/-- Settles O7: the reference instance is a legal build, and the reset state of every legal build meets the
invariant. -/
theorem resetMeetsInvariant : Obligations.ResetMeetsInvariant :=
  ⟨inv_resetOf reference_ok, fun _ hb => inv_resetOf hb⟩

/-! ### The BUSY period (70_reset_and_hazards.md rule R266, 10_state.md rules R32 to R34) -/

theorem sameBlock_refl (s : State) : SameBlock s s :=
  ⟨rfl, rfl, rfl, rfl, rfl, rfl, rfl, rfl, rfl, rfl, rfl⟩

theorem sameBlock_trans {s t u : State} (h : SameBlock s t) (h' : SameBlock t u) : SameBlock s u where
  build := h'.build.trans h.build
  cmd := h'.cmd.trans h.cmd
  phase := h'.phase.trans h.phase
  err := h'.err.trans h.err
  inLen := h'.inLen.trans h.inLen
  inBuf := h'.inBuf.trans h.inBuf
  outLen := h'.outLen.trans h.outLen
  outBuf := h'.outBuf.trans h.outBuf
  ratioSrc := h'.ratioSrc.trans h.ratioSrc
  ratioEnc := h'.ratioEnc.trans h.ratioEnc
  epoch := h'.epoch.trans h.epoch

theorem inputText_of_sameBlock {s t : State} (h : SameBlock s t) : inputText t = inputText s := by
  simp [inputText, Memory.text, unwrittenCell, h.inBuf, h.inLen, h.build, h.epoch]

/-- No host action touches the turns still to come. -/
theorem hostAct_agenda (a : HostAction) (s : State) : (hostAct a s).agenda = s.agenda := by
  obtain ⟨w, -, -, h⟩ | ⟨i, c, -, -, -, h⟩ | ⟨n, -, -, -, h⟩ | ⟨-, h⟩ | ⟨-, ⟨r, h⟩ | ⟨r, h⟩⟩ := hostAct_cases a s
  all_goals simp [h]

/-- While BUSY the host disturbs nothing: its reads change its own side alone, and its writes and STARTs are
lost (10_state.md rules R33, R34). -/
theorem sameBlock_of_busy_host {s t : State} {a : HostAction} (hbusy : s.phase = .busy)
    (hturn : nextTurn s = .host a) (h : step s = .next t) : SameBlock s t := by
  cases stepWrites_of_step h with
  | nothing h => exact h
  | reset hreset => cases hturn.symm.trans hreset
  | completion hblock => cases hturn.symm.trans hblock
  | start _ _ hp => exact absurd hbusy hp
  | wrIn _ _ _ hp => exact absurd hbusy hp
  | setInLen _ _ hp => exact absurd hbusy hp

/-- `k` steps from `s` end in DONE, and in every state before that the block is as it is in `s`. -/
def DoneAfter (s : State) (k : Nat) : Prop :=
  (∃ t : State, core.run k s = .next t ∧ t.phase = .done) ∧
    ∀ j, j < k → ∃ u : State, core.run j s = .next u ∧ SameBlock s u

/-- The block's turn is the completion. -/
theorem doneAfter_one {s : State} (hb : s.build.ok = true) (hbusy : s.phase = .busy)
    (hturn : nextTurn s = .block) : DoneAfter s 1 := by
  obtain ⟨t, hstep⟩ := step_next hb
  obtain ⟨-, -, hdone, -⟩ := phaseTransitions s t hstep
  refine ⟨⟨t, core_run_succ_of_step hstep 0, hdone hturn hbusy⟩, fun j hj => ?_⟩
  obtain rfl := Nat.lt_one_iff.1 hj
  exact ⟨s, rfl, sameBlock_refl s⟩

/-- A step that leaves the block as it is puts the completion off by one. -/
theorem DoneAfter.of_step {s u : State} {k : Nat} (h : DoneAfter u k) (hstep : step s = .next u)
    (hsame : SameBlock s u) : DoneAfter s (k + 1) := by
  obtain ⟨⟨t, hrun, hdone⟩, hbefore⟩ := h
  refine ⟨⟨t, (core_run_succ_of_step hstep k).trans hrun, hdone⟩, fun j hj => ?_⟩
  cases j with
  | zero => exact ⟨s, rfl, sameBlock_refl s⟩
  | succ j =>
    obtain ⟨v, hrun', hsame'⟩ := hbefore j (Nat.lt_of_succ_lt_succ hj)
    exact ⟨v, (core_run_succ_of_step hstep j).trans hrun', sameBlock_trans hsame hsame'⟩

/-- The host's turns pass one by one, until the block gets its own or the agenda is empty. -/
theorem exists_doneAfter {s : State} (hb : s.build.ok = true) (hbusy : s.phase = .busy)
    (hreset : Turn.reset ∉ s.agenda) : ∃ k, k ≤ s.agenda.length + 1 ∧ DoneAfter s k := by
  induction hagenda : s.agenda generalizing s with
  | nil => exact ⟨1, le_rfl, doneAfter_one hb hbusy (by rw [nextTurn, hagenda]; rfl)⟩
  | cons turn rest ih =>
    have hturn := nextTurn_of_agenda hagenda
    cases turn with
    | block => exact ⟨1, Nat.le_add_left .., doneAfter_one hb hbusy hturn⟩
    | reset => exact absurd (hagenda ▸ List.mem_cons_self) hreset
    | host a =>
      have hstep := step_of_host hturn
      have hsame := sameBlock_of_busy_host hbusy hturn hstep
      have hrest : (hostAct a (popTurn s)).agenda = rest := by
        rw [hostAct_agenda, popTurn_agenda, hagenda, List.tail_cons]
      have hreset' : Turn.reset ∉ rest := fun hmem => hreset (hagenda ▸ List.mem_cons_of_mem _ hmem)
      obtain ⟨k, hk, hdone⟩ := ih (hsame.build ▸ hb) (hsame.phase.trans hbusy) (hrest ▸ hreset') hrest
      exact ⟨k + 1, Nat.succ_le_succ hk, hdone.of_step hstep hsame⟩

/-- Settles O10: until its completion the whole block is as it was, its `STATE`, `ERR`, `CMD` and input text
among the rest. -/
theorem busyPeriodEnds : Obligations.BusyPeriodEnds := by
  intro s hb hbusy hreset
  obtain ⟨k, hk, hdone, hbefore⟩ := exists_doneAfter hb hbusy hreset
  refine ⟨k, hk, hdone, fun j hj => ?_⟩
  obtain ⟨u, hrun, hsame⟩ := hbefore j hj
  exact ⟨u, hrun, hsame.phase.trans hbusy, hsame.err, hsame.cmd, inputText_of_sameBlock hsame⟩

end Sys2Proof.Machine
